-- ==== Sys2Proof/Word.lean ====
section
/-! DEFINITION. The word types of the block: every value it handles is an unsigned bit pattern of fixed width (R9, R12). -/

namespace Sys2Proof

/-- A byte of a buffer (R13). -/
abbrev Byte := BitVec 8

/-- The 32-bit word, the one unit of every wire format (R9, R60). -/
abbrev Word := BitVec 32

/-- The 4-bit fields: version, reserved, byte order, packet type, type ID, info code (R9). -/
abbrev Nibble := BitVec 4

/-- A packet ID, 16 bits (R9, R21). -/
abbrev PacketId := BitVec 16

/-- A transaction ID, 12 bits (R9, R22). -/
abbrev TxnId := BitVec 12

/-- The word-count field, 8 bits (R9, R66). -/
abbrev Count := BitVec 8

end Sys2Proof
end

