-- ==== Sys2Proof/Config.lean ====
section
/-! DEFINITION. What is fixed by the spec as a constant (R9) and what is fixed when a block is made (R10, R28). -/

namespace Sys2Proof

/-- The protocol version both headers carry, 2 (R2, R9). -/
abbrev protocolVersion : Nibble := 2

/-- The byte-order marker of every packet the composite operations build, 0xF (R61, R171). -/
abbrev bigEndianMarker : Nibble := 0xF

/-- The info code of a request, 0xF (R65). -/
abbrev requestInfo : Nibble := 0xF

/-- The info code of a successful response, 0x0 (R9, R65). The block writes it nowhere and interprets it nowhere: a decoder
returns it as transmitted. -/
abbrev successInfo : Nibble := 0x0

/-- The packet type of a control packet, 0 (R62). -/
abbrev controlType : Nibble := 0

/-- The packet type of a status packet, 1 (R62, R71). -/
abbrev statusType : Nibble := 1

/-- The packet type of a re-send request packet, 2 (R62, R72). -/
abbrev resendType : Nibble := 2

/-- The size ceiling of a control packet in bytes, 1472 = 368 words (R9, R70). -/
abbrev mtuBytes : Nat := 1472

/-- A status packet is 16 words with its header (R71). -/
abbrev statusPacketBytes : Nat := 64

/-- A re-send request packet is one word (R72). -/
abbrev resendPacketBytes : Nat := 4

/-- The most payload words a write may carry: the word count is 8 bits wide (R106, R143). -/
abbrev maxPayloadWords : Nat := 255

/-- What is fixed when a block is made and never changes (R28): the largest number of transactions one
control packet may hold (R10, R174, D15). -/
structure Config where
  maxTxn : Nat
  deriving DecidableEq, Repr

/-- The range the spec gives the parameter: `1 <= MAX_TXN <= 183` (R10). -/
abbrev Config.Wf (c : Config) : Prop := 1 ≤ c.maxTxn ∧ c.maxTxn ≤ 183

end Sys2Proof
end

