-- ==== Sys2Proof/Syntax.lean ====
section
/-! DEFINITION. The values the block handles (R140, R141, R170, R211) and its instructions: one constructor of `Instr` per
row of spec/opcode_table.json. -/

namespace Sys2Proof

/-- The eight transaction kinds, `typeID` 0 to 7 in this order (R64). -/
inductive TxnKind where
  | read | write | niRead | niWrite | rmwBits | rmwSum | cfgRead | cfgWrite
  deriving DecidableEq, Repr

/-- The classes of R64's table. -/
inductive TxnClass where
  | readType | writeType | rmw
  deriving DecidableEq, Repr

/-- The failure kinds of R211, in the order of their codes 1 to 8. -/
inductive FailureKind where
  /-- 1: a version nibble is not 2 (R212). -/
  | protocolVersionMismatch
  /-- 2: a type ID of 8 to 15 (R213). -/
  | unsupportedTransactionType
  /-- 3: the encoding is longer than the destination (R215). -/
  | bufferTooSmall
  /-- 4: the packet is longer than 1472 bytes or holds too many transactions (R216). -/
  | packetTooLarge
  /-- 5: reserved for the target's side, raised by no operation (R217). -/
  | sequenceGap
  /-- 6: the input is shorter than the frame (R219). -/
  | truncatedInput
  /-- 7: reserved, raised by no operation (R218). -/
  | counterExhaustion
  /-- 8: the packet is not a control packet (R220). -/
  | badPacketType
  deriving DecidableEq, Repr

/-- The fields of a packet header word (R61), the results of DEC_PKT_HDR (R103). -/
structure PktFields where
  version    : Nibble
  rsvd       : Nibble
  packetID   : PacketId
  byteOrder  : Nibble
  packetType : Nibble
  deriving DecidableEq, Repr

/-- The fields of a transaction header word (R63), the results of DEC_TXN_HDR (R104). -/
structure TxnFields where
  version       : Nibble
  transactionID : TxnId
  wordCount     : Count
  typeID        : Nibble
  infoCode      : Nibble
  deriving DecidableEq, Repr

/-- A Transaction (R140). -/
structure Transaction where
  transactionID : TxnId
  typeID        : Nibble
  infoCode      : Nibble
  wordCount     : Count
  baseAddress   : Word
  payload       : List Word
  deriving DecidableEq, Repr

/-- A request descriptor: a Transaction without the two fields the block supplies itself (R141). -/
structure Descriptor where
  typeID      : Nibble
  wordCount   : Count
  baseAddress : Word
  payload     : List Word
  deriving DecidableEq, Repr

/-- A control packet (R170). -/
structure ControlPacket where
  header       : PktFields
  transactions : List Transaction
  deriving DecidableEq, Repr

/-- The instructions: the 23 operations of R76, then the 20 wire rows of the table (packet headers with the bytes
that follow them, transaction frames with their operand words; log 1). -/
inductive Instr where
  -- header codec (R101 to R104)
  | encPktHdr (byteOrder packetType : Nibble)
  | encTxnHdr (typeID : Nibble) (wordCount : Count)
  | decPktHdr (w : Word)
  | decTxnHdr (w : Word)
  -- sequence counters (R121 to R128)
  | pidGet
  | pidSet (value : PacketId)
  | pidReset
  | pidInc
  | tidGet
  | tidSet (value : TxnId)
  | tidReset
  | tidInc
  -- transaction model (R149, R150)
  | txnEncode (q : Descriptor) (cap : Nat)
  | txnDecode (rx : List Byte)
  -- control-packet model (R171, R172)
  | pktEncode (qs : List Descriptor) (cap : Nat)
  | pktDecode (rx : List Byte)
  -- boundary operations (R191 to R197)
  | buildRead (addr : Word) (size : Count) (cap : Nat)
  | buildWrite (addr : Word) (data : List Word) (cap : Nat)
  | buildNIRead (addr : Word) (size : Count) (cap : Nat)
  | buildNIWrite (addr : Word) (data : List Word) (cap : Nat)
  | buildRMWBits (addr andTerm orTerm : Word) (cap : Nat)
  | buildRMWSum (addr addend : Word) (cap : Nat)
  | decodeResponse (rx : List Byte)
  -- packets, by packet type (R69, R71, R72); `body` is every byte after the header word
  | pktHdrControl (rsvd : Nibble) (packetID : PacketId) (byteOrder : Nibble) (body : List Byte)
  | pktHdrStatus (rsvd : Nibble) (packetID : PacketId) (byteOrder : Nibble) (body : List Byte)
  | pktHdrResend (rsvd : Nibble) (packetID : PacketId) (byteOrder : Nibble) (body : List Byte)
  -- request frames (info code 0xF; R67, R68)
  | txnReadReq (transactionID : TxnId) (wordCount : Count) (baseAddress : Word)
  | txnWriteReq (transactionID : TxnId) (wordCount : Count) (baseAddress : Word) (payload : List Word)
  | txnNIReadReq (transactionID : TxnId) (wordCount : Count) (baseAddress : Word)
  | txnNIWriteReq (transactionID : TxnId) (wordCount : Count) (baseAddress : Word) (payload : List Word)
  | txnRMWBitsReq (transactionID : TxnId) (wordCount : Count) (baseAddress andTerm orTerm : Word)
  | txnRMWSumReq (transactionID : TxnId) (wordCount : Count) (baseAddress addend : Word)
  | txnCfgReadReq (transactionID : TxnId) (wordCount : Count) (baseAddress : Word)
  | txnCfgWriteReq (transactionID : TxnId) (wordCount : Count) (baseAddress : Word) (payload : List Word)
  -- response frames (info code other than 0xF; R67, R68)
  | txnReadRsp (transactionID : TxnId) (wordCount : Count) (infoCode : Nibble) (baseAddress : Word) (payload : List Word)
  | txnWriteRsp (transactionID : TxnId) (wordCount : Count) (infoCode : Nibble) (baseAddress : Word)
  | txnNIReadRsp (transactionID : TxnId) (wordCount : Count) (infoCode : Nibble) (baseAddress : Word) (payload : List Word)
  | txnNIWriteRsp (transactionID : TxnId) (wordCount : Count) (infoCode : Nibble) (baseAddress : Word)
  | txnRMWBitsRsp (transactionID : TxnId) (wordCount : Count) (infoCode : Nibble) (baseAddress value : Word)
  | txnRMWSumRsp (transactionID : TxnId) (wordCount : Count) (infoCode : Nibble) (baseAddress value : Word)
  | txnCfgReadRsp (transactionID : TxnId) (wordCount : Count) (infoCode : Nibble) (baseAddress : Word) (payload : List Word)
  | txnCfgWriteRsp (transactionID : TxnId) (wordCount : Count) (infoCode : Nibble) (baseAddress : Word)
  -- a header whose type ID is 8 to 15, that is `8 + typeLow` (R213)
  | txnUnsupported (transactionID : TxnId) (wordCount : Count) (typeLow : BitVec 3) (infoCode : Nibble)
  deriving DecidableEq, Repr

/-- Where the host hands a request to the block: the command port (code and operands, R76), or wire bytes that begin with a
packet header or with a transaction header (R60; log 1). -/
inductive Channel where
  | command | packet | frame
  deriving DecidableEq, Repr

/-- A request of the host: its channel and its bytes. -/
structure Request where
  channel : Channel
  bytes   : List Byte
  deriving DecidableEq, Repr

end Sys2Proof
end

