-- ==== Sys2Proof/Machine/Operands.lean ====
section
/-! DEFINITION. The operand forms: byte order of a word (R41, R42), header fields (R61, R63, R73), transaction kinds and
payload lengths (R64, R66, R68), request descriptors and their constructors (R141 to R148), sizes (R67, R152, R170). -/

namespace Sys2Proof

/-! ### Words in buffers -/

/-- `be32(w)`: the four bytes of a word, most significant first (R41). -/
def be32 (w : Word) : List Byte :=
  [w.extractLsb' 24 8, w.extractLsb' 16 8, w.extractLsb' 8 8, w.extractLsb' 0 8]

/-- The words of a sequence one after another, each big-endian (R41, R58). -/
def be32s : List Word → List Byte
  | [] => []
  | w :: ws => be32 w ++ be32s ws

/-- The word four bytes make, first byte most significant (R42). -/
def wordOfBytes (b0 b1 b2 b3 : Byte) : Word := b0 ++ b1 ++ b2 ++ b3

/-- `RxWord(rx, off)`: the word at a byte offset, absent unless all of it lies inside the buffer (R42, R46). -/
def rxWord (rx : List Byte) (off : Nat) : Option Word :=
  match rx.drop off with
  | b0 :: b1 :: b2 :: b3 :: _ => some (wordOfBytes b0 b1 b2 b3)
  | _ => none

/-- The `n` words from a byte offset, absent unless all of them lie inside the buffer (R150). -/
def rxWords (rx : List Byte) (off : Nat) : Nat → Option (List Word)
  | 0 => some []
  | n + 1 =>
    match rxWord rx off with
    | none => none
    | some w => (rxWords rx (off + 4) n).map (w :: ·)

/-! ### Header words -/

/-- `PKT_HDR` assembled from its fields (R73). -/
def assemblePktHdr (rsvd : Nibble) (packetID : PacketId) (byteOrder packetType : Nibble) : Word :=
  (protocolVersion.setWidth 32 <<< 28) ||| (rsvd.setWidth 32 <<< 24) ||| (packetID.setWidth 32 <<< 8)
    ||| (byteOrder.setWidth 32 <<< 4) ||| packetType.setWidth 32

/-- `TXN_HDR` assembled from its fields (R73). -/
def assembleTxnHdr (transactionID : TxnId) (wordCount : Count) (typeID infoCode : Nibble) : Word :=
  (protocolVersion.setWidth 32 <<< 28) ||| (transactionID.setWidth 32 <<< 16) ||| (wordCount.setWidth 32 <<< 8)
    ||| (typeID.setWidth 32 <<< 4) ||| infoCode.setWidth 32

/-- The fields of a packet header word, sliced as R61's table places them. -/
def pktFields (w : Word) : PktFields where
  version    := w.extractLsb' 28 4
  rsvd       := w.extractLsb' 24 4
  packetID   := w.extractLsb' 8 16
  byteOrder  := w.extractLsb' 4 4
  packetType := w.extractLsb' 0 4

/-- The fields of a transaction header word, sliced as R63's table places them. -/
def txnFields (w : Word) : TxnFields where
  version       := w.extractLsb' 28 4
  transactionID := w.extractLsb' 16 12
  wordCount     := w.extractLsb' 8 8
  typeID        := w.extractLsb' 4 4
  infoCode      := w.extractLsb' 0 4

/-! ### Transaction kinds -/

/-- The type ID of a kind (R64). -/
def TxnKind.code : TxnKind → Nibble
  | .read => 0
  | .write => 1
  | .niRead => 2
  | .niWrite => 3
  | .rmwBits => 4
  | .rmwSum => 5
  | .cfgRead => 6
  | .cfgWrite => 7

/-- The kind a type ID selects: type IDs 8 to 15 select none (R64). -/
def TxnKind.ofCode (typeID : Nibble) : Option TxnKind :=
  match typeID.toNat with
  | 0 => some .read
  | 1 => some .write
  | 2 => some .niRead
  | 3 => some .niWrite
  | 4 => some .rmwBits
  | 5 => some .rmwSum
  | 6 => some .cfgRead
  | 7 => some .cfgWrite
  | _ => none

/-- The class of a kind (R64, with D8 for the two configuration-space kinds). -/
def TxnKind.cls : TxnKind → TxnClass
  | .read | .niRead | .cfgRead => .readType
  | .write | .niWrite | .cfgWrite => .writeType
  | .rmwBits | .rmwSum => .rmw

/-- `paylen(typeID, infoCode, wordCount)`: the number of payload words of a frame (R68). -/
def paylen (kind : TxnKind) (infoCode : Nibble) (wordCount : Count) : Nat :=
  if infoCode = requestInfo then
    match kind with
    | .read | .niRead | .cfgRead => 0
    | .write | .niWrite | .cfgWrite => wordCount.toNat
    | .rmwBits => 2
    | .rmwSum => 1
  else
    match kind with
    | .read | .niRead | .cfgRead => wordCount.toNat
    | .write | .niWrite | .cfgWrite => 0
    | .rmwBits | .rmwSum => 1

/-! ### Transactions -/

/-- The bytes of a transaction frame with `n` payload words (R67). -/
def frameBytes (n : Nat) : Nat := 8 + 4 * n

/-- The bytes of a Transaction's frame: header, base address, payload, each word big-endian (R67). -/
def Transaction.wire (T : Transaction) : List Byte :=
  be32 (assembleTxnHdr T.transactionID T.wordCount T.typeID T.infoCode) ++ be32 T.baseAddress ++ be32s T.payload

/-- A successful response: what the host reads from the info code of a decoded Transaction (R65, R233); no operation of the block
asks it. The codes 1 to 14 report errors and have no meaning here (U6). -/
def Transaction.succeeded (T : Transaction) : Bool := T.infoCode == successInfo

/-- A Transaction as the block produces it: a supported kind and as many payload words as its frame has (R68, R140). -/
def Transaction.valid (T : Transaction) : Bool :=
  match TxnKind.ofCode T.typeID with
  | none => false
  | some k => T.payload.length == paylen k T.infoCode T.wordCount

/-- The bytes of a control packet holding these transactions: 4 for the packet header and the frames (R70, R170). -/
def ControlPacket.bytes (P : ControlPacket) : Nat :=
  4 + (P.transactions.map fun T => frameBytes T.payload.length).sum

/-- The bytes of a control packet: its header word, then its transactions' frames in sequence order (R69, R58). -/
def ControlPacket.wire (P : ControlPacket) : List Byte :=
  be32 (assemblePktHdr P.header.rsvd P.header.packetID P.header.byteOrder P.header.packetType)
    ++ (P.transactions.map Transaction.wire).flatten

/-- A control packet as the block produces it: version 2, packet type 0, each transaction as the block produces it
(R170). -/
def ControlPacket.valid (P : ControlPacket) : Bool :=
  P.header.version == protocolVersion && P.header.packetType == controlType && P.transactions.all Transaction.valid

/-! ### Request descriptors -/

/-- The type is one the block supports (R213). -/
def Descriptor.supported (q : Descriptor) : Bool := q.typeID.toNat < 8

/-- A well-formed descriptor: a supported type, a payload as long as a request of that type and word count has, and for the
two RMW types the word count 1 (R141). -/
def Descriptor.wellFormed (q : Descriptor) : Bool :=
  match TxnKind.ofCode q.typeID with
  | none => false
  | some k => q.payload.length == paylen k requestInfo q.wordCount && (k.cls != .rmw || q.wordCount == 1)

/-- The precondition of TXN_ENCODE and PKT_ENCODE on a descriptor: well formed, unless its type is unsupported
(R149, R171). -/
def Descriptor.presentable (q : Descriptor) : Bool := !q.supported || q.wellFormed

/-- The bytes the descriptor's frame takes: a function of the operand alone (R152). -/
def Descriptor.bytes (q : Descriptor) : Nat := frameBytes q.payload.length

/-- The Transaction a descriptor becomes when it is encoded with a transaction ID (R149). -/
def Descriptor.transaction (q : Descriptor) (t : TxnId) : Transaction :=
  ⟨t, q.typeID, requestInfo, q.wordCount, q.baseAddress, q.payload⟩

/-- The encoded length of a control packet of these requests (R171, R173). -/
def packetBytes (qs : List Descriptor) : Nat := 4 + (qs.map Descriptor.bytes).sum

/-- `Read(addr, size)` (R142). -/
def readRequest (addr : Word) (size : Count) : Descriptor := ⟨TxnKind.read.code, size, addr, []⟩

/-- `Write(addr, data)`; the count is `len(data)` for the at most 255 words R143 allows. -/
def writeRequest (addr : Word) (data : List Word) : Descriptor :=
  ⟨TxnKind.write.code, BitVec.ofNat 8 data.length, addr, data⟩

/-- `NIRead(addr, size)` (R144). -/
def niReadRequest (addr : Word) (size : Count) : Descriptor := ⟨TxnKind.niRead.code, size, addr, []⟩

/-- `NIWrite(addr, data)` (R145). -/
def niWriteRequest (addr : Word) (data : List Word) : Descriptor :=
  ⟨TxnKind.niWrite.code, BitVec.ofNat 8 data.length, addr, data⟩

/-- `RMWBits(addr, andTerm, orTerm)`, AND-term first, word count 1 (R146). -/
def rmwBitsRequest (addr andTerm orTerm : Word) : Descriptor := ⟨TxnKind.rmwBits.code, 1, addr, [andTerm, orTerm]⟩

/-- `RMWSum(addr, addend)`, word count 1 (R147). -/
def rmwSumRequest (addr addend : Word) : Descriptor := ⟨TxnKind.rmwSum.code, 1, addr, [addend]⟩

/-- `CfgRead(addr, size)` (R148). -/
def cfgReadRequest (addr : Word) (size : Count) : Descriptor := ⟨TxnKind.cfgRead.code, size, addr, []⟩

/-- `CfgWrite(addr, data)` (R148). -/
def cfgWriteRequest (addr : Word) (data : List Word) : Descriptor :=
  ⟨TxnKind.cfgWrite.code, BitVec.ofNat 8 data.length, addr, data⟩

/-- The Transaction a frame row stands for; absent for the operations, the packets and the unsupported header, which are no
transaction frames (R63, R64, R67). -/
def Instr.transaction : Instr → Option Transaction
  | .txnReadReq t c a => some ⟨t, TxnKind.read.code, requestInfo, c, a, []⟩
  | .txnWriteReq t c a ps => some ⟨t, TxnKind.write.code, requestInfo, c, a, ps⟩
  | .txnNIReadReq t c a => some ⟨t, TxnKind.niRead.code, requestInfo, c, a, []⟩
  | .txnNIWriteReq t c a ps => some ⟨t, TxnKind.niWrite.code, requestInfo, c, a, ps⟩
  | .txnRMWBitsReq t c a x y => some ⟨t, TxnKind.rmwBits.code, requestInfo, c, a, [x, y]⟩
  | .txnRMWSumReq t c a x => some ⟨t, TxnKind.rmwSum.code, requestInfo, c, a, [x]⟩
  | .txnCfgReadReq t c a => some ⟨t, TxnKind.cfgRead.code, requestInfo, c, a, []⟩
  | .txnCfgWriteReq t c a ps => some ⟨t, TxnKind.cfgWrite.code, requestInfo, c, a, ps⟩
  | .txnReadRsp t c i a ps => some ⟨t, TxnKind.read.code, i, c, a, ps⟩
  | .txnWriteRsp t c i a => some ⟨t, TxnKind.write.code, i, c, a, []⟩
  | .txnNIReadRsp t c i a ps => some ⟨t, TxnKind.niRead.code, i, c, a, ps⟩
  | .txnNIWriteRsp t c i a => some ⟨t, TxnKind.niWrite.code, i, c, a, []⟩
  | .txnRMWBitsRsp t c i a x => some ⟨t, TxnKind.rmwBits.code, i, c, a, [x]⟩
  | .txnRMWSumRsp t c i a x => some ⟨t, TxnKind.rmwSum.code, i, c, a, [x]⟩
  | .txnCfgReadRsp t c i a ps => some ⟨t, TxnKind.cfgRead.code, i, c, a, ps⟩
  | .txnCfgWriteRsp t c i a => some ⟨t, TxnKind.cfgWrite.code, i, c, a, []⟩
  | .encPktHdr .. | .encTxnHdr .. | .decPktHdr .. | .decTxnHdr .. | .pidGet | .pidSet .. | .pidReset | .pidInc
  | .tidGet | .tidSet .. | .tidReset | .tidInc | .txnEncode .. | .txnDecode .. | .pktEncode .. | .pktDecode ..
  | .buildRead .. | .buildWrite .. | .buildNIRead .. | .buildNIWrite .. | .buildRMWBits .. | .buildRMWSum ..
  | .decodeResponse .. | .pktHdrControl .. | .pktHdrStatus .. | .pktHdrResend .. | .txnUnsupported .. => none

end Sys2Proof
end

