-- ==== Sys2Proof/WellFormed.lean ====
section
/-! DEFINITION. Which instructions are well formed: operands of the stated types (R106, R141, R143, R145, R149, R171) and wire
frames that are what their row says (R67, R68). Field widths are in the types already. -/

namespace Sys2Proof

/-- The info code marks a response (R65). -/
def isResponse (infoCode : Nibble) : Bool := infoCode != requestInfo

/-- As many payload words as the word count says, the frame length of write requests and read responses (R68). -/
def countMatches (wordCount : Count) (payload : List Word) : Bool := payload.length == wordCount.toNat

/-- The check: the rule stands beside each line. -/
def Instr.wellFormed : Instr → Bool
  | .txnEncode q _ => q.presentable                                            -- R149, U2
  | .pktEncode qs _ => qs.all Descriptor.presentable                           -- R171, U2
  | .buildWrite _ data _ => decide (data.length ≤ maxPayloadWords)             -- R192, U1
  | .buildNIWrite _ data _ => decide (data.length ≤ maxPayloadWords)           -- R194, U1
  | .txnWriteReq _ c _ ps | .txnNIWriteReq _ c _ ps | .txnCfgWriteReq _ c _ ps => countMatches c ps            -- R68
  | .txnReadRsp _ c i _ ps | .txnNIReadRsp _ c i _ ps | .txnCfgReadRsp _ c i _ ps => isResponse i && countMatches c ps
  | .txnWriteRsp _ _ i _ | .txnNIWriteRsp _ _ i _ | .txnCfgWriteRsp _ _ i _ => isResponse i                    -- R65, R68
  | .txnRMWBitsRsp _ _ i _ _ | .txnRMWSumRsp _ _ i _ _ => isResponse i
  | .encPktHdr .. | .encTxnHdr .. | .decPktHdr .. | .decTxnHdr .. | .pidGet | .pidSet .. | .pidReset | .pidInc
  | .tidGet | .tidSet .. | .tidReset | .tidInc | .txnDecode .. | .pktDecode .. | .buildRead .. | .buildNIRead ..
  | .buildRMWBits .. | .buildRMWSum .. | .decodeResponse .. | .pktHdrControl .. | .pktHdrStatus .. | .pktHdrResend ..
  | .txnReadReq .. | .txnNIReadReq .. | .txnRMWBitsReq .. | .txnRMWSumReq .. | .txnCfgReadReq .. | .txnUnsupported .. =>
    true

/-- Well formed. -/
abbrev Instr.WellFormed (i : Instr) : Prop := i.wellFormed = true

end Sys2Proof
end

