-- ==== Sys2Proof/Decode.lean ====
section
/-! DEFINITION. The decoder, total on any bytes and rejecting by name, and the encoder, written from the same tables: command
codes (R76), operand images of the command port (log 6), packet headers (R61, R62) and transaction headers (R63, R64) by the
masks and patterns of spec/opcode_table.json. -/

namespace Sys2Proof

/-- Why bytes decode to no instruction. -/
inductive DecodeError where
  /-- The command code is not in the table (R76, D2, U12). -/
  | unknownCommand (code : Byte)
  /-- An operand of the command is outside its stated type (R233, D5, U12). -/
  | operandOutsideType
  /-- The command image ends before its last operand, or a number in it is not in its shortest form (log 6). -/
  | incompleteCommand
  /-- The command image goes on after its last operand (log 6). -/
  | overlongCommand
  /-- Wire bytes that the block's own parser fails on, with the kind it reports (R150, R172). -/
  | wire (kind : FailureKind)
  deriving DecidableEq, Repr

/-! ### Command codes (R76) -/

/-- The 23 operations. -/
inductive Op where
  | encPktHdr | encTxnHdr | decPktHdr | decTxnHdr
  | pidGet | pidSet | pidReset | pidInc | tidGet | tidSet | tidReset | tidInc
  | txnEncode | txnDecode | pktEncode | pktDecode
  | buildRead | buildWrite | buildNIRead | buildNIWrite | buildRMWBits | buildRMWSum | decodeResponse
  deriving DecidableEq, Repr

/-- The table of command codes (R76). -/
def commandTable : List (Byte × Op) :=
  [(0x00, .encPktHdr), (0x01, .encTxnHdr), (0x02, .decPktHdr), (0x03, .decTxnHdr),
   (0x10, .pidGet), (0x11, .pidSet), (0x12, .pidReset), (0x13, .pidInc),
   (0x14, .tidGet), (0x15, .tidSet), (0x16, .tidReset), (0x17, .tidInc),
   (0x20, .txnEncode), (0x21, .txnDecode), (0x30, .pktEncode), (0x31, .pktDecode),
   (0x40, .buildRead), (0x41, .buildWrite), (0x42, .buildNIRead), (0x43, .buildNIWrite),
   (0x44, .buildRMWBits), (0x45, .buildRMWSum), (0x4F, .decodeResponse)]

/-- The operation a code selects; a code not in the table selects none. -/
def Op.ofCode (code : Byte) : Option Op := (commandTable.find? fun row => row.1 == code).map (·.2)

/-- The code of an operation. -/
def Op.code (op : Op) : Byte := ((commandTable.find? fun row => row.2 == op).map (·.1)).getD 0

/-! ### Reading operands of a command image (log 6) -/

/-- A reader takes a value from the front of the bytes and gives what is left. -/
abbrev Reader (α : Type) := List Byte → Except DecodeError (α × List Byte)

/-- `bits(8)`: one byte. -/
def readByte : Reader Byte
  | b :: bs => .ok (b, bs)
  | [] => .error .incompleteCommand

/-- `bits(4)`: one byte below 16; any other is outside the type. -/
def readNibble : Reader Nibble
  | b :: bs => if b.toNat < 16 then .ok (b.setWidth 4, bs) else .error .operandOutsideType
  | [] => .error .incompleteCommand

/-- `bits(12)`: two bytes, high byte first, below 4096; a 13-bit value is outside the type (R126, D5). -/
def readTxnId : Reader TxnId
  | b1 :: b0 :: bs => if b1.toNat < 16 then .ok ((b1 ++ b0 : BitVec 16).setWidth 12, bs) else .error .operandOutsideType
  | _ => .error .incompleteCommand

/-- `bits(16)`: two bytes, high byte first. -/
def readPacketId : Reader PacketId
  | b1 :: b0 :: bs => .ok (b1 ++ b0, bs)
  | _ => .error .incompleteCommand

/-- `bits(32)`: four bytes, high byte first. -/
def readWord : Reader Word
  | b3 :: b2 :: b1 :: b0 :: bs => .ok (wordOfBytes b3 b2 b1 b0, bs)
  | _ => .error .incompleteCommand

/-- A natural number: groups of seven bits, least significant first, a byte of 128 or more saying that another group
follows; the shortest form only. -/
def readNat : Reader Nat
  | [] => .error .incompleteCommand
  | b :: bs =>
    if b.toNat < 128 then .ok (b.toNat, bs)
    else
      match readNat bs with
      | .error e => .error e
      | .ok (n, rest) => if n = 0 then .error .incompleteCommand else .ok (b.toNat - 128 + 128 * n, rest)

/-- `n` values of one reader, one after another. -/
def readMany {α : Type} (read : Reader α) : Nat → Reader (List α)
  | 0, bs => .ok ([], bs)
  | n + 1, bs =>
    match read bs with
    | .error e => .error e
    | .ok (x, rest) =>
      match readMany read n rest with
      | .error e => .error e
      | .ok (xs, rest') => .ok (x :: xs, rest')

/-- A sequence: its length, then its elements. -/
def readSeq {α : Type} (read : Reader α) : Reader (List α) := fun bs =>
  match readNat bs with
  | .error e => .error e
  | .ok (n, rest) => readMany read n rest

/-- One reader after another. -/
def Reader.andThen {α β : Type} (read : Reader α) (next : α → Reader β) : Reader β := fun bs =>
  match read bs with
  | .error e => .error e
  | .ok (x, rest) => next x rest

/-- A value made from what has been read. -/
def Reader.give {α : Type} (x : α) : Reader α := fun bs => .ok (x, bs)

/-- A request descriptor, its fields in the order of R141. -/
def readDescriptor : Reader Descriptor :=
  Reader.andThen readNibble fun y => Reader.andThen readByte fun c => Reader.andThen readWord fun a =>
    Reader.andThen (readSeq readWord) fun ps => Reader.give ⟨y, c, a, ps⟩

/-- The operands of each operation, in the order of its rule's *Operands* list (R77). -/
def readOperands : Op → Reader Instr
  | .encPktHdr => Reader.andThen readNibble fun b => Reader.andThen readNibble fun t => Reader.give (.encPktHdr b t)
  | .encTxnHdr => Reader.andThen readNibble fun y => Reader.andThen readByte fun c => Reader.give (.encTxnHdr y c)
  | .decPktHdr => Reader.andThen readWord fun w => Reader.give (.decPktHdr w)
  | .decTxnHdr => Reader.andThen readWord fun w => Reader.give (.decTxnHdr w)
  | .pidGet => Reader.give .pidGet
  | .pidSet => Reader.andThen readPacketId fun v => Reader.give (.pidSet v)
  | .pidReset => Reader.give .pidReset
  | .pidInc => Reader.give .pidInc
  | .tidGet => Reader.give .tidGet
  | .tidSet => Reader.andThen readTxnId fun v => Reader.give (.tidSet v)
  | .tidReset => Reader.give .tidReset
  | .tidInc => Reader.give .tidInc
  | .txnEncode => Reader.andThen readDescriptor fun q => Reader.andThen readNat fun cap => Reader.give (.txnEncode q cap)
  | .txnDecode => Reader.andThen (readSeq readByte) fun rx => Reader.give (.txnDecode rx)
  | .pktEncode =>
    Reader.andThen (readSeq readDescriptor) fun qs => Reader.andThen readNat fun cap => Reader.give (.pktEncode qs cap)
  | .pktDecode => Reader.andThen (readSeq readByte) fun rx => Reader.give (.pktDecode rx)
  | .buildRead =>
    Reader.andThen readWord fun a => Reader.andThen readByte fun n => Reader.andThen readNat fun cap =>
      Reader.give (.buildRead a n cap)
  | .buildWrite =>
    Reader.andThen readWord fun a => Reader.andThen (readSeq readWord) fun d => Reader.andThen readNat fun cap =>
      Reader.give (.buildWrite a d cap)
  | .buildNIRead =>
    Reader.andThen readWord fun a => Reader.andThen readByte fun n => Reader.andThen readNat fun cap =>
      Reader.give (.buildNIRead a n cap)
  | .buildNIWrite =>
    Reader.andThen readWord fun a => Reader.andThen (readSeq readWord) fun d => Reader.andThen readNat fun cap =>
      Reader.give (.buildNIWrite a d cap)
  | .buildRMWBits =>
    Reader.andThen readWord fun a => Reader.andThen readWord fun x => Reader.andThen readWord fun y =>
      Reader.andThen readNat fun cap => Reader.give (.buildRMWBits a x y cap)
  | .buildRMWSum =>
    Reader.andThen readWord fun a => Reader.andThen readWord fun x => Reader.andThen readNat fun cap =>
      Reader.give (.buildRMWSum a x cap)
  | .decodeResponse => Reader.andThen (readSeq readByte) fun rx => Reader.give (.decodeResponse rx)

/-- The command at the front of the bytes: its code, then its operands. -/
def readCommand : Reader Instr
  | [] => .error .incompleteCommand
  | code :: bs =>
    match Op.ofCode code with
    | none => .error (.unknownCommand code)
    | some op => readOperands op bs

/-- A whole command image. -/
def decodeCommand (bytes : List Byte) : Except DecodeError Instr :=
  match readCommand bytes with
  | .error e => .error e
  | .ok (i, []) => .ok i
  | .ok (_, _ :: _) => .error .overlongCommand

/-! ### Wire rows: masks and patterns of spec/opcode_table.json -/

/-- The rows of format PKT_HDR. -/
inductive PktRow where
  | control | status | resend
  deriving DecidableEq, Repr

/-- The rows of format TXN_HDR. -/
inductive TxnRow where
  | request (kind : TxnKind)
  | response (kind : TxnKind)
  | unsupported
  deriving DecidableEq, Repr

/-- A row: the bits the mask selects are those of the pattern. -/
structure WireRow (α : Type) where
  mask    : Word
  pattern : Word
  row     : α
  deriving DecidableEq, Repr

/-- The first row a word matches: "rows are tried in order". -/
def matchRow {α : Type} (rows : List (WireRow α)) (w : Word) : Option α :=
  (rows.find? fun r => w &&& r.mask == r.pattern).map (·.row)

/-- The packet-header rows (R62). -/
def pktRows : List (WireRow PktRow) :=
  [⟨0xF000000F, 0x20000000, .control⟩, ⟨0xF000000F, 0x20000001, .status⟩, ⟨0xF000000F, 0x20000002, .resend⟩]

/-- The transaction-header rows (R64, R65). -/
def txnRows : List (WireRow TxnRow) :=
  [⟨0xF00000FF, 0x2000000F, .request .read⟩, ⟨0xF00000FF, 0x2000001F, .request .write⟩,
   ⟨0xF00000FF, 0x2000002F, .request .niRead⟩, ⟨0xF00000FF, 0x2000003F, .request .niWrite⟩,
   ⟨0xF00000FF, 0x2000004F, .request .rmwBits⟩, ⟨0xF00000FF, 0x2000005F, .request .rmwSum⟩,
   ⟨0xF00000FF, 0x2000006F, .request .cfgRead⟩, ⟨0xF00000FF, 0x2000007F, .request .cfgWrite⟩,
   ⟨0xF00000F0, 0x20000000, .response .read⟩, ⟨0xF00000F0, 0x20000010, .response .write⟩,
   ⟨0xF00000F0, 0x20000020, .response .niRead⟩, ⟨0xF00000F0, 0x20000030, .response .niWrite⟩,
   ⟨0xF00000F0, 0x20000040, .response .rmwBits⟩, ⟨0xF00000F0, 0x20000050, .response .rmwSum⟩,
   ⟨0xF00000F0, 0x20000060, .response .cfgRead⟩, ⟨0xF00000F0, 0x20000070, .response .cfgWrite⟩,
   ⟨0xF0000080, 0x20000080, .unsupported⟩]

/-- A packet: the row of its first word and the bytes after it. A word of another version, or of a packet type that has no
row, is what PKT_DECODE fails on (R172). -/
def decodePacket (bytes : List Byte) : Except DecodeError Instr :=
  match rxWord bytes 0 with
  | none => .error (.wire .truncatedInput)
  | some w =>
    let f := pktFields w
    match matchRow pktRows w with
    | some .control => .ok (.pktHdrControl f.rsvd f.packetID f.byteOrder (bytes.drop 4))
    | some .status => .ok (.pktHdrStatus f.rsvd f.packetID f.byteOrder (bytes.drop 4))
    | some .resend => .ok (.pktHdrResend f.rsvd f.packetID f.byteOrder (bytes.drop 4))
    | none => .error (.wire (if f.version = protocolVersion then .badPacketType else .protocolVersionMismatch))

/-- The operand words of a frame: the base address, then `n` payload words, for the instruction they make. -/
def readFrame (bytes : List Byte) (n : Nat) (make : Word → List Word → Instr) : Except DecodeError Instr :=
  match rxWord bytes 4, rxWords bytes 8 n with
  | some a, some ps => .ok (make a ps)
  | _, _ => .error (.wire .truncatedInput)

/-- The word at a place of a payload whose length the row fixes. -/
def payloadWord (ps : List Word) (k : Nat) : Word := ps.getD k 0

/-- A transaction frame at the front of the bytes; what stands after it is not examined (R150, D10). A header no row
matches has another version (R150). -/
def decodeFrame (bytes : List Byte) : Except DecodeError Instr :=
  match rxWord bytes 0 with
  | none => .error (.wire .truncatedInput)
  | some w =>
    let f := txnFields w
    let t := f.transactionID
    let c := f.wordCount
    let i := f.infoCode
    match matchRow txnRows w with
    | none => .error (.wire .protocolVersionMismatch)
    | some .unsupported => .ok (.txnUnsupported t c (w.extractLsb' 4 3) i)
    | some (.request .read) => readFrame bytes 0 fun a _ => .txnReadReq t c a
    | some (.request .write) => readFrame bytes c.toNat fun a ps => .txnWriteReq t c a ps
    | some (.request .niRead) => readFrame bytes 0 fun a _ => .txnNIReadReq t c a
    | some (.request .niWrite) => readFrame bytes c.toNat fun a ps => .txnNIWriteReq t c a ps
    | some (.request .rmwBits) =>
      readFrame bytes 2 fun a ps => .txnRMWBitsReq t c a (payloadWord ps 0) (payloadWord ps 1)
    | some (.request .rmwSum) => readFrame bytes 1 fun a ps => .txnRMWSumReq t c a (payloadWord ps 0)
    | some (.request .cfgRead) => readFrame bytes 0 fun a _ => .txnCfgReadReq t c a
    | some (.request .cfgWrite) => readFrame bytes c.toNat fun a ps => .txnCfgWriteReq t c a ps
    | some (.response .read) => readFrame bytes c.toNat fun a ps => .txnReadRsp t c i a ps
    | some (.response .write) => readFrame bytes 0 fun a _ => .txnWriteRsp t c i a
    | some (.response .niRead) => readFrame bytes c.toNat fun a ps => .txnNIReadRsp t c i a ps
    | some (.response .niWrite) => readFrame bytes 0 fun a _ => .txnNIWriteRsp t c i a
    | some (.response .rmwBits) => readFrame bytes 1 fun a ps => .txnRMWBitsRsp t c i a (payloadWord ps 0)
    | some (.response .rmwSum) => readFrame bytes 1 fun a ps => .txnRMWSumRsp t c i a (payloadWord ps 0)
    | some (.response .cfgRead) => readFrame bytes c.toNat fun a ps => .txnCfgReadRsp t c i a ps
    | some (.response .cfgWrite) => readFrame bytes 0 fun a _ => .txnCfgWriteRsp t c i a

/-- The decoder: the channel says which of the three forms the bytes have. -/
def decode (r : Request) : Except DecodeError Instr :=
  match r.channel with
  | .command => decodeCommand r.bytes
  | .packet => decodePacket r.bytes
  | .frame => decodeFrame r.bytes

/-! ### The encoder -/

/-- `bits(4)` in one byte. -/
def nibbleImage (v : Nibble) : List Byte := [v.setWidth 8]

/-- `bits(12)` in two bytes, high byte first. -/
def txnIdImage (v : TxnId) : List Byte := [(v.setWidth 16).extractLsb' 8 8, v.extractLsb' 0 8]

/-- `bits(16)` in two bytes, high byte first. -/
def packetIdImage (v : PacketId) : List Byte := [v.extractLsb' 8 8, v.extractLsb' 0 8]

/-- The groups of a natural number, with fuel for the recursion. -/
def natGroups : Nat → Nat → List Byte
  | 0, _ => []
  | fuel + 1, n =>
    if n < 128 then [BitVec.ofNat 8 n] else BitVec.ofNat 8 (128 + n % 128) :: natGroups fuel (n / 128)

/-- A natural number in its shortest form (log 6). -/
def natImage (n : Nat) : List Byte := natGroups (n + 1) n

/-- A sequence: its length, then its elements. -/
def seqImage {α : Type} (image : α → List Byte) (xs : List α) : List Byte := natImage xs.length ++ (xs.map image).flatten

/-- A byte sequence: its length, then the bytes. -/
def bytesImage (bs : List Byte) : List Byte := seqImage (fun b => [b]) bs

/-- A request descriptor, its fields in the order of R141. -/
def descriptorImage (q : Descriptor) : List Byte :=
  nibbleImage q.typeID ++ ([q.wordCount] ++ (be32 q.baseAddress ++ seqImage be32 q.payload))

/-- A packet: its header word, then its body (R61, R69). -/
def packetImage (rsvd : Nibble) (packetID : PacketId) (byteOrder packetType : Nibble) (body : List Byte) : List Byte :=
  be32 (assemblePktHdr rsvd packetID byteOrder packetType) ++ body

/-- The command image of an operation: its code (R76), then its operands in order (R77). -/
def commandImage (op : Op) (operands : List Byte) : Request := ⟨.command, op.code :: operands⟩

/-- The encoder. The frame rows are their Transaction's wire frame (R67). -/
def encode : Instr → Request
  | .encPktHdr b t => commandImage .encPktHdr (nibbleImage b ++ nibbleImage t)
  | .encTxnHdr y c => commandImage .encTxnHdr (nibbleImage y ++ [c])
  | .decPktHdr w => commandImage .decPktHdr (be32 w)
  | .decTxnHdr w => commandImage .decTxnHdr (be32 w)
  | .pidGet => commandImage .pidGet []
  | .pidSet v => commandImage .pidSet (packetIdImage v)
  | .pidReset => commandImage .pidReset []
  | .pidInc => commandImage .pidInc []
  | .tidGet => commandImage .tidGet []
  | .tidSet v => commandImage .tidSet (txnIdImage v)
  | .tidReset => commandImage .tidReset []
  | .tidInc => commandImage .tidInc []
  | .txnEncode q cap => commandImage .txnEncode (descriptorImage q ++ natImage cap)
  | .txnDecode rx => commandImage .txnDecode (bytesImage rx)
  | .pktEncode qs cap => commandImage .pktEncode (seqImage descriptorImage qs ++ natImage cap)
  | .pktDecode rx => commandImage .pktDecode (bytesImage rx)
  | .buildRead a n cap => commandImage .buildRead (be32 a ++ ([n] ++ natImage cap))
  | .buildWrite a d cap => commandImage .buildWrite (be32 a ++ (seqImage be32 d ++ natImage cap))
  | .buildNIRead a n cap => commandImage .buildNIRead (be32 a ++ ([n] ++ natImage cap))
  | .buildNIWrite a d cap => commandImage .buildNIWrite (be32 a ++ (seqImage be32 d ++ natImage cap))
  | .buildRMWBits a x y cap => commandImage .buildRMWBits (be32 a ++ (be32 x ++ (be32 y ++ natImage cap)))
  | .buildRMWSum a x cap => commandImage .buildRMWSum (be32 a ++ (be32 x ++ natImage cap))
  | .decodeResponse rx => commandImage .decodeResponse (bytesImage rx)
  | .pktHdrControl r p b body => ⟨.packet, packetImage r p b controlType body⟩
  | .pktHdrStatus r p b body => ⟨.packet, packetImage r p b statusType body⟩
  | .pktHdrResend r p b body => ⟨.packet, packetImage r p b resendType body⟩
  | .txnUnsupported t c y i => ⟨.frame, be32 (assembleTxnHdr t c (1#1 ++ y) i)⟩
  | .txnReadReq t c a => ⟨.frame, Transaction.wire ⟨t, TxnKind.read.code, requestInfo, c, a, []⟩⟩
  | .txnWriteReq t c a ps => ⟨.frame, Transaction.wire ⟨t, TxnKind.write.code, requestInfo, c, a, ps⟩⟩
  | .txnNIReadReq t c a => ⟨.frame, Transaction.wire ⟨t, TxnKind.niRead.code, requestInfo, c, a, []⟩⟩
  | .txnNIWriteReq t c a ps => ⟨.frame, Transaction.wire ⟨t, TxnKind.niWrite.code, requestInfo, c, a, ps⟩⟩
  | .txnRMWBitsReq t c a x y => ⟨.frame, Transaction.wire ⟨t, TxnKind.rmwBits.code, requestInfo, c, a, [x, y]⟩⟩
  | .txnRMWSumReq t c a x => ⟨.frame, Transaction.wire ⟨t, TxnKind.rmwSum.code, requestInfo, c, a, [x]⟩⟩
  | .txnCfgReadReq t c a => ⟨.frame, Transaction.wire ⟨t, TxnKind.cfgRead.code, requestInfo, c, a, []⟩⟩
  | .txnCfgWriteReq t c a ps => ⟨.frame, Transaction.wire ⟨t, TxnKind.cfgWrite.code, requestInfo, c, a, ps⟩⟩
  | .txnReadRsp t c i a ps => ⟨.frame, Transaction.wire ⟨t, TxnKind.read.code, i, c, a, ps⟩⟩
  | .txnWriteRsp t c i a => ⟨.frame, Transaction.wire ⟨t, TxnKind.write.code, i, c, a, []⟩⟩
  | .txnNIReadRsp t c i a ps => ⟨.frame, Transaction.wire ⟨t, TxnKind.niRead.code, i, c, a, ps⟩⟩
  | .txnNIWriteRsp t c i a => ⟨.frame, Transaction.wire ⟨t, TxnKind.niWrite.code, i, c, a, []⟩⟩
  | .txnRMWBitsRsp t c i a x => ⟨.frame, Transaction.wire ⟨t, TxnKind.rmwBits.code, i, c, a, [x]⟩⟩
  | .txnRMWSumRsp t c i a x => ⟨.frame, Transaction.wire ⟨t, TxnKind.rmwSum.code, i, c, a, [x]⟩⟩
  | .txnCfgReadRsp t c i a ps => ⟨.frame, Transaction.wire ⟨t, TxnKind.cfgRead.code, i, c, a, ps⟩⟩
  | .txnCfgWriteRsp t c i a => ⟨.frame, Transaction.wire ⟨t, TxnKind.cfgWrite.code, i, c, a, []⟩⟩

/-! ### The opcode table's own numbering -/

/-- The channel of a 32-bit table word that stands without its context. Every word with a packet type of 0, 1 or 2 also
matches a transaction row, so the word alone does not say; it is read as a packet header when its marker is 0xF ("always
0xF for control packets"), or when it is 0 and the type is status or re-send (log 7). -/
def bareWordChannel (w : Word) : Channel :=
  let f := pktFields w
  if f.packetType.toNat ≤ 2 ∧ (f.byteOrder = bigEndianMarker ∨ (f.byteOrder = 0 ∧ f.packetType ≠ controlType)) then .packet
  else .frame

/-- The bytes a transaction header of these fields needs after it, all zero: the base address and 0 to 255 payload
words. -/
def zeroOperandBytes : Nat := 4 + 4 * maxPayloadWords

/-- A table word as a request: one byte is a command code with zero operands after it; four bytes are a wire word,
big-endian, with zero words after it as long as its frame (a status packet is 16 words, R71). The rows have no other
width. -/
def tableRequest (nbits w : Nat) : Option Request :=
  if nbits = 8 then
    let bytes := BitVec.ofNat 8 w :: List.replicate 16 (0 : Byte)
    match readCommand bytes with
    | .ok (_, rest) => some ⟨.command, bytes.take (bytes.length - rest.length)⟩
    | .error _ => some ⟨.command, [BitVec.ofNat 8 w]⟩
  else if nbits = 32 then
    let word : Word := BitVec.ofNat 32 w
    match bareWordChannel word with
    | .packet =>
      if (pktFields word).packetType = statusType then
        some ⟨.packet, be32 word ++ List.replicate (statusPacketBytes - 4) 0⟩
      else some ⟨.packet, be32 word⟩
    | _ =>
      some ⟨.frame, be32 word ++ List.replicate zeroOperandBytes 0⟩
  else none

/-- The instruction the decoder reads from an instruction of the opcode table given by its bits (`nbits` of them, bit 0
least significant), operand words all zero. -/
def decodeTableWord (nbits w : Nat) : Option Instr :=
  match tableRequest nbits w with
  | none => none
  | some r =>
    match decode r with
    | .ok i => some i
    | .error _ => none

end Sys2Proof
end

