-- ==== Sys2Proof/Machine/State.lean ====
section
/-! DEFINITION. The state of one block (R20 to R32, R240), its configuration (R10, R28) and its ports (D1), as plain data;
the results and failures it answers with (R15, R210); the reasons a step can stop. -/

namespace Sys2Proof.Machine

/-- The results of a successful operation: one constructor per shape of the rules' *Results* lists. -/
inductive Results where
  /-- PID_SET, PID_RESET, TID_SET, TID_RESET (R122, R123, R126, R127). -/
  | none
  /-- The header word of ENC_PKT_HDR and ENC_TXN_HDR (R101, R102). -/
  | header (hdr : Word)
  /-- DEC_PKT_HDR (R103). -/
  | pktFields (f : PktFields)
  /-- DEC_TXN_HDR (R104). -/
  | txnFields (f : TxnFields)
  /-- PID_GET, PID_INC (R121, R124). -/
  | packetID (v : PacketId)
  /-- TID_GET, TID_INC (R125, R128). -/
  | transactionID (v : TxnId)
  /-- TXN_ENCODE (R149). -/
  | encodedTxn (tx : List Byte) (T : Transaction)
  /-- TXN_DECODE (R150). -/
  | decodedTxn (T : Transaction) (used : Nat)
  /-- PKT_ENCODE and the BUILD operations (R171, R198). -/
  | encodedPkt (tx : List Byte) (P : ControlPacket)
  /-- PKT_DECODE (R172). -/
  | decodedPkt (P : ControlPacket)
  /-- DECODE_RESPONSE (R197). -/
  | response (T : Transaction) (packetID : PacketId) (used : Nat)
  deriving DecidableEq, Repr

/-- "An operation ends in exactly one of two ways: success with its results, or failure with one kind" (R210). -/
inductive Response where
  | success (r : Results)
  | failure (k : FailureKind)
  deriving DecidableEq, Repr

/-- What the host does to the block: issue a request, or assert hardware reset (R17, R240). -/
inductive Event where
  | request (r : Request)
  | hardwareReset
  deriving DecidableEq, Repr

/-- The state. -/
structure State where
  /-- `PID`, the packet ID of the next packet header (R21). -/
  pid : PacketId
  /-- `TID`, the transaction ID of the next transaction header (R22). -/
  tid : TxnId
  /-- `MAX_TXN`, fixed when the block is made (R10, R28); written by no step. -/
  config : Config
  /-- The host's events the block has not taken yet, oldest first: the single command stream (R16, R52; log 4). -/
  input : List Event
  /-- The answers of the operations run so far, oldest first (R256; log 5); read by no operation. -/
  outcome : List Response
  deriving DecidableEq, Repr

/-- The state after hardware reset: `PID = 0x0000`, `TID = 0x000` (R30, R240). `MAX_TXN = 183` is a DESIGN CHOICE (log 3),
as are the two empty ports (logs 4 and 5). -/
def State.reset : State where
  pid := 0
  tid := 0
  config := ⟨183⟩
  input := []
  outcome := []

/-- The machine stops with a fault: never. "The block never halts, never locks up and never needs a reset because of a
failure" (R210), and every operation terminates (R229), so there is no reason to list. -/
inductive Fault where
  deriving DecidableEq, Repr

/-- A request the spec gives no meaning: "the block defines no behaviour, and a model refuses" (R233). All are safe: the
model stops where the hardware may do anything. -/
inductive Refusal where
  /-- Raised by `exec`'s arm of an instruction that has no meaning yet; no arm raises it now. Safe. -/
  | notModelled (mnemonic : String)
  /-- Raised by `step`: the bytes of a request are no command (a code outside the table, an operand outside its type, an
  image of the wrong length; R76, R233, U12). Safe. -/
  | noCommand (e : DecodeError)
  /-- Raised by TXN_ENCODE and PKT_ENCODE: a descriptor that is not well formed (R141, R233, U2). Safe. -/
  | illFormedDescriptor
  /-- Raised by BUILD_WRITE and BUILD_NIWRITE: more than 255 payload words (R106, R233, U1). Safe. -/
  | payloadTooLong
  /-- Raised by the frame rows on operands that are no frame of the row (a payload of another length than the header
  says, or the request mark in a response); no bytes decode to such operands (R67, R68). Safe. -/
  | notAFrame
  deriving DecidableEq, Repr

/-- What a step answers. -/
abbrev Result := Host.Outcome State Fault Refusal

end Sys2Proof.Machine
end

