-- ==== Sys2Proof/Machine/Flags.lean ====
section
/-! DEFINITION. The block has no flags, condition codes or sticky error bits (R25). What it has in their place is the status
code that goes out with each answer (R211), computed here. -/

namespace Sys2Proof.Machine

/-- The numeric code of a failure kind (R211, D3). -/
def failureCode : FailureKind → Nat
  | .protocolVersionMismatch => 1
  | .unsupportedTransactionType => 2
  | .bufferTooSmall => 3
  | .packetTooLarge => 4
  | .sequenceGap => 5
  | .truncatedInput => 6
  | .counterExhaustion => 7
  | .badPacketType => 8

/-- The status code of an answer: 0 means success (R211). -/
def statusCode : Response → Nat
  | .success _ => 0
  | .failure k => failureCode k

end Sys2Proof.Machine
end

