-- ==== Sys2Proof/Machine/Ops.lean ====
section
/-! DEFINITION. The shared operations: register access and the counter steps (R21, R22, R129), answering with results or with
a failure (R210, R214), building headers (R101, R102), emitting and parsing transactions and packets (R149, R150, R171,
R172), taking the host's events (R17, R240). -/

namespace Sys2Proof.Machine

/-! ### Registers -/

/-- `inc16(v)` (R14, R129). -/
def inc16 (v : PacketId) : PacketId := if v = 0xFFFF then 0 else v + 1

/-- `inc12(v)` (R14, R129). -/
def inc12 (v : TxnId) : TxnId := if v = 0xFFF then 0 else v + 1

/-- Read of `PID`. -/
def readPid (s : State) : PacketId := s.pid

/-- Read of `TID`. -/
def readTid (s : State) : TxnId := s.tid

/-- `PID <- v`. -/
def writePid (v : PacketId) (s : State) : State := { s with pid := v }

/-- `TID <- v`. -/
def writeTid (v : TxnId) (s : State) : State := { s with tid := v }

/-! ### Answers -/

/-- The answer goes out on the response port: the newest entry of the run's outcome (R256). -/
def respond (r : Response) (s : State) : State := { s with outcome := s.outcome ++ [r] }

/-- `return v`: the operation ends successfully (R14). -/
def succeed (r : Results) (s : State) : Result := .next (respond (.success r) s)

/-- `fail K`, the taking of a failure, shared by every operation (R214): no byte is delivered, the registers keep their
values, the kind alone is returned, nothing is recorded in the block; control stays with the host. There is nothing to
return from (R222). -/
def failWith (k : FailureKind) (s : State) : Result := .next (respond (.failure k) s)

/-- The end of a decoding operation, which reads and writes no register (R48). -/
def answer (r : Except FailureKind Results) (s : State) : Result :=
  match r with
  | .ok v => succeed v s
  | .error k => failWith k s

/-! ### Building headers -/

/-- ENC_PKT_HDR's read, compose, advance, indivisible (R55, R101). -/
def buildPktHdr (byteOrder packetType : Nibble) (s : State) : Word × State :=
  (assemblePktHdr 0 (readPid s) byteOrder packetType, writePid (inc16 (readPid s)) s)

/-- ENC_TXN_HDR's read, compose, advance, indivisible; the info code is always 0xF (R55, R102). -/
def buildTxnHdr (typeID : Nibble) (wordCount : Count) (s : State) : Word × State :=
  (assembleTxnHdr (readTid s) wordCount typeID requestInfo, writeTid (inc12 (readTid s)) s)

/-! ### Encoding -/

/-- What an emission gives: bytes, transactions as encoded, the state after. -/
structure Emission where
  bytes : List Byte
  transactions : List Transaction
  state : State
  deriving DecidableEq, Repr

/-- The emitting part of TXN_ENCODE (R149). -/
def emitTxn (q : Descriptor) (s : State) : Emission :=
  let h := buildTxnHdr q.typeID q.wordCount s
  ⟨be32 h.1 ++ be32 q.baseAddress ++ be32s q.payload, [q.transaction (readTid s)], h.2⟩

/-- The loop of PKT_ENCODE: each request in sequence order (R171, R175). -/
def emitTxns : List Descriptor → State → Emission
  | [], s => ⟨[], [], s⟩
  | q :: qs, s =>
    let e := emitTxn q s
    let rest := emitTxns qs e.state
    ⟨e.bytes ++ rest.bytes, e.transactions ++ rest.transactions, rest.state⟩

/-- TXN_ENCODE of one descriptor (R149): the precondition, then the checks in priority order, then the emission. -/
def encodeTxn (q : Descriptor) (cap : Nat) (s : State) : Result :=
  if !q.presentable then .refused .illFormedDescriptor
  else if !q.supported then failWith .unsupportedTransactionType s
  else if cap < q.bytes then failWith .bufferTooSmall s
  else
    let e := emitTxn q s
    succeed (.encodedTxn e.bytes (q.transaction (readTid s))) e.state

/-- The checks of PKT_ENCODE in priority order (R171, R221): the failure, if any. -/
def packetCheck (qs : List Descriptor) (cap maxTxn : Nat) : Option FailureKind :=
  if qs.any fun q => !q.supported then some .unsupportedTransactionType
  else if maxTxn < qs.length then some .packetTooLarge
  else if mtuBytes < packetBytes qs then some .packetTooLarge
  else if cap < packetBytes qs then some .bufferTooSmall
  else none

/-- PKT_ENCODE of a sequence of descriptors (R171). -/
def encodePacket (qs : List Descriptor) (cap : Nat) (s : State) : Result :=
  if !qs.all Descriptor.presentable then .refused .illFormedDescriptor
  else
    match packetCheck qs cap s.config.maxTxn with
    | some k => failWith k s
    | none =>
      let p := readPid s
      let h := buildPktHdr bigEndianMarker controlType s
      let e := emitTxns qs h.2
      succeed (.encodedPkt (be32 h.1 ++ e.bytes) ⟨⟨protocolVersion, 0, p, bigEndianMarker, controlType⟩, e.transactions⟩)
        e.state

/-! ### Decoding -/

/-- `parse_txn(rx, off)`: the Transaction and the offset after its frame (R150). -/
def parseTxn (rx : List Byte) (off : Nat) : Except FailureKind (Transaction × Nat) :=
  match rxWord rx off with
  | none => .error .truncatedInput
  | some w =>
    let f := txnFields w
    if f.version ≠ protocolVersion then .error .protocolVersionMismatch
    else
      match TxnKind.ofCode f.typeID with
      | none => .error .unsupportedTransactionType
      | some kind =>
        match rxWord rx (off + 4) with
        | none => .error .truncatedInput
        | some addr =>
          match rxWords rx (off + 8) (paylen kind f.infoCode f.wordCount) with
          | none => .error .truncatedInput
          | some ps =>
            .ok (⟨f.transactionID, f.typeID, f.infoCode, f.wordCount, addr, ps⟩, off + frameBytes ps.length)

/-- The loop of PKT_DECODE: transactions until the buffer is exhausted (R172). Each pass advances the offset by at least 8,
so `rx.length` passes are enough and the last line is never reached from there (R229). -/
def parseTxns (rx : List Byte) : Nat → Nat → Except FailureKind (List Transaction)
  | off, passes =>
    if rx.length ≤ off then .ok []
    else
      match passes with
      | 0 => .error .truncatedInput
      | passes + 1 =>
        match parseTxn rx off with
        | .error k => .error k
        | .ok (T, off') => (parseTxns rx off' passes).map (T :: ·)

/-- The header checks of PKT_DECODE and DECODE_RESPONSE in priority order: the header's fields (R172, R197). -/
def parsePktHdr (rx : List Byte) : Except FailureKind PktFields :=
  match rxWord rx 0 with
  | none => .error .truncatedInput
  | some w =>
    let f := pktFields w
    if f.version ≠ protocolVersion then .error .protocolVersionMismatch
    else if f.packetType ≠ controlType then .error .badPacketType
    else .ok f

/-- TXN_DECODE (R150). -/
def decodeTxn (rx : List Byte) : Except FailureKind Results :=
  (parseTxn rx 0).map fun (T, next) => .decodedTxn T next

/-- PKT_DECODE (R172). -/
def decodePkt (rx : List Byte) : Except FailureKind Results :=
  match parsePktHdr rx with
  | .error k => .error k
  | .ok f => (parseTxns rx 4 rx.length).map fun Ts => .decodedPkt ⟨f, Ts⟩

/-- DECODE_RESPONSE (R197). -/
def decodeFirst (rx : List Byte) : Except FailureKind Results :=
  match parsePktHdr rx with
  | .error k => .error k
  | .ok f => (parseTxn rx 4).map fun (T, next) => .response T f.packetID next

/-! ### Wire rows -/

/-- A transaction frame handed to the block: what TXN_DECODE returns for it (R150, R67; log 1). -/
def receiveFrame (T : Transaction) (s : State) : Result :=
  if T.valid then succeed (.decodedTxn T (frameBytes T.payload.length)) s else .refused .notAFrame

/-- A request frame of a kind. -/
def receiveRequest (kind : TxnKind) (t : TxnId) (c : Count) (a : Word) (ps : List Word) (s : State) : Result :=
  receiveFrame ⟨t, kind.code, requestInfo, c, a, ps⟩ s

/-- A response frame of a kind: the info code is not the request mark (R65). -/
def receiveResponse (kind : TxnKind) (t : TxnId) (c : Count) (i : Nibble) (a : Word) (ps : List Word) (s : State) : Result :=
  if isResponse i then receiveFrame ⟨t, kind.code, i, c, a, ps⟩ s else .refused .notAFrame

/-! ### The host's events -/

/-- The event the block takes next leaves the command stream (R52). -/
def takeEvent (s : State) : State := { s with input := s.input.tail }

/-- Hardware reset: as PID_RESET followed by TID_RESET (R240). -/
def hardwareReset (s : State) : State := writeTid 0 (writePid 0 s)

/-- A request whose bytes decode to no instruction: wire bytes get the failure the parser reports (R150, R172), anything
else is refused (R233). -/
def rejectRequest (e : DecodeError) (s : State) : Result :=
  match e with
  | .wire k => failWith k s
  | e => .refused (.noCommand e)

end Sys2Proof.Machine
end

