-- ==== Sys2Proof/Machine/Boundary.lean ====
section
/-! DEFINITION. The boundary operations (R190 to R198): each BUILD operation is PKT_ENCODE of one constructor's descriptor. -/

namespace Sys2Proof.Machine

/-- BUILD_READ (R191). -/
def execBuildRead (addr : Word) (size : Count) (cap : Nat) (s : State) : Result := encodePacket [readRequest addr size] cap s

/-- BUILD_WRITE; more than 255 words have no meaning (R192, R106). -/
def execBuildWrite (addr : Word) (data : List Word) (cap : Nat) (s : State) : Result :=
  if maxPayloadWords < data.length then .refused .payloadTooLong else encodePacket [writeRequest addr data] cap s

/-- BUILD_NIREAD (R193). -/
def execBuildNIRead (addr : Word) (size : Count) (cap : Nat) (s : State) : Result :=
  encodePacket [niReadRequest addr size] cap s

/-- BUILD_NIWRITE; more than 255 words have no meaning (R194, R106). -/
def execBuildNIWrite (addr : Word) (data : List Word) (cap : Nat) (s : State) : Result :=
  if maxPayloadWords < data.length then .refused .payloadTooLong else encodePacket [niWriteRequest addr data] cap s

/-- BUILD_RMWBITS (R195). -/
def execBuildRMWBits (addr andTerm orTerm : Word) (cap : Nat) (s : State) : Result :=
  encodePacket [rmwBitsRequest addr andTerm orTerm] cap s

/-- BUILD_RMWSUM (R196). -/
def execBuildRMWSum (addr addend : Word) (cap : Nat) (s : State) : Result := encodePacket [rmwSumRequest addr addend] cap s

/-- DECODE_RESPONSE (R197). -/
def execDecodeResponse (rx : List Byte) (s : State) : Result := answer (decodeFirst rx) s

end Sys2Proof.Machine
end

