-- ==== Sys2Proof/Machine/Counters.lean ====
section
/-! DEFINITION. The sequence counters: get, set, reset and increment of `PID` and of `TID` (R120 to R132). -/

namespace Sys2Proof.Machine

/-- PID_GET (R121). -/
def execPidGet (s : State) : Result := succeed (.packetID (readPid s)) s

/-- PID_SET (R122). -/
def execPidSet (value : PacketId) (s : State) : Result := succeed .none (writePid value s)

/-- PID_RESET (R123). -/
def execPidReset (s : State) : Result := succeed .none (writePid 0 s)

/-- PID_INC returns the new value (R124). -/
def execPidInc (s : State) : Result :=
  let s' := writePid (inc16 (readPid s)) s
  succeed (.packetID (readPid s')) s'

/-- TID_GET (R125). -/
def execTidGet (s : State) : Result := succeed (.transactionID (readTid s)) s

/-- TID_SET (R126). -/
def execTidSet (value : TxnId) (s : State) : Result := succeed .none (writeTid value s)

/-- TID_RESET (R127). -/
def execTidReset (s : State) : Result := succeed .none (writeTid 0 s)

/-- TID_INC returns the new value (R128). -/
def execTidInc (s : State) : Result :=
  let s' := writeTid (inc12 (readTid s)) s
  succeed (.transactionID (readTid s')) s'

end Sys2Proof.Machine
end

