-- ==== Sys2Proof/Machine/HeaderCodec.lean ====
section
/-! DEFINITION. The header codec: ENC_PKT_HDR, ENC_TXN_HDR, DEC_PKT_HDR, DEC_TXN_HDR (R100 to R106). -/

namespace Sys2Proof.Machine

/-- ENC_PKT_HDR: the header carries `PID` as it was, then `PID` advances, for every packet type (R101, R250). -/
def execEncPktHdr (byteOrder packetType : Nibble) (s : State) : Result :=
  let h := buildPktHdr byteOrder packetType s
  succeed (.header h.1) h.2

/-- ENC_TXN_HDR: any 4-bit type is packed, the info code is 0xF (R102). -/
def execEncTxnHdr (typeID : Nibble) (wordCount : Count) (s : State) : Result :=
  let h := buildTxnHdr typeID wordCount s
  succeed (.header h.1) h.2

/-- DEC_PKT_HDR: only the version is validated (R103). -/
def execDecPktHdr (w : Word) (s : State) : Result :=
  if (pktFields w).version ≠ protocolVersion then failWith .protocolVersionMismatch s
  else succeed (.pktFields (pktFields w)) s

/-- DEC_TXN_HDR: only the version is validated (R104). -/
def execDecTxnHdr (w : Word) (s : State) : Result :=
  if (txnFields w).version ≠ protocolVersion then failWith .protocolVersionMismatch s
  else succeed (.txnFields (txnFields w)) s

end Sys2Proof.Machine
end

