-- ==== Sys2Proof/Machine/PacketModel.lean ====
section
/-! DEFINITION. The control-packet model: PKT_ENCODE and PKT_DECODE (R171, R172). -/

namespace Sys2Proof.Machine

/-- PKT_ENCODE (R171). -/
def execPktEncode (qs : List Descriptor) (cap : Nat) (s : State) : Result := encodePacket qs cap s

/-- PKT_DECODE (R172). -/
def execPktDecode (rx : List Byte) (s : State) : Result := answer (decodePkt rx) s

end Sys2Proof.Machine
end

