-- ==== Sys2Proof/Machine/TransactionModel.lean ====
section
/-! DEFINITION. The transaction model: TXN_ENCODE and TXN_DECODE (R149, R150). -/

namespace Sys2Proof.Machine

/-- TXN_ENCODE (R149). -/
def execTxnEncode (q : Descriptor) (cap : Nat) (s : State) : Result := encodeTxn q cap s

/-- TXN_DECODE (R150). -/
def execTxnDecode (rx : List Byte) (s : State) : Result := answer (decodeTxn rx) s

end Sys2Proof.Machine
end

