-- ==== Sys2Proof/Machine/WireFrames.lean ====
section
/-! DEFINITION. The transaction-frame rows of the table (format TXN_HDR): what the block makes of a frame with this header
(R63, R67, R68, R150, R213; log 1). -/

namespace Sys2Proof.Machine

/-- TXN.READ.REQ: no payload whatever its word count (R68). -/
def execTxnReadReq (transactionID : TxnId) (wordCount : Count) (baseAddress : Word) (s : State) : Result :=
  receiveRequest .read transactionID wordCount baseAddress [] s

/-- TXN.WRITE.REQ: `wordCount` payload words (R68). -/
def execTxnWriteReq (transactionID : TxnId) (wordCount : Count) (baseAddress : Word) (payload : List Word) (s : State) : Result :=
  receiveRequest .write transactionID wordCount baseAddress payload s

/-- TXN.NIREAD.REQ: no payload whatever its word count (R68). -/
def execTxnNIReadReq (transactionID : TxnId) (wordCount : Count) (baseAddress : Word) (s : State) : Result :=
  receiveRequest .niRead transactionID wordCount baseAddress [] s

/-- TXN.NIWRITE.REQ: `wordCount` payload words (R68). -/
def execTxnNIWriteReq (transactionID : TxnId) (wordCount : Count) (baseAddress : Word) (payload : List Word) (s : State) : Result :=
  receiveRequest .niWrite transactionID wordCount baseAddress payload s

/-- TXN.RMWBITS.REQ: two payload words, AND-term first (R68). -/
def execTxnRMWBitsReq (transactionID : TxnId) (wordCount : Count) (baseAddress andTerm orTerm : Word) (s : State) : Result :=
  receiveRequest .rmwBits transactionID wordCount baseAddress [andTerm, orTerm] s

/-- TXN.RMWSUM.REQ: one payload word, the addend (R68). -/
def execTxnRMWSumReq (transactionID : TxnId) (wordCount : Count) (baseAddress addend : Word) (s : State) : Result :=
  receiveRequest .rmwSum transactionID wordCount baseAddress [addend] s

/-- TXN.CFGREAD.REQ: no payload whatever its word count (R68, D8). -/
def execTxnCfgReadReq (transactionID : TxnId) (wordCount : Count) (baseAddress : Word) (s : State) : Result :=
  receiveRequest .cfgRead transactionID wordCount baseAddress [] s

/-- TXN.CFGWRITE.REQ: `wordCount` payload words (R68, D8). -/
def execTxnCfgWriteReq (transactionID : TxnId) (wordCount : Count) (baseAddress : Word) (payload : List Word) (s : State) : Result :=
  receiveRequest .cfgWrite transactionID wordCount baseAddress payload s

/-- TXN.READ.RSP: `wordCount` payload words, whatever the info code (R68). -/
def execTxnReadRsp (transactionID : TxnId) (wordCount : Count) (infoCode : Nibble) (baseAddress : Word) (payload : List Word)
    (s : State) : Result :=
  receiveResponse .read transactionID wordCount infoCode baseAddress payload s

/-- TXN.WRITE.RSP: no payload however large its word count (R68, D9). -/
def execTxnWriteRsp (transactionID : TxnId) (wordCount : Count) (infoCode : Nibble) (baseAddress : Word) (s : State) : Result :=
  receiveResponse .write transactionID wordCount infoCode baseAddress [] s

/-- TXN.NIREAD.RSP: `wordCount` payload words, whatever the info code (R68). -/
def execTxnNIReadRsp (transactionID : TxnId) (wordCount : Count) (infoCode : Nibble) (baseAddress : Word) (payload : List Word)
    (s : State) : Result :=
  receiveResponse .niRead transactionID wordCount infoCode baseAddress payload s

/-- TXN.NIWRITE.RSP: no payload however large its word count (R68, D9). -/
def execTxnNIWriteRsp (transactionID : TxnId) (wordCount : Count) (infoCode : Nibble) (baseAddress : Word) (s : State) : Result :=
  receiveResponse .niWrite transactionID wordCount infoCode baseAddress [] s

/-- TXN.RMWBITS.RSP: one payload word (R68, D9). -/
def execTxnRMWBitsRsp (transactionID : TxnId) (wordCount : Count) (infoCode : Nibble) (baseAddress value : Word) (s : State) :
    Result :=
  receiveResponse .rmwBits transactionID wordCount infoCode baseAddress [value] s

/-- TXN.RMWSUM.RSP: one payload word (R68, D9). -/
def execTxnRMWSumRsp (transactionID : TxnId) (wordCount : Count) (infoCode : Nibble) (baseAddress value : Word) (s : State) :
    Result :=
  receiveResponse .rmwSum transactionID wordCount infoCode baseAddress [value] s

/-- TXN.CFGREAD.RSP: `wordCount` payload words, whatever the info code (R68). -/
def execTxnCfgReadRsp (transactionID : TxnId) (wordCount : Count) (infoCode : Nibble) (baseAddress : Word) (payload : List Word)
    (s : State) : Result :=
  receiveResponse .cfgRead transactionID wordCount infoCode baseAddress payload s

/-- TXN.CFGWRITE.RSP: no payload however large its word count (R68, D9). -/
def execTxnCfgWriteRsp (transactionID : TxnId) (wordCount : Count) (infoCode : Nibble) (baseAddress : Word) (s : State) : Result :=
  receiveResponse .cfgWrite transactionID wordCount infoCode baseAddress [] s

/-- TXN.UNSUPPORTED: a type ID of 8 to 15 has no frame length; the parse fails on it (R213). -/
def execTxnUnsupported (_transactionID : TxnId) (_wordCount : Count) (_typeLow : BitVec 3) (_infoCode : Nibble) (s : State) :
    Result :=
  failWith .unsupportedTransactionType s

end Sys2Proof.Machine
end

