-- ==== Sys2Proof/Machine/WirePackets.lean ====
section
/-! DEFINITION. The packet rows of the table (format PKT_HDR): what the block makes of a packet with this head word (R69, R71,
R72, R172, R220; log 1). -/

namespace Sys2Proof.Machine

/-- PKT_HDR.CONTROL: the header fields as read and the transactions of the body in wire order (R69, R172). -/
def execPktHdrControl (rsvd : Nibble) (packetID : PacketId) (byteOrder : Nibble) (body : List Byte) (s : State) : Result :=
  answer ((parseTxns body 0 body.length).map fun Ts =>
    .decodedPkt ⟨⟨protocolVersion, rsvd, packetID, byteOrder, controlType⟩, Ts⟩) s

/-- PKT_HDR.STATUS: a valid packet but no control packet; nothing of it is examined (R71, R220). -/
def execPktHdrStatus (_rsvd : Nibble) (_packetID : PacketId) (_byteOrder : Nibble) (_body : List Byte) (s : State) :
    Result :=
  failWith .badPacketType s

/-- PKT_HDR.RESEND: a valid packet but no control packet; nothing of it is examined (R72, R220). -/
def execPktHdrResend (_rsvd : Nibble) (_packetID : PacketId) (_byteOrder : Nibble) (_body : List Byte) (s : State) :
    Result :=
  failWith .badPacketType s

end Sys2Proof.Machine
end

