-- ==== Sys2Proof/Machine/Dispatch.lean ====
section
/-! DEFINITION. One arm per instruction, one direct call of its meaning. -/

namespace Sys2Proof.Machine

def exec (i : Instr) (s : State) : Host.Outcome State Fault Refusal :=
  match i with
  | .encPktHdr byteOrder packetType => Sys2Proof.Machine.execEncPktHdr byteOrder packetType s
  | .encTxnHdr typeID wordCount => Sys2Proof.Machine.execEncTxnHdr typeID wordCount s
  | .decPktHdr w => Sys2Proof.Machine.execDecPktHdr w s
  | .decTxnHdr w => Sys2Proof.Machine.execDecTxnHdr w s
  | .pidGet => Sys2Proof.Machine.execPidGet s
  | .pidSet value => Sys2Proof.Machine.execPidSet value s
  | .pidReset => Sys2Proof.Machine.execPidReset s
  | .pidInc => Sys2Proof.Machine.execPidInc s
  | .tidGet => Sys2Proof.Machine.execTidGet s
  | .tidSet value => Sys2Proof.Machine.execTidSet value s
  | .tidReset => Sys2Proof.Machine.execTidReset s
  | .tidInc => Sys2Proof.Machine.execTidInc s
  | .txnEncode q cap => Sys2Proof.Machine.execTxnEncode q cap s
  | .txnDecode rx => Sys2Proof.Machine.execTxnDecode rx s
  | .pktEncode qs cap => Sys2Proof.Machine.execPktEncode qs cap s
  | .pktDecode rx => Sys2Proof.Machine.execPktDecode rx s
  | .buildRead addr size cap => Sys2Proof.Machine.execBuildRead addr size cap s
  | .buildWrite addr data cap => Sys2Proof.Machine.execBuildWrite addr data cap s
  | .buildNIRead addr size cap => Sys2Proof.Machine.execBuildNIRead addr size cap s
  | .buildNIWrite addr data cap => Sys2Proof.Machine.execBuildNIWrite addr data cap s
  | .buildRMWBits addr andTerm orTerm cap => Sys2Proof.Machine.execBuildRMWBits addr andTerm orTerm cap s
  | .buildRMWSum addr addend cap => Sys2Proof.Machine.execBuildRMWSum addr addend cap s
  | .decodeResponse rx => Sys2Proof.Machine.execDecodeResponse rx s
  | .pktHdrControl rsvd packetID byteOrder body => Sys2Proof.Machine.execPktHdrControl rsvd packetID byteOrder body s
  | .pktHdrStatus rsvd packetID byteOrder body => Sys2Proof.Machine.execPktHdrStatus rsvd packetID byteOrder body s
  | .pktHdrResend rsvd packetID byteOrder body => Sys2Proof.Machine.execPktHdrResend rsvd packetID byteOrder body s
  | .txnReadReq transactionID wordCount baseAddress => Sys2Proof.Machine.execTxnReadReq transactionID wordCount baseAddress s
  | .txnWriteReq transactionID wordCount baseAddress payload => Sys2Proof.Machine.execTxnWriteReq transactionID wordCount baseAddress payload s
  | .txnNIReadReq transactionID wordCount baseAddress => Sys2Proof.Machine.execTxnNIReadReq transactionID wordCount baseAddress s
  | .txnNIWriteReq transactionID wordCount baseAddress payload => Sys2Proof.Machine.execTxnNIWriteReq transactionID wordCount baseAddress payload s
  | .txnRMWBitsReq transactionID wordCount baseAddress andTerm orTerm => Sys2Proof.Machine.execTxnRMWBitsReq transactionID wordCount baseAddress andTerm orTerm s
  | .txnRMWSumReq transactionID wordCount baseAddress addend => Sys2Proof.Machine.execTxnRMWSumReq transactionID wordCount baseAddress addend s
  | .txnCfgReadReq transactionID wordCount baseAddress => Sys2Proof.Machine.execTxnCfgReadReq transactionID wordCount baseAddress s
  | .txnCfgWriteReq transactionID wordCount baseAddress payload => Sys2Proof.Machine.execTxnCfgWriteReq transactionID wordCount baseAddress payload s
  | .txnReadRsp transactionID wordCount infoCode baseAddress payload => Sys2Proof.Machine.execTxnReadRsp transactionID wordCount infoCode baseAddress payload s
  | .txnWriteRsp transactionID wordCount infoCode baseAddress => Sys2Proof.Machine.execTxnWriteRsp transactionID wordCount infoCode baseAddress s
  | .txnNIReadRsp transactionID wordCount infoCode baseAddress payload => Sys2Proof.Machine.execTxnNIReadRsp transactionID wordCount infoCode baseAddress payload s
  | .txnNIWriteRsp transactionID wordCount infoCode baseAddress => Sys2Proof.Machine.execTxnNIWriteRsp transactionID wordCount infoCode baseAddress s
  | .txnRMWBitsRsp transactionID wordCount infoCode baseAddress value => Sys2Proof.Machine.execTxnRMWBitsRsp transactionID wordCount infoCode baseAddress value s
  | .txnRMWSumRsp transactionID wordCount infoCode baseAddress value => Sys2Proof.Machine.execTxnRMWSumRsp transactionID wordCount infoCode baseAddress value s
  | .txnCfgReadRsp transactionID wordCount infoCode baseAddress payload => Sys2Proof.Machine.execTxnCfgReadRsp transactionID wordCount infoCode baseAddress payload s
  | .txnCfgWriteRsp transactionID wordCount infoCode baseAddress => Sys2Proof.Machine.execTxnCfgWriteRsp transactionID wordCount infoCode baseAddress s
  | .txnUnsupported transactionID wordCount typeLow infoCode => Sys2Proof.Machine.execTxnUnsupported transactionID wordCount typeLow infoCode s

end Sys2Proof.Machine
end

