-- ==== Sys2Proof/Machine/Step.lean ====
section
/-! DEFINITION. One step: the block takes the host's next event and does the whole of it (R16, R52, R255). -/

namespace Sys2Proof.Machine

/-- One step. With no event the block is idle (R17). Otherwise the oldest event is taken: a hardware reset, which stands
between operations (R240), or a request, whose bytes are decoded and whose instruction is executed. -/
def step (s : State) : Host.Outcome State Fault Refusal :=
  match s.input with
  | [] => .next s
  | .hardwareReset :: _ => .next (hardwareReset (takeEvent s))
  | .request r :: _ =>
    match decode r with
    | .ok i => exec i (takeEvent s)
    | .error e => rejectRequest e (takeEvent s)

/-- The state in which the very next step takes this instruction of the opcode table: the host has issued it (log 4). -/
def State.withFetchWord (s : State) (nbits w : Nat) : State :=
  match tableRequest nbits w with
  | none => s
  | some r => { s with input := .request r :: s.input }

end Sys2Proof.Machine
end

