-- ==== Sys2Proof/Machine/System.lean ====
section
/-! DEFINITION. Several blocks side by side, one per remote target: each has its own state and none sees another (R31, R132,
R230). -/

namespace Sys2Proof.Machine

/-- The blocks of a system, by position. -/
structure System where
  blocks : List State
  deriving DecidableEq, Repr

/-- One step of the block at position `k`; a position without a block has nothing to do. -/
def System.step (k : Nat) (S : System) : Host.Outcome System Fault Refusal :=
  match S.blocks[k]? with
  | none => .next S
  | some s =>
    match Machine.step s with
    | .next t => .next ⟨S.blocks.set k t⟩
    | .fault f => .fault f
    | .refused r => .refused r

/-- The steps of a schedule: a list of the positions whose turn it is, in time order. -/
def System.run : List Nat → System → Host.Outcome System Fault Refusal
  | [], S => .next S
  | k :: ks, S =>
    match S.step k with
    | .next S' => System.run ks S'
    | .fault f => .fault f
    | .refused r => .refused r

end Sys2Proof.Machine
end

