-- ==== Sys2Proof/Safety.lean ====
section
/-! DEFINITION. The terms claims use: sequences of operations (R52, R256), what each operation does to the two counters (R29),
what a sound answer is, the invariant of a block, the target's acceptance contract (R178), the constructor calls of
R141. -/

namespace Sys2Proof.Machine

/-- A host program: the operations one after another, each from the state the one before it left (R52). -/
def execAll : List Instr → State → Host.Outcome State Fault Refusal
  | [], s => .next s
  | i :: is, s =>
    match exec i s with
    | .next t => execAll is t
    | .fault f => .fault f
    | .refused r => .refused r

/-! ### Who changes the counters (R29) -/

/-- `PID` after a successful operation: the list of R29. -/
def pidAfter (i : Instr) (p : PacketId) : PacketId :=
  match i with
  | .pidSet v => v
  | .pidReset => 0
  | .pidInc | .encPktHdr .. | .pktEncode .. | .buildRead .. | .buildWrite .. | .buildNIRead .. | .buildNIWrite ..
  | .buildRMWBits .. | .buildRMWSum .. => p + 1
  | .encTxnHdr .. | .decPktHdr .. | .decTxnHdr .. | .pidGet | .tidGet | .tidSet .. | .tidReset | .tidInc | .txnEncode ..
  | .txnDecode .. | .pktDecode .. | .decodeResponse .. | .pktHdrControl .. | .pktHdrStatus .. | .pktHdrResend ..
  | .txnReadReq .. | .txnWriteReq .. | .txnNIReadReq .. | .txnNIWriteReq .. | .txnRMWBitsReq .. | .txnRMWSumReq ..
  | .txnCfgReadReq .. | .txnCfgWriteReq .. | .txnReadRsp .. | .txnWriteRsp .. | .txnNIReadRsp .. | .txnNIWriteRsp ..
  | .txnRMWBitsRsp .. | .txnRMWSumRsp .. | .txnCfgReadRsp .. | .txnCfgWriteRsp .. | .txnUnsupported .. => p

/-- `TID` after a successful operation: the list of R29, one step per transaction header built. -/
def tidAfter (i : Instr) (t : TxnId) : TxnId :=
  match i with
  | .tidSet v => v
  | .tidReset => 0
  | .tidInc | .encTxnHdr .. | .txnEncode .. | .buildRead .. | .buildWrite .. | .buildNIRead .. | .buildNIWrite ..
  | .buildRMWBits .. | .buildRMWSum .. => t + 1
  | .pktEncode qs _ => t + BitVec.ofNat 12 qs.length
  | .encPktHdr .. | .decPktHdr .. | .decTxnHdr .. | .pidGet | .pidSet .. | .pidReset | .pidInc | .tidGet | .txnDecode ..
  | .pktDecode .. | .decodeResponse .. | .pktHdrControl .. | .pktHdrStatus .. | .pktHdrResend .. | .txnReadReq ..
  | .txnWriteReq .. | .txnNIReadReq .. | .txnNIWriteReq .. | .txnRMWBitsReq .. | .txnRMWSumReq .. | .txnCfgReadReq ..
  | .txnCfgWriteReq .. | .txnReadRsp .. | .txnWriteRsp .. | .txnNIReadRsp .. | .txnNIWriteRsp .. | .txnRMWBitsRsp ..
  | .txnRMWSumRsp .. | .txnCfgReadRsp .. | .txnCfgWriteRsp .. | .txnUnsupported .. => t

/-- The operations that use both counters: PKT_ENCODE and the BUILD operations (R29). -/
def usesBothCounters : Instr → Bool
  | .pktEncode .. | .buildRead .. | .buildWrite .. | .buildNIRead .. | .buildNIWrite .. | .buildRMWBits ..
  | .buildRMWSum .. => true
  | _ => false

/-- The operations whose only inputs are bytes they parse: the decoders and the wire rows (R48, R251). -/
def isDecoder : Instr → Bool
  | .decPktHdr .. | .decTxnHdr .. | .txnDecode .. | .pktDecode .. | .decodeResponse .. | .pktHdrControl ..
  | .pktHdrStatus .. | .pktHdrResend .. | .txnReadReq .. | .txnWriteReq .. | .txnNIReadReq .. | .txnNIWriteReq ..
  | .txnRMWBitsReq .. | .txnRMWSumReq .. | .txnCfgReadReq .. | .txnCfgWriteReq .. | .txnReadRsp .. | .txnWriteRsp ..
  | .txnNIReadRsp .. | .txnNIWriteRsp .. | .txnRMWBitsRsp .. | .txnRMWSumRsp .. | .txnCfgReadRsp ..
  | .txnCfgWriteRsp .. | .txnUnsupported .. => true
  | _ => false

/-- The capacity operand of the operations that emit bytes (R49). -/
def capacity : Instr → Option Nat
  | .txnEncode _ cap | .pktEncode _ cap | .buildRead _ _ cap | .buildWrite _ _ cap | .buildNIRead _ _ cap
  | .buildNIWrite _ _ cap | .buildRMWBits _ _ _ cap | .buildRMWSum _ _ cap => some cap
  | _ => none

/-- The bytes an answer delivers to the TX buffer: a failure delivers none (R47, R214). -/
def deliveredBytes : Response → List Byte
  | .success (.encodedTxn tx _) | .success (.encodedPkt tx _) => tx
  | _ => []

/-! ### Sound answers and the invariant -/

/-- The transaction IDs of a packet are consecutive modulo 4096, from `t` (R131, R171). -/
def consecutiveFrom : TxnId → List Transaction → Bool
  | _, [] => true
  | t, T :: Ts => T.transactionID == t && consecutiveFrom (t + 1) Ts

/-- The transactions of a packet, if any, carry consecutive IDs (R131). -/
def consecutive : List Transaction → Bool
  | [] => true
  | T :: Ts => consecutiveFrom T.transactionID (T :: Ts)

/-- A request the block has built: a valid frame whose info code is 0xF (R65, R149). -/
def isRequest (T : Transaction) : Bool := T.valid && T.infoCode == requestInfo

/-- What the spec promises of an answer, given `MAX_TXN`: bytes that are the wire form of the value returned with them
(R149, R171), at most 1472 of them and at most `MAX_TXN` transactions with consecutive IDs (R70, R131, R174), supported
frames only (R68, R213), version 2 (R61, R63), and none of the two reserved failures (R217, R218). -/
def Response.sound (maxTxn : Nat) : Response → Bool
  | .failure k => k != .sequenceGap && k != .counterExhaustion
  | .success .none | .success (.packetID _) | .success (.transactionID _) => true
  | .success (.header w) => (txnFields w).version == protocolVersion
  | .success (.pktFields f) => f.version == protocolVersion
  | .success (.txnFields f) => f.version == protocolVersion
  | .success (.encodedTxn tx T) => tx == T.wire && isRequest T && decide (tx.length ≤ mtuBytes)
  | .success (.decodedTxn T used) => T.valid && used == frameBytes T.payload.length
  | .success (.encodedPkt tx P) =>
    tx == P.wire && P.header == ⟨protocolVersion, 0, P.header.packetID, bigEndianMarker, controlType⟩
      && P.transactions.all isRequest && consecutive P.transactions && decide (P.transactions.length ≤ maxTxn)
      && decide (tx.length ≤ mtuBytes)
  | .success (.decodedPkt P) => P.valid
  | .success (.response T _ used) => T.valid && used == 4 + frameBytes T.payload.length

/-- The invariant of a block: `MAX_TXN` is in its range (R10) and every answer given so far is sound. -/
def State.Inv (s : State) : Prop := s.config.Wf ∧ ∀ r ∈ s.outcome, r.sound s.config.maxTxn = true

/-! ### The packet-ID contract with the target (R178) -/

/-- `seq_accept(last, pid)` of R178: the target's acceptance of a packet ID after the last accepted one. No operation of the
block evaluates it. What a target expects after a packet with ID 0 is in no source (N9); the formula is used at `last = 0` too,
a DESIGN CHOICE (log 18). -/
def seqAccept (last pid : PacketId) : Bool := pid == 0 || pid == inc16 last

/-- The operations that build one packet header. -/
def buildsPacket : Instr → Bool
  | .encPktHdr .. | .pktEncode .. | .buildRead .. | .buildWrite .. | .buildNIRead .. | .buildNIWrite ..
  | .buildRMWBits .. | .buildRMWSum .. => true
  | _ => false

/-- The packet ID of the header an answer carries, if it carries one. -/
def builtPacketId : Response → Option PacketId
  | .success (.header w) => some (pktFields w).packetID
  | .success (.encodedPkt _ P) => some P.header.packetID
  | _ => none

/-! ### Constructor calls (R141 to R148) -/

/-- A call of one of the eight constructors. -/
inductive RequestCall where
  | read (addr : Word) (size : Count)
  | write (addr : Word) (data : List Word)
  | niRead (addr : Word) (size : Count)
  | niWrite (addr : Word) (data : List Word)
  | rmwBits (addr andTerm orTerm : Word)
  | rmwSum (addr addend : Word)
  | cfgRead (addr : Word) (size : Count)
  | cfgWrite (addr : Word) (data : List Word)
  deriving DecidableEq, Repr

/-- The operands are of the stated types: at most 255 words of data (R143, R145, R148). -/
def RequestCall.legal : RequestCall → Bool
  | .write _ d | .niWrite _ d | .cfgWrite _ d => decide (d.length ≤ maxPayloadWords)
  | _ => true

/-- The descriptor the call returns. -/
def RequestCall.descriptor : RequestCall → Descriptor
  | .read a n => readRequest a n
  | .write a d => writeRequest a d
  | .niRead a n => niReadRequest a n
  | .niWrite a d => niWriteRequest a d
  | .rmwBits a x y => rmwBitsRequest a x y
  | .rmwSum a x => rmwSumRequest a x
  | .cfgRead a n => cfgReadRequest a n
  | .cfgWrite a d => cfgWriteRequest a d

end Sys2Proof.Machine
end

