-- ==== Sys2Proof/Certificates/Slice0/Obligations.lean ====
section
/-! DEFINITION. The statements about the block. Each quantifies over every state it is about: over every `MAX_TXN` in
`s.config`, every start value of the counters, whatever the ports hold. An equation `exec i s = .next t` says that the
instruction completes, and by `t` also its frame: every field `t` does not name is unchanged. -/

open Sys2Proof Sys2Proof.Machine

/-! ### Reset, the step, decoding -/

/-- R240, R30: both counters are 0 after hardware reset, which is taken between operations and has on the state the effect of
PID_RESET followed by TID_RESET. That `TID` is 0 is the spec's own choice (D4, log 2). That the requests still waiting and the
answers already given stay as they are over a hardware reset is the model's choice (logs 4 and 5). -/
def Obligations.HardwareResetClearsCounters : Prop :=
  State.reset.pid = 0 ∧ State.reset.tid = 0 ∧
  ∀ (s : State) (rest : List Event), s.input = .hardwareReset :: rest →
    step s = .next { s with pid := 0, tid := 0, input := rest } ∧
    ∃ t, execAll [.pidReset, .tidReset] { s with input := rest } = .next t ∧
      step s = .next { t with outcome := s.outcome }

/-- R242: PID_RESET and TID_RESET together bring any block to the reset values and leave everything else but the two answers;
and nothing else distinguishes the block from a freshly reset one with the same `MAX_TXN`: every instruction gives the same
answer and the same counters. The reset value of `TID` is decision D4 (log 2). -/
def Obligations.ResetOperationsReachResetState : Prop :=
  (∀ s : State, execAll [.pidReset, .tidReset] s =
    .next { s with pid := State.reset.pid, tid := State.reset.tid, outcome := s.outcome ++ [.success .none, .success .none] }) ∧
  ∀ (i : Instr) (s t u : State), execAll [.pidReset, .tidReset] s = .next t →
    exec i { State.reset with config := s.config } = .next u →
    ∃ (u' : State) (r : Response), exec i t = .next u' ∧ u.outcome = State.reset.outcome ++ [r] ∧
      u'.outcome = t.outcome ++ [r] ∧ u'.pid = u.pid ∧ u'.tid = u.tid

/-- The invariant holds right after reset. `MAX_TXN = 183` there is the model's choice (log 3). -/
def Obligations.ResetHoldsInvariant : Prop := State.reset.Inv

/-- A step takes the oldest event of the host and does the whole of it (R16, R52): when the bytes of a request decode to an
instruction, the step is that instruction's meaning on the state with the event taken; wire bytes the parser fails on get
that failure as their answer; bytes that are no command are refused (R233); with no event the block is idle (R17). The list
of events is the model's form (log 4), the packet and frame channels of wire bytes are its choice (log 1), and that a
refusal ends the run is too (log 9). -/
def Obligations.StepRunsDecodedInstruction : Prop :=
  (∀ (s : State) (r : Request) (rest : List Event) (i : Instr), s.input = .request r :: rest → decode r = .ok i →
    step s = exec i { s with input := rest }) ∧
  (∀ (s : State) (r : Request) (rest : List Event) (k : FailureKind), s.input = .request r :: rest →
    decode r = .error (.wire k) → step s = .next { s with input := rest, outcome := s.outcome ++ [.failure k] }) ∧
  (∀ (s : State) (r : Request) (rest : List Event) (e : DecodeError), s.input = .request r :: rest →
    decode r = .error e → (∀ k, e ≠ .wire k) → step s = .refused (.noCommand e)) ∧
  (∀ s : State, s.input = [] → step s = .next s)

/-- A few words written out from the spec's tables (R61, R63, R76) decode to the instructions they stand for. -/
def Obligations.WordsDecodeAsTheTablesSay : Prop :=
  decode ⟨.command, [0x10]⟩ = .ok .pidGet ∧
  decode ⟨.command, [0x00, 0x0F, 0x01]⟩ = .ok (.encPktHdr 0xF 0x1) ∧
  decode ⟨.packet, [0x20, 0x12, 0x34, 0xF1]⟩ = .ok (.pktHdrStatus 0x0 0x1234 0xF []) ∧
  decode ⟨.frame, [0x20, 0x01, 0x0A, 0x0F, 0x00, 0x00, 0x0E, 0xFB]⟩ = .ok (.txnReadReq 0x001 0x0A 0xEFB) ∧
  decode ⟨.frame, [0x2F, 0xFF, 0x01, 0x40, 0x00, 0x00, 0x20, 0x04, 0x12, 0x34, 0x56, 0x78]⟩ =
    .ok (.txnRMWBitsRsp 0xFFF 0x01 0x0 0x2004 0x12345678) ∧
  decode ⟨.frame, [0x20, 0x05, 0x00, 0xFF]⟩ = .ok (.txnUnsupported 0x005 0x00 7 0xF)

/-- Decode and encode agree: every well-formed instruction, with every operand at every value, is what its encoding decodes
to. The operand images of the command port are the model's own (log 6), and so is that packets and frames are instructions
(log 1). -/
def Obligations.DecodeInvertsEncode : Prop := ∀ i : Instr, i.WellFormed → decode (encode i) = .ok i

/-- Each command image and each packet has one meaning and no bit of it is dropped; of a frame's bytes the frame itself is
kept and what follows is not examined (D10). What wire bytes decode to is well formed. Command images (log 6) and the
channels of wire bytes (log 1) are the model's own. -/
def Obligations.EncodeInvertsDecode : Prop :=
  (∀ (bytes : List Byte) (i : Instr), decode ⟨.command, bytes⟩ = .ok i → encode i = ⟨.command, bytes⟩) ∧
  (∀ (bytes : List Byte) (i : Instr), decode ⟨.packet, bytes⟩ = .ok i → encode i = ⟨.packet, bytes⟩ ∧ i.WellFormed) ∧
  (∀ (bytes : List Byte) (i : Instr), decode ⟨.frame, bytes⟩ = .ok i →
    (encode i).channel = .frame ∧ (encode i).bytes <+: bytes ∧ i.WellFormed)

/-- The transaction rows of the opcode table: a word matches one exactly when its version is 2; the only words that match two
rows match the request and the response row of one kind; and the rows are tried in order, the request row first, so that a
word of version 2 is read as the request row of its kind where its info code is 0xF, as the response row of its kind where
it is not, and as the unsupported row where its type is 8 to 15 (R64, R65). -/
def Obligations.TransactionRowsOverlapOnlyAtRequests : Prop :=
  (∀ w : Word, (∃ r ∈ txnRows, w &&& r.mask = r.pattern) ↔ w.toNat / 2 ^ 28 = 2) ∧
  (∀ w : Word, ∀ r ∈ txnRows, ∀ r' ∈ txnRows, w &&& r.mask = r.pattern → w &&& r'.mask = r'.pattern →
    r = r' ∨ ∃ k : TxnKind, w.toNat % 16 = 15 ∧
      ((r.row = .request k ∧ r'.row = .response k) ∨ (r.row = .response k ∧ r'.row = .request k))) ∧
  ∀ w : Word,
    (w.toNat / 2 ^ 28 ≠ 2 → matchRow txnRows w = none) ∧
    (w.toNat / 2 ^ 28 = 2 →
      (∀ k : TxnKind, w.toNat / 16 % 16 = k.code.toNat →
        (w.toNat % 16 = 15 → matchRow txnRows w = some (.request k)) ∧
        (w.toNat % 16 ≠ 15 → matchRow txnRows w = some (.response k))) ∧
      (8 ≤ w.toNat / 16 % 16 → matchRow txnRows w = some .unsupported))

/-- A request on the command port that is no command is refused, never answered with a failure and never executed (R233, U12):
whatever bytes decode to no instruction; a code outside the table (R76, D2); an operand outside its type (D5): a 13-bit
TID_SET value, a 5-bit type ID of a header or of any descriptor of a sequence, a 5-bit byte order or packet type; an image
that ends early; an image that goes on after its last operand. The byte form of the operands is the model's own (log 6), and
that a refusal ends the run is its choice (log 9). -/
def Obligations.UnknownCommandsAndWideOperandsRefused : Prop :=
  (∀ (s : State) (bytes : List Byte) (rest : List Event), (∀ i : Instr, decode ⟨.command, bytes⟩ ≠ .ok i) →
    s.input = .request ⟨.command, bytes⟩ :: rest → ∃ e : DecodeError, step s = .refused (.noCommand e)) ∧
  (∀ (s : State) (code : Byte) (operands : List Byte) (rest : List Event), (∀ row ∈ commandTable, row.1 ≠ code) →
    s.input = .request ⟨.command, code :: operands⟩ :: rest → step s = .refused (.noCommand (.unknownCommand code))) ∧
  (∀ (s : State) (hi lo : Byte) (rest : List Event), 16 ≤ hi.toNat →
    s.input = .request ⟨.command, [0x15, hi, lo]⟩ :: rest → step s = .refused (.noCommand .operandOutsideType)) ∧
  (∀ (s : State) (y c : Byte) (rest : List Event), 16 ≤ y.toNat →
    s.input = .request ⟨.command, [0x01, y, c]⟩ :: rest → step s = .refused (.noCommand .operandOutsideType)) ∧
  (∀ (s : State) (b y : Byte) (rest : List Event), 16 ≤ b.toNat ∨ 16 ≤ y.toNat →
    s.input = .request ⟨.command, [0x00, b, y]⟩ :: rest → step s = .refused (.noCommand .operandOutsideType)) ∧
  (∀ (s : State) (y : Byte) (operands : List Byte) (rest : List Event), 16 ≤ y.toNat →
    s.input = .request ⟨.command, 0x20 :: y :: operands⟩ :: rest → step s = .refused (.noCommand .operandOutsideType)) ∧
  (∀ (s : State) (n : Nat) (qs : List Descriptor) (y : Byte) (operands : List Byte) (rest : List Event), qs.length < n →
    16 ≤ y.toNat →
    s.input = .request ⟨.command, 0x30 :: (natImage n ++ (qs.map descriptorImage).flatten ++ y :: operands)⟩ :: rest →
    step s = .refused (.noCommand .operandOutsideType)) ∧
  (∀ (s : State) (bytes extra : List Byte) (i : Instr) (rest : List Event), decode ⟨.command, bytes ++ extra⟩ = .ok i →
    extra ≠ [] → s.input = .request ⟨.command, bytes⟩ :: rest → step s = .refused (.noCommand .incompleteCommand)) ∧
  (∀ (s : State) (bytes extra : List Byte) (i : Instr) (rest : List Event), decode ⟨.command, bytes⟩ = .ok i →
    extra ≠ [] → s.input = .request ⟨.command, bytes ++ extra⟩ :: rest → step s = .refused (.noCommand .overlongCommand))

/-! ### Words and headers -/

/-- R41: a word's four bytes are its base-256 digits, most significant at the lowest index; and every byte the block delivers
is part of such a word: the packet header, each transaction header, each base address and each payload word. -/
def Obligations.WordsAreBigEndian : Prop :=
  (∀ w : Word, (be32 w).map BitVec.toNat =
    [w.toNat / 2 ^ 24, w.toNat / 2 ^ 16 % 256, w.toNat / 2 ^ 8 % 256, w.toNat % 256]) ∧
  (∀ (i : Instr) (s t : State) (tx : List Byte) (T : Transaction), exec i s = .next t →
    t.outcome = s.outcome ++ [.success (.encodedTxn tx T)] →
    tx = be32 (assembleTxnHdr T.transactionID T.wordCount T.typeID T.infoCode) ++ be32 T.baseAddress
      ++ (T.payload.map be32).flatten) ∧
  (∀ (i : Instr) (s t : State) (tx : List Byte) (P : ControlPacket), exec i s = .next t →
    t.outcome = s.outcome ++ [.success (.encodedPkt tx P)] →
    tx = be32 (assemblePktHdr P.header.rsvd P.header.packetID P.header.byteOrder P.header.packetType)
      ++ (P.transactions.map fun T => be32 (assembleTxnHdr T.transactionID T.wordCount T.typeID T.infoCode)
        ++ be32 T.baseAddress ++ (T.payload.map be32).flatten).flatten) ∧
  ∀ (i : Instr) (s t : State) (r : Response), exec i s = .next t → t.outcome = s.outcome ++ [r] →
    deliveredBytes r ≠ [] →
    (∃ tx T, r = .success (.encodedTxn tx T)) ∨ ∃ tx P, r = .success (.encodedPkt tx P)

/-- R42, R46: a big-endian word is read back wherever it stands in a buffer, as the number its bytes make, and no word is read
unless all of it lies inside. -/
def Obligations.WordsAreReadBack : Prop :=
  (∀ (pre post : List Byte) (w : Word), rxWord (pre ++ be32 w ++ post) pre.length = some w) ∧
  (∀ (rx : List Byte) (off : Nat), rxWord rx off = none ↔ rx.length < off + 4) ∧
  (∀ (rx : List Byte) (off : Nat) (w : Word), rxWord rx off = some w →
    ∃ b0 b1 b2 b3 : Byte, rx[off]? = some b0 ∧ rx[off + 1]? = some b1 ∧ rx[off + 2]? = some b2 ∧ rx[off + 3]? = some b3 ∧
      w.toNat = b0.toNat * 2 ^ 24 + b1.toNat * 2 ^ 16 + b2.toNat * 2 ^ 8 + b3.toNat)

/-- R101: the header is composed from the `PID` before the operation, in the places of R61, and `PID` advances once, wrapping
at 0xFFFF; for every byte order and every packet type, which is decision D22. -/
def Obligations.EncPktHdrComposesThenAdvances : Prop :=
  ∀ (b y : Nibble) (s : State), ∃ hdr : Word,
    exec (.encPktHdr b y) s = .next { s with
      pid := BitVec.ofNat 16 ((s.pid.toNat + 1) % 65536), outcome := s.outcome ++ [.success (.header hdr)] } ∧
    hdr.toNat = 2 * 2 ^ 28 + 0 * 2 ^ 24 + s.pid.toNat * 2 ^ 8 + b.toNat * 2 ^ 4 + y.toNat

/-- R102: the header is composed from the `TID` before the operation, in the places of R63, with info code 0xF, and `TID`
advances once, wrapping at 0xFFF; for every type ID, the unsupported ones too, which is decision D13. -/
def Obligations.EncTxnHdrComposesThenAdvances : Prop :=
  ∀ (y : Nibble) (c : Count) (s : State), ∃ hdr : Word,
    exec (.encTxnHdr y c) s = .next { s with
      tid := BitVec.ofNat 12 ((s.tid.toNat + 1) % 4096), outcome := s.outcome ++ [.success (.header hdr)] } ∧
    hdr.toNat = 2 * 2 ^ 28 + s.tid.toNat * 2 ^ 16 + c.toNat * 2 ^ 8 + y.toNat * 2 ^ 4 + 15

/-- R103: the fields of a packet header word, from the places of R61; only the version is checked (D11, D12). -/
def Obligations.DecPktHdrSlicesFields : Prop :=
  ∀ (w : Word) (s : State),
    (w.toNat / 2 ^ 28 = 2 → exec (.decPktHdr w) s = .next { s with outcome := s.outcome ++ [.success (.pktFields
      ⟨2, BitVec.ofNat 4 (w.toNat / 2 ^ 24), BitVec.ofNat 16 (w.toNat / 2 ^ 8), BitVec.ofNat 4 (w.toNat / 2 ^ 4),
        BitVec.ofNat 4 w.toNat⟩)] }) ∧
    (w.toNat / 2 ^ 28 ≠ 2 →
      exec (.decPktHdr w) s = .next { s with outcome := s.outcome ++ [.failure .protocolVersionMismatch] })

/-- R104: the fields of a transaction header word, from the places of R63; only the version is checked (D13). -/
def Obligations.DecTxnHdrSlicesFields : Prop :=
  ∀ (w : Word) (s : State),
    (w.toNat / 2 ^ 28 = 2 → exec (.decTxnHdr w) s = .next { s with outcome := s.outcome ++ [.success (.txnFields
      ⟨2, BitVec.ofNat 12 (w.toNat / 2 ^ 16), BitVec.ofNat 8 (w.toNat / 2 ^ 8), BitVec.ofNat 4 (w.toNat / 2 ^ 4),
        BitVec.ofNat 4 w.toNat⟩)] }) ∧
    (w.toNat / 2 ^ 28 ≠ 2 →
      exec (.decTxnHdr w) s = .next { s with outcome := s.outcome ++ [.failure .protocolVersionMismatch] })

/-- R105: decoding the header just built gives back the operands and the counter's value before the build, for both headers;
and a header word of version 2 is its fields assembled again. -/
def Obligations.HeaderRoundTrip : Prop :=
  (∀ (y : Nibble) (c : Count) (s : State), ∃ (hdr : Word) (t u : State),
    exec (.encTxnHdr y c) s = .next t ∧ t.outcome = s.outcome ++ [.success (.header hdr)] ∧
    exec (.decTxnHdr hdr) t = .next u ∧ u.outcome = t.outcome ++ [.success (.txnFields ⟨2, s.tid, c, y, 0xF⟩)]) ∧
  (∀ (b y : Nibble) (s : State), ∃ (hdr : Word) (t u : State),
    exec (.encPktHdr b y) s = .next t ∧ t.outcome = s.outcome ++ [.success (.header hdr)] ∧
    exec (.decPktHdr hdr) t = .next u ∧ u.outcome = t.outcome ++ [.success (.pktFields ⟨2, 0, s.pid, b, y⟩)]) ∧
  (∀ (w : Word) (f : TxnFields) (s u : State), exec (.decTxnHdr w) s = .next u →
    u.outcome = s.outcome ++ [.success (.txnFields f)] →
    assembleTxnHdr f.transactionID f.wordCount f.typeID f.infoCode = w) ∧
  (∀ (w : Word) (f : PktFields) (s u : State), exec (.decPktHdr w) s = .next u →
    u.outcome = s.outcome ++ [.success (.pktFields f)] →
    assemblePktHdr f.rsvd f.packetID f.byteOrder f.packetType = w)

/-- R43: a packet header the block composes for one of the three packet types, received in the other byte order, is rejected
by the version check (D22). -/
def Obligations.ByteSwappedHeaderRejected : Prop :=
  ∀ (p : PacketId) (y : Nibble) (s : State), y.toNat ≤ 2 → ∃ w : Word,
    be32 w = (be32 (assemblePktHdr 0 p 0xF y)).reverse ∧
    exec (.decPktHdr w) s = .next { s with outcome := s.outcome ++ [.failure .protocolVersionMismatch] } ∧
    exec (.pktDecode (be32 w)) s = .next { s with outcome := s.outcome ++ [.failure .protocolVersionMismatch] }

/-! ### Sequence counters -/

/-- R121 to R124: the four operations on `PID`. PID_GET returns the ID the next packet header will carry; PID_INC wraps at
0xFFFF, is otherwise +1, returns the new value, and is the step ENC_PKT_HDR performs after composing its header. -/
def Obligations.PidOperations : Prop :=
  ∀ s : State,
    exec .pidGet s = .next { s with outcome := s.outcome ++ [.success (.packetID s.pid)] } ∧
    (∀ v : PacketId, exec (.pidSet v) s = .next { s with pid := v, outcome := s.outcome ++ [.success .none] }) ∧
    exec .pidReset s = .next { s with pid := 0, outcome := s.outcome ++ [.success .none] } ∧
    ∃ v : PacketId, exec .pidInc s = .next { s with pid := v, outcome := s.outcome ++ [.success (.packetID v)] } ∧
      (s.pid.toNat = 0xFFFF → v.toNat = 0) ∧ (s.pid.toNat ≠ 0xFFFF → v.toNat = s.pid.toNat + 1) ∧
      ∀ b y : Nibble, ∃ hdr : Word, (pktFields hdr).packetID = s.pid ∧
        exec (.encPktHdr b y) s = .next { s with pid := v, outcome := s.outcome ++ [.success (.header hdr)] }

/-- R125 to R128: the four operations on `TID`. TID_GET returns the ID the next transaction header will carry; TID_INC wraps at
0xFFF, is otherwise +1, returns the new value, and is the step ENC_TXN_HDR performs after composing its header. -/
def Obligations.TidOperations : Prop :=
  ∀ s : State,
    exec .tidGet s = .next { s with outcome := s.outcome ++ [.success (.transactionID s.tid)] } ∧
    (∀ v : TxnId, exec (.tidSet v) s = .next { s with tid := v, outcome := s.outcome ++ [.success .none] }) ∧
    exec .tidReset s = .next { s with tid := 0, outcome := s.outcome ++ [.success .none] } ∧
    ∃ v : TxnId, exec .tidInc s = .next { s with tid := v, outcome := s.outcome ++ [.success (.transactionID v)] } ∧
      (s.tid.toNat = 0xFFF → v.toNat = 0) ∧ (s.tid.toNat ≠ 0xFFF → v.toNat = s.tid.toNat + 1) ∧
      ∀ (y : Nibble) (c : Count), ∃ hdr : Word, (txnFields hdr).transactionID = s.tid ∧
        exec (.encTxnHdr y c) s = .next { s with tid := v, outcome := s.outcome ++ [.success (.header hdr)] }

/-- R130: from any start value, 65536 PID_INC steps visit every 16-bit value exactly once and end where they began, and 4096
TID_INC steps every 12-bit value. -/
def Obligations.CountersVisitEveryValueOnce : Prop :=
  ∀ s : State,
    (∀ v : PacketId, ∃! k : Nat, k < 65536 ∧
      ∃ t, execAll (List.replicate (k + 1) .pidInc) s = .next t ∧ t.pid = v) ∧
    (∃ t, execAll (List.replicate 65536 .pidInc) s = .next t ∧ t.pid = s.pid) ∧
    (∀ v : TxnId, ∃! k : Nat, k < 4096 ∧
      ∃ t, execAll (List.replicate (k + 1) .tidInc) s = .next t ∧ t.tid = v) ∧
    (∃ t, execAll (List.replicate 4096 .tidInc) s = .next t ∧ t.tid = s.tid)

/-- R29: who changes the counters. On success each counter has the value of R29's list (`pidAfter`, `tidAfter`: one step per
header built) and one answer is added; on failure only the failure is added. Of the events of a run only such a request and
a hardware reset change a counter. An operation other than PKT_ENCODE and the BUILD operations does not write one of the two,
and takes each to the same value whatever the other is. That a failed operation changes neither is decision D6, the reset
value of `TID` decision D4; the list of events is the model's form (log 4). -/
def Obligations.OnlyListedOperationsChangeCounters : Prop :=
  (∀ (i : Instr) (s t : State), exec i s = .next t →
    (∃ r, t = { s with pid := pidAfter i s.pid, tid := tidAfter i s.tid, outcome := s.outcome ++ [.success r] }) ∨
    (∃ k, t = { s with outcome := s.outcome ++ [.failure k] })) ∧
  (∀ s t : State, step s = .next t → t.pid ≠ s.pid ∨ t.tid ≠ s.tid →
    (∃ rest, s.input = .hardwareReset :: rest ∧ t.pid = 0 ∧ t.tid = 0) ∨
    (∃ (r : Request) (rest : List Event) (i : Instr), s.input = .request r :: rest ∧ decode r = .ok i ∧
      t.pid = pidAfter i s.pid ∧ t.tid = tidAfter i s.tid)) ∧
  (∀ (i : Instr) (s t : State), usesBothCounters i = false → exec i s = .next t →
    (t.pid = s.pid ∨ t.tid = s.tid) ∧
    (∀ v : TxnId, ∃ t', exec i { s with tid := v } = .next t' ∧ t'.pid = t.pid) ∧
    (∀ v : PacketId, ∃ t', exec i { s with pid := v } = .next t' ∧ t'.tid = t.tid))

/-! ### The transaction model -/

/-- R141 to R148: what a legal constructor call returns is well formed, and every well-formed descriptor is returned by
exactly one legal call. The two configuration-space constructors are decision D8. -/
def Obligations.ConstructorsReturnWellFormedDescriptors : Prop :=
  (∀ c : RequestCall, c.legal = true → c.descriptor.wellFormed = true) ∧
  (∀ q : Descriptor, q.wellFormed = true → ∃! c : RequestCall, c.legal = true ∧ c.descriptor = q)

/-- R149, R67: TXN_ENCODE of a well-formed descriptor with room for its `8 + 4*len(payload)` bytes: header, base address and
payload words big-endian in that order, the Transaction as encoded, `TID` advanced once, `PID` not touched. -/
def Obligations.TxnEncodeEmitsFrame : Prop :=
  ∀ (q : Descriptor) (cap : Nat) (s : State), q.wellFormed = true → 8 + 4 * q.payload.length ≤ cap →
    ∃ (tx : List Byte) (T : Transaction),
      exec (.txnEncode q cap) s = .next { s with
        tid := BitVec.ofNat 12 ((s.tid.toNat + 1) % 4096), outcome := s.outcome ++ [.success (.encodedTxn tx T)] } ∧
      tx = be32 (assembleTxnHdr s.tid q.wordCount q.typeID 0xF) ++ be32 q.baseAddress ++ (q.payload.map be32).flatten ∧
      tx.length = 8 + 4 * q.payload.length ∧
      T = ⟨s.tid, q.typeID, 0xF, q.wordCount, q.baseAddress, q.payload⟩

/-- R149: where TXN_ENCODE fails, in priority order, with no register changed; and that it gives no meaning to a descriptor of
a supported type that is not well formed (U2, D25; the refusal ends the run, log 9). The order is decision D14, the unchanged
registers D6. -/
def Obligations.TxnEncodeFailsInOrder : Prop :=
  ∀ (q : Descriptor) (cap : Nat) (s : State),
    (8 ≤ q.typeID.toNat →
      exec (.txnEncode q cap) s = .next { s with outcome := s.outcome ++ [.failure .unsupportedTransactionType] }) ∧
    (q.wellFormed = true → cap < 8 + 4 * q.payload.length →
      exec (.txnEncode q cap) s = .next { s with outcome := s.outcome ++ [.failure .bufferTooSmall] }) ∧
    (q.typeID.toNat < 8 → q.wellFormed = false → exec (.txnEncode q cap) s = .refused .illFormedDescriptor)

/-- R150: TXN_DECODE returns a Transaction exactly when its frame stands at the start of the buffer, with the number of bytes
it occupies; bytes after it are not examined (D10). No register is read or written. -/
def Obligations.TxnDecodeReturnsExactlyFrames : Prop :=
  (∀ (T : Transaction) (rest : List Byte) (s : State), T.valid = true →
    exec (.txnDecode (T.wire ++ rest)) s =
      .next { s with outcome := s.outcome ++ [.success (.decodedTxn T (8 + 4 * T.payload.length))] }) ∧
  (∀ (rx : List Byte) (s t : State) (r : Results), exec (.txnDecode rx) s = .next t →
    t.outcome = s.outcome ++ [.success r] →
    ∃ (T : Transaction) (rest : List Byte), T.valid = true ∧ rx = T.wire ++ rest ∧
      r = .decodedTxn T (8 + 4 * T.payload.length))

/-- R150: where TXN_DECODE fails, in priority order: fewer than 4 bytes; a version other than 2; a type of 8 to 15; fewer
bytes than the frame takes. The order is decisions D14 and D18. -/
def Obligations.TxnDecodeFailsInOrder : Prop :=
  ∀ (rx : List Byte) (s : State),
    (rx.length < 4 → exec (.txnDecode rx) s = .next { s with outcome := s.outcome ++ [.failure .truncatedInput] }) ∧
    ∀ w : Word, rxWord rx 0 = some w →
      ((txnFields w).version ≠ 2 →
        exec (.txnDecode rx) s = .next { s with outcome := s.outcome ++ [.failure .protocolVersionMismatch] }) ∧
      ((txnFields w).version = 2 → 8 ≤ (txnFields w).typeID.toNat →
        exec (.txnDecode rx) s = .next { s with outcome := s.outcome ++ [.failure .unsupportedTransactionType] }) ∧
      (∀ k : TxnKind, (txnFields w).version = 2 → (txnFields w).typeID = k.code →
        rx.length < 8 + 4 * paylen k (txnFields w).infoCode (txnFields w).wordCount →
        exec (.txnDecode rx) s = .next { s with outcome := s.outcome ++ [.failure .truncatedInput] })

/-- R151: the round trip of the transaction model. -/
def Obligations.TxnRoundTrip : Prop :=
  ∀ (q : Descriptor) (cap : Nat) (s t : State) (tx : List Byte) (T : Transaction),
    q.wellFormed = true → 8 + 4 * q.payload.length ≤ cap → exec (.txnEncode q cap) s = .next t →
    t.outcome = s.outcome ++ [.success (.encodedTxn tx T)] →
    T = ⟨s.tid, q.typeID, 0xF, q.wordCount, q.baseAddress, q.payload⟩ ∧
    ∀ u : State, exec (.txnDecode tx) u =
      .next { u with outcome := u.outcome ++ [.success (.decodedTxn T tx.length)] }

/-- R152, R70: the encoded lengths by class, that a packet of one request is at most 1032 bytes, and that at most 183
transactions fit under 1472 bytes. -/
def Obligations.EncodedLengthsAndCeiling : Prop :=
  (∀ (q : Descriptor) (k : TxnKind), q.wellFormed = true → q.typeID = k.code →
    (k.cls = .readType → q.bytes = 8) ∧ (k.cls = .writeType → q.bytes = 8 + 4 * q.wordCount.toNat) ∧
    (k = .rmwBits → q.bytes = 16) ∧ (k = .rmwSum → q.bytes = 12) ∧ packetBytes [q] ≤ 1032) ∧
  (∀ qs : List Descriptor, packetBytes qs ≤ 1472 → qs.length ≤ 183)

/-! ### The control-packet model -/

/-- R171, R69, R131: PKT_ENCODE past its checks: one packet header with the `PID` before the operation, then the frame of each
request in sequence order, the `k`-th with transaction ID `TID + k` modulo 4096; `PID` advances once and `TID` once per
transaction. Empty sequences included (D16). -/
def Obligations.PktEncodeEmitsPacket : Prop :=
  ∀ (qs : List Descriptor) (cap : Nat) (s : State), (∀ q ∈ qs, q.wellFormed = true) → qs.length ≤ s.config.maxTxn →
    packetBytes qs ≤ 1472 → packetBytes qs ≤ cap →
    ∃ (tx : List Byte) (P : ControlPacket),
      exec (.pktEncode qs cap) s = .next { s with
        pid := BitVec.ofNat 16 ((s.pid.toNat + 1) % 65536)
        tid := BitVec.ofNat 12 ((s.tid.toNat + qs.length) % 4096)
        outcome := s.outcome ++ [.success (.encodedPkt tx P)] } ∧
      tx = be32 (assemblePktHdr 0 s.pid 0xF 0) ++ (P.transactions.map Transaction.wire).flatten ∧
      tx.length = packetBytes qs ∧
      P.header = ⟨2, 0, s.pid, 0xF, 0⟩ ∧ P.transactions.length = qs.length ∧
      ∀ (k : Nat) (hk : k < qs.length), P.transactions[k]? = some ⟨BitVec.ofNat 12 ((s.tid.toNat + k) % 4096),
        qs[k].typeID, 0xF, qs[k].wordCount, qs[k].baseAddress, qs[k].payload⟩

/-- R171, R221: where PKT_ENCODE fails, in priority order, with neither register changed; and that it gives no meaning to a
sequence that holds a descriptor of a supported type that is not well formed (U2, D25; the refusal ends the run, log 9), even
where another descriptor has an unsupported type or the packet is too large, which is the model's deduction (log 10). The
order is decision D14, the count's failure kind D15, the unchanged registers D6. -/
def Obligations.PktEncodeFailsInOrder : Prop :=
  ∀ (qs : List Descriptor) (cap : Nat) (s : State),
    ((∀ q ∈ qs, q.presentable = true) → (∃ q ∈ qs, 8 ≤ q.typeID.toNat) →
      exec (.pktEncode qs cap) s = .next { s with outcome := s.outcome ++ [.failure .unsupportedTransactionType] }) ∧
    ((∀ q ∈ qs, q.wellFormed = true) → s.config.maxTxn < qs.length ∨ 1472 < packetBytes qs →
      exec (.pktEncode qs cap) s = .next { s with outcome := s.outcome ++ [.failure .packetTooLarge] }) ∧
    ((∀ q ∈ qs, q.wellFormed = true) → qs.length ≤ s.config.maxTxn → packetBytes qs ≤ 1472 → cap < packetBytes qs →
      exec (.pktEncode qs cap) s = .next { s with outcome := s.outcome ++ [.failure .bufferTooSmall] }) ∧
    ((∃ q ∈ qs, q.typeID.toNat < 8 ∧ q.wellFormed = false) →
      exec (.pktEncode qs cap) s = .refused .illFormedDescriptor)

/-- R176: when PKT_ENCODE succeeds it equals ENC_PKT_HDR followed by one TXN_ENCODE per request, in its bytes, its
Transactions and its effect on both counters. -/
def Obligations.PktEncodeIsItsExpansion : Prop :=
  ∀ (qs : List Descriptor) (cap : Nat) (s : State), (∀ q ∈ qs, q.wellFormed = true) → qs.length ≤ s.config.maxTxn →
    packetBytes qs ≤ 1472 → packetBytes qs ≤ cap →
    ∃ (hdr : Word) (es : List (List Byte × Transaction)) (p : PacketId) (t : TxnId),
      execAll (.encPktHdr 0xF 0x0 :: qs.map fun q => .txnEncode q cap) s = .next { s with
        pid := p, tid := t
        outcome := s.outcome ++ .success (.header hdr) :: es.map fun e => .success (.encodedTxn e.1 e.2) } ∧
      exec (.pktEncode qs cap) s = .next { s with
        pid := p, tid := t
        outcome := s.outcome ++ [.success (.encodedPkt (be32 hdr ++ (es.map Prod.fst).flatten)
          ⟨⟨2, 0, s.pid, 0xF, 0⟩, es.map Prod.snd⟩)] }

/-- R172: PKT_DECODE returns a control packet exactly when the buffer is that packet's wire form, header fields as read,
transactions in the order of their bytes, nothing left over. No register is read or written, and neither the 1472-byte
ceiling nor `MAX_TXN` applies (D19). -/
def Obligations.PktDecodeReturnsExactlyPackets : Prop :=
  (∀ (P : ControlPacket) (s : State), P.valid = true →
    exec (.pktDecode P.wire) s = .next { s with outcome := s.outcome ++ [.success (.decodedPkt P)] }) ∧
  (∀ (rx : List Byte) (s t : State) (r : Results), exec (.pktDecode rx) s = .next t →
    t.outcome = s.outcome ++ [.success r] → ∃ P : ControlPacket, P.valid = true ∧ rx = P.wire ∧ r = .decodedPkt P)

/-- R172, R212: where PKT_DECODE fails: the header checks in order, then the first failure of a transaction in wire order,
which is the failure TXN_DECODE reports for the bytes from there, and discards the transactions before it. The order is
decision D14, the packet-type failure D11. -/
def Obligations.PktDecodeFailsInOrder : Prop :=
  (∀ (rx : List Byte) (s : State),
    (rx.length < 4 → exec (.pktDecode rx) s = .next { s with outcome := s.outcome ++ [.failure .truncatedInput] }) ∧
    ∀ w : Word, rxWord rx 0 = some w →
      ((pktFields w).version ≠ 2 →
        exec (.pktDecode rx) s = .next { s with outcome := s.outcome ++ [.failure .protocolVersionMismatch] }) ∧
      ((pktFields w).version = 2 → (pktFields w).packetType ≠ 0 →
        exec (.pktDecode rx) s = .next { s with outcome := s.outcome ++ [.failure .badPacketType] })) ∧
  (∀ (P : ControlPacket) (rest : List Byte) (s t : State) (k : FailureKind), P.valid = true → rest ≠ [] →
    exec (.txnDecode rest) s = .next t → t.outcome = s.outcome ++ [.failure k] →
    exec (.pktDecode (P.wire ++ rest)) s = .next { s with outcome := s.outcome ++ [.failure k] })

/-- R177: the round trip of the control-packet model, whatever MAX_TXN is. -/
def Obligations.PktRoundTrip : Prop :=
  ∀ (qs : List Descriptor) (cap : Nat) (s t : State) (tx : List Byte) (P : ControlPacket),
    (∀ q ∈ qs, q.wellFormed = true) → exec (.pktEncode qs cap) s = .next t →
    t.outcome = s.outcome ++ [.success (.encodedPkt tx P)] →
    ∀ u : State, exec (.pktDecode tx) u = .next { u with outcome := u.outcome ++ [.success (.decodedPkt P)] }

/-! ### The boundary operations -/

/-- R191, R193, R198: BUILD_READ and BUILD_NIREAD: one control packet of 12 bytes, both counters advanced once; with less room
`BufferTooSmall` and nothing else. Each is PKT_ENCODE of the one request. Premise: the range of `MAX_TXN` (R10). That a BUILD
operation returns a whole packet is decision D7, the unchanged registers D6. -/
def Obligations.BuildReadsEmitOneRequest : Prop :=
  ∀ (a : Word) (n : Count) (cap : Nat) (s : State), s.config.Wf →
    (12 ≤ cap → ∀ (i : Instr) (y : Nibble), (i = .buildRead a n cap ∧ y = 0) ∨ (i = .buildNIRead a n cap ∧ y = 2) →
      exec i s = .next { s with
        pid := BitVec.ofNat 16 ((s.pid.toNat + 1) % 65536)
        tid := BitVec.ofNat 12 ((s.tid.toNat + 1) % 4096)
        outcome := s.outcome ++ [.success (.encodedPkt
          (be32 (assemblePktHdr 0 s.pid 0xF 0) ++ be32 (assembleTxnHdr s.tid n y 0xF) ++ be32 a)
          ⟨⟨2, 0, s.pid, 0xF, 0⟩, [⟨s.tid, y, 0xF, n, a, []⟩]⟩)] }) ∧
    (cap < 12 → ∀ i : Instr, i = .buildRead a n cap ∨ i = .buildNIRead a n cap →
      exec i s = .next { s with outcome := s.outcome ++ [.failure .bufferTooSmall] }) ∧
    exec (.buildRead a n cap) s = exec (.pktEncode [⟨0, n, a, []⟩] cap) s ∧
    exec (.buildNIRead a n cap) s = exec (.pktEncode [⟨2, n, a, []⟩] cap) s

/-- R192, R194, R198: BUILD_WRITE and BUILD_NIWRITE of at most 255 words: one control packet of `12 + 4*n` bytes whose word
count is `n`, both counters advanced once; with less room `BufferTooSmall` and nothing else. More than 255 words have no
meaning (R106, U1; the refusal ends the run, log 9). Each is PKT_ENCODE of the one request. Premise: the range of `MAX_TXN`
(R10). That a BUILD operation returns a whole packet is decision D7, the unchanged registers D6. -/
def Obligations.BuildWritesEmitOneRequest : Prop :=
  ∀ (a : Word) (d : List Word) (cap : Nat) (s : State), s.config.Wf →
    (d.length ≤ 255 → 12 + 4 * d.length ≤ cap → ∀ (i : Instr) (y : Nibble),
      (i = .buildWrite a d cap ∧ y = 1) ∨ (i = .buildNIWrite a d cap ∧ y = 3) →
      exec i s = .next { s with
        pid := BitVec.ofNat 16 ((s.pid.toNat + 1) % 65536)
        tid := BitVec.ofNat 12 ((s.tid.toNat + 1) % 4096)
        outcome := s.outcome ++ [.success (.encodedPkt
          (be32 (assemblePktHdr 0 s.pid 0xF 0) ++ be32 (assembleTxnHdr s.tid (BitVec.ofNat 8 d.length) y 0xF) ++ be32 a
            ++ (d.map be32).flatten)
          ⟨⟨2, 0, s.pid, 0xF, 0⟩, [⟨s.tid, y, 0xF, BitVec.ofNat 8 d.length, a, d⟩]⟩)] }) ∧
    (d.length ≤ 255 → cap < 12 + 4 * d.length → ∀ i : Instr, i = .buildWrite a d cap ∨ i = .buildNIWrite a d cap →
      exec i s = .next { s with outcome := s.outcome ++ [.failure .bufferTooSmall] }) ∧
    (d.length ≤ 255 →
      exec (.buildWrite a d cap) s = exec (.pktEncode [⟨1, BitVec.ofNat 8 d.length, a, d⟩] cap) s ∧
      exec (.buildNIWrite a d cap) s = exec (.pktEncode [⟨3, BitVec.ofNat 8 d.length, a, d⟩] cap) s) ∧
    (255 < d.length → ∀ i : Instr, i = .buildWrite a d cap ∨ i = .buildNIWrite a d cap →
      exec i s = .refused .payloadTooLong)

/-- R195, R196, R198: BUILD_RMWBITS (20 bytes, AND-term first) and BUILD_RMWSUM (16 bytes): word count 1, both counters
advanced once; with less room `BufferTooSmall` and nothing else. Each is PKT_ENCODE of the one request. Premise: the range
of `MAX_TXN` (R10). That a BUILD operation returns a whole packet is decision D7, the unchanged registers D6. -/
def Obligations.BuildReadModifyWritesEmitOneRequest : Prop :=
  ∀ (a x y : Word) (cap : Nat) (s : State), s.config.Wf →
    (20 ≤ cap → exec (.buildRMWBits a x y cap) s = .next { s with
        pid := BitVec.ofNat 16 ((s.pid.toNat + 1) % 65536)
        tid := BitVec.ofNat 12 ((s.tid.toNat + 1) % 4096)
        outcome := s.outcome ++ [.success (.encodedPkt
          (be32 (assemblePktHdr 0 s.pid 0xF 0) ++ be32 (assembleTxnHdr s.tid 1 4 0xF) ++ be32 a ++ be32 x ++ be32 y)
          ⟨⟨2, 0, s.pid, 0xF, 0⟩, [⟨s.tid, 4, 0xF, 1, a, [x, y]⟩]⟩)] }) ∧
    (cap < 20 → exec (.buildRMWBits a x y cap) s =
      .next { s with outcome := s.outcome ++ [.failure .bufferTooSmall] }) ∧
    (16 ≤ cap → exec (.buildRMWSum a x cap) s = .next { s with
        pid := BitVec.ofNat 16 ((s.pid.toNat + 1) % 65536)
        tid := BitVec.ofNat 12 ((s.tid.toNat + 1) % 4096)
        outcome := s.outcome ++ [.success (.encodedPkt
          (be32 (assemblePktHdr 0 s.pid 0xF 0) ++ be32 (assembleTxnHdr s.tid 1 5 0xF) ++ be32 a ++ be32 x)
          ⟨⟨2, 0, s.pid, 0xF, 0⟩, [⟨s.tid, 5, 0xF, 1, a, [x]⟩]⟩)] }) ∧
    (cap < 16 → exec (.buildRMWSum a x cap) s =
      .next { s with outcome := s.outcome ++ [.failure .bufferTooSmall] }) ∧
    exec (.buildRMWBits a x y cap) s = exec (.pktEncode [⟨4, 1, a, [x, y]⟩] cap) s ∧
    exec (.buildRMWSum a x cap) s = exec (.pktEncode [⟨5, 1, a, [x]⟩] cap) s

/-- R197: DECODE_RESPONSE returns the first transaction of a control packet, the packet ID and the number of bytes up to the
end of that transaction, exactly when such a packet stands at the start of the buffer; later bytes are not examined. A
header alone is `TruncatedInput`. Its input and its results are decision D21. -/
def Obligations.DecodeResponseReturnsFirstTransaction : Prop :=
  (∀ (r : Nibble) (p : PacketId) (b : Nibble) (T : Transaction) (rest : List Byte) (s : State), T.valid = true →
    exec (.decodeResponse (be32 (assemblePktHdr r p b 0) ++ T.wire ++ rest)) s = .next { s with
      outcome := s.outcome ++ [.success (.response T p (12 + 4 * T.payload.length))] }) ∧
  (∀ (rx : List Byte) (s t : State) (v : Results), exec (.decodeResponse rx) s = .next t →
    t.outcome = s.outcome ++ [.success v] →
    ∃ (r : Nibble) (p : PacketId) (b : Nibble) (T : Transaction) (rest : List Byte), T.valid = true ∧
      rx = be32 (assemblePktHdr r p b 0) ++ T.wire ++ rest ∧ v = .response T p (12 + 4 * T.payload.length)) ∧
  (∀ (r : Nibble) (p : PacketId) (b : Nibble) (s : State), exec (.decodeResponse (be32 (assemblePktHdr r p b 0))) s =
    .next { s with outcome := s.outcome ++ [.failure .truncatedInput] })

/-- R197: whenever PKT_DECODE succeeds on a buffer with at least one transaction, DECODE_RESPONSE returns its packet ID and its
first transaction; and where the header checks fail the two fail alike (decision D21). -/
def Obligations.DecodeResponseAgreesWithPktDecode : Prop :=
  (∀ (rx : List Byte) (h : PktFields) (T : Transaction) (Ts : List Transaction) (s t : State),
    exec (.pktDecode rx) s = .next t → t.outcome = s.outcome ++ [.success (.decodedPkt ⟨h, T :: Ts⟩)] →
    ∃ used : Nat, used ≤ rx.length ∧ exec (.decodeResponse rx) s = .next { s with
      outcome := s.outcome ++ [.success (.response T h.packetID used)] }) ∧
  (∀ (rx : List Byte) (s : State), (rx.length < 4 ∨ ∃ w : Word, rxWord rx 0 = some w ∧
      ((pktFields w).version ≠ 2 ∨ (pktFields w).packetType ≠ 0)) →
    exec (.decodeResponse rx) s = exec (.pktDecode rx) s)

/-- R197, R221: where DECODE_RESPONSE fails, in priority order: fewer than 4 bytes; a version other than 2; a packet type other
than 0; then whatever TXN_DECODE reports for the bytes after the packet header (a truncated header, another version, an
unsupported type, a truncated address or payload). The order is decision D14, the packet-type failure D11, the truncation
D18, the input D21, the unchanged registers D6. -/
def Obligations.DecodeResponseFailsInOrder : Prop :=
  (∀ (rx : List Byte) (s : State),
    (rx.length < 4 → exec (.decodeResponse rx) s = .next { s with outcome := s.outcome ++ [.failure .truncatedInput] }) ∧
    ∀ w : Word, rxWord rx 0 = some w →
      ((pktFields w).version ≠ 2 →
        exec (.decodeResponse rx) s = .next { s with outcome := s.outcome ++ [.failure .protocolVersionMismatch] }) ∧
      ((pktFields w).version = 2 → (pktFields w).packetType ≠ 0 →
        exec (.decodeResponse rx) s = .next { s with outcome := s.outcome ++ [.failure .badPacketType] })) ∧
  (∀ (r : Nibble) (p : PacketId) (b : Nibble) (rest : List Byte) (s t : State) (k : FailureKind),
    exec (.txnDecode rest) s = .next t → t.outcome = s.outcome ++ [.failure k] →
    exec (.decodeResponse (be32 (assemblePktHdr r p b 0) ++ rest)) s = .next { s with
      outcome := s.outcome ++ [.failure k] })

/-! ### The wire rows -/

/-- PKT_HDR.CONTROL: a control packet handed to the block is answered with its header fields as read and the transactions of
its body (R69, R172); with a body that is not whole frames, with the failure PKT_DECODE reports. That a packet on the
packet channel is such an instruction is the model's choice (log 1). -/
def Obligations.ControlPacketsAreReceived : Prop :=
  (∀ (r : Nibble) (p : PacketId) (b : Nibble) (Ts : List Transaction) (s : State), (∀ T ∈ Ts, T.valid = true) →
    exec (.pktHdrControl r p b (Ts.map Transaction.wire).flatten) s = .next { s with
      outcome := s.outcome ++ [.success (.decodedPkt ⟨⟨2, r, p, b, 0⟩, Ts⟩)] }) ∧
  (∀ (r : Nibble) (p : PacketId) (b : Nibble) (body : List Byte) (s : State),
    exec (.pktHdrControl r p b body) s = exec (.pktDecode (be32 (assemblePktHdr r p b 0) ++ body)) s)

/-- PKT_HDR.STATUS, PKT_HDR.RESEND and TXN.UNSUPPORTED: the effect the spec gives such a packet or header in a parse is a
failure, and this is it (R71, R72, R220, R213; D11, D13). That the three rows are instructions is the model's choice (log 1);
that the body of a status or re-send packet has no effect, a status packet of another length than 16 words included, is its
deduction (log 17). -/
def Obligations.OtherPacketsAndTypesFail : Prop :=
  (∀ (r : Nibble) (p : PacketId) (b : Nibble) (body : List Byte) (s : State),
    exec (.pktHdrStatus r p b body) s = .next { s with outcome := s.outcome ++ [.failure .badPacketType] } ∧
    exec (.pktHdrResend r p b body) s = .next { s with outcome := s.outcome ++ [.failure .badPacketType] } ∧
    exec (.pktDecode (be32 (assemblePktHdr r p b 1) ++ body)) s = exec (.pktHdrStatus r p b body) s ∧
    exec (.decodeResponse (be32 (assemblePktHdr r p b 2) ++ body)) s = exec (.pktHdrResend r p b body) s) ∧
  (∀ (t : TxnId) (c : Count) (y : BitVec 3) (i : Nibble) (rest : List Byte) (s : State),
    exec (.txnUnsupported t c y i) s =
      .next { s with outcome := s.outcome ++ [.failure .unsupportedTransactionType] } ∧
    exec (.txnDecode (be32 (assembleTxnHdr t c (BitVec.ofNat 4 (8 + y.toNat)) i) ++ rest)) s =
      exec (.txnUnsupported t c y i) s)

/-- The eight request frames (R67, R68): each is answered with the Transaction it holds and its length in bytes, nothing else
changes. The frames of types 6 and 7 are decision D8; that a frame is an instruction is the model's choice (log 1). -/
def Obligations.RequestFramesAreReceived : Prop :=
  ∀ (t : TxnId) (c : Count) (a x y : Word) (ps : List Word) (s : State),
    exec (.txnReadReq t c a) s =
      .next { s with outcome := s.outcome ++ [.success (.decodedTxn ⟨t, 0, 0xF, c, a, []⟩ 8)] } ∧
    exec (.txnNIReadReq t c a) s =
      .next { s with outcome := s.outcome ++ [.success (.decodedTxn ⟨t, 2, 0xF, c, a, []⟩ 8)] } ∧
    exec (.txnCfgReadReq t c a) s =
      .next { s with outcome := s.outcome ++ [.success (.decodedTxn ⟨t, 6, 0xF, c, a, []⟩ 8)] } ∧
    exec (.txnRMWBitsReq t c a x y) s =
      .next { s with outcome := s.outcome ++ [.success (.decodedTxn ⟨t, 4, 0xF, c, a, [x, y]⟩ 16)] } ∧
    exec (.txnRMWSumReq t c a x) s =
      .next { s with outcome := s.outcome ++ [.success (.decodedTxn ⟨t, 5, 0xF, c, a, [x]⟩ 12)] } ∧
    (ps.length = c.toNat →
      exec (.txnWriteReq t c a ps) s = .next { s with
        outcome := s.outcome ++ [.success (.decodedTxn ⟨t, 1, 0xF, c, a, ps⟩ (8 + 4 * c.toNat))] } ∧
      exec (.txnNIWriteReq t c a ps) s = .next { s with
        outcome := s.outcome ++ [.success (.decodedTxn ⟨t, 3, 0xF, c, a, ps⟩ (8 + 4 * c.toNat))] } ∧
      exec (.txnCfgWriteReq t c a ps) s = .next { s with
        outcome := s.outcome ++ [.success (.decodedTxn ⟨t, 7, 0xF, c, a, ps⟩ (8 + 4 * c.toNat))] })

/-- The eight response frames (R67, R68): an info code other than 0xF, error codes included, is returned as read and the
frame measured as a response. Write and RMW responses are decision D9, types 6 and 7 decision D8. -/
def Obligations.ResponseFramesAreReceived : Prop :=
  ∀ (t : TxnId) (c : Count) (i : Nibble) (a x : Word) (ps : List Word) (s : State), i ≠ 0xF →
    exec (.txnWriteRsp t c i a) s =
      .next { s with outcome := s.outcome ++ [.success (.decodedTxn ⟨t, 1, i, c, a, []⟩ 8)] } ∧
    exec (.txnNIWriteRsp t c i a) s =
      .next { s with outcome := s.outcome ++ [.success (.decodedTxn ⟨t, 3, i, c, a, []⟩ 8)] } ∧
    exec (.txnCfgWriteRsp t c i a) s =
      .next { s with outcome := s.outcome ++ [.success (.decodedTxn ⟨t, 7, i, c, a, []⟩ 8)] } ∧
    exec (.txnRMWBitsRsp t c i a x) s =
      .next { s with outcome := s.outcome ++ [.success (.decodedTxn ⟨t, 4, i, c, a, [x]⟩ 12)] } ∧
    exec (.txnRMWSumRsp t c i a x) s =
      .next { s with outcome := s.outcome ++ [.success (.decodedTxn ⟨t, 5, i, c, a, [x]⟩ 12)] } ∧
    (ps.length = c.toNat →
      exec (.txnReadRsp t c i a ps) s = .next { s with
        outcome := s.outcome ++ [.success (.decodedTxn ⟨t, 0, i, c, a, ps⟩ (8 + 4 * c.toNat))] } ∧
      exec (.txnNIReadRsp t c i a ps) s = .next { s with
        outcome := s.outcome ++ [.success (.decodedTxn ⟨t, 2, i, c, a, ps⟩ (8 + 4 * c.toNat))] } ∧
      exec (.txnCfgReadRsp t c i a ps) s = .next { s with
        outcome := s.outcome ++ [.success (.decodedTxn ⟨t, 6, i, c, a, ps⟩ (8 + 4 * c.toNat))] })

/-- Two designs of one parser agree: the table of masks and patterns, row by row, on the frame channel does on every byte
sequence what the pseudocode of TXN_DECODE does with it (R150), and on the packet channel what PKT_DECODE does (R172). The
channels are the model's choice (log 1); the parsers rest on decisions D10, D11, D14, D18. -/
def Obligations.WireChannelsAreTheDecoders : Prop :=
  (∀ (bytes : List Byte) (rest : List Event) (s : State), s.input = .request ⟨.frame, bytes⟩ :: rest →
    step s = exec (.txnDecode bytes) { s with input := rest }) ∧
  (∀ (bytes : List Byte) (rest : List Event) (s : State), s.input = .request ⟨.packet, bytes⟩ :: rest →
    step s = exec (.pktDecode bytes) { s with input := rest })

/-! ### Whole-machine rules -/

/-- R210: every well-formed instruction completes in every state, with exactly one answer. R210 speaks of operations; that the
20 wire rows are instructions too is the model's choice (log 1). -/
def Obligations.EveryOperationEndsWithOneAnswer : Prop :=
  ∀ (i : Instr) (s : State), i.WellFormed → ∃ (t : State) (r : Response),
    exec i s = .next t ∧ t.outcome = s.outcome ++ [r]

/-- R233: an instruction that is not well formed is given no meaning, whatever the state: a payload above 255 words (U1) and a
descriptor that is not well formed (U2, D25). That a PKT_ENCODE sequence with one such descriptor is refused whatever else is
wrong with it is the model's deduction (log 10), and so is the refusal of operands of a frame row that are no frame of it
(log 12). That a refusal ends the run is its choice (log 9). -/
def Obligations.IllFormedInstructionsRefused : Prop :=
  ∀ (i : Instr) (s : State), ¬ i.WellFormed →
    exec i s = .refused .illFormedDescriptor ∨ exec i s = .refused .payloadTooLong ∨ exec i s = .refused .notAFrame

/-- The failure kinds by operation (R211): `BufferTooSmall` from the encoders that emit bytes, `PacketTooLarge` from PKT_ENCODE,
`BadPacketType` from what takes a packet header, `UnsupportedTransactionType` from TXN_ENCODE, PKT_ENCODE and the decoders, the
version and length failures from the decoders, the header decoders the version only; SequenceGap and CounterExhaustion from
none (R217, R218). The kinds rest on decisions D11, D13, D15, D18, D27; the
wire rows are the model's choice (log 1). Premise: the range of `MAX_TXN` (R10). -/
def Obligations.FailureKindsByOperation : Prop :=
  ∀ (i : Instr) (s t : State) (k : FailureKind), s.config.Wf → exec i s = .next t →
    t.outcome = s.outcome ++ [.failure k] →
    k ≠ .sequenceGap ∧ k ≠ .counterExhaustion ∧
    (k = .bufferTooSmall → usesBothCounters i = true ∨ ∃ q cap, i = .txnEncode q cap) ∧
    (k = .packetTooLarge → ∃ qs cap, i = .pktEncode qs cap) ∧
    (k = .unsupportedTransactionType →
      isDecoder i = true ∨ (∃ q cap, i = .txnEncode q cap) ∨ ∃ qs cap, i = .pktEncode qs cap) ∧
    (k = .badPacketType → (∃ rx, i = .pktDecode rx ∨ i = .decodeResponse rx) ∨
      ∃ r p b body, i = .pktHdrStatus r p b body ∨ i = .pktHdrResend r p b body) ∧
    (k = .truncatedInput ∨ k = .protocolVersionMismatch → isDecoder i = true) ∧
    (∀ w, i = .decPktHdr w ∨ i = .decTxnHdr w → k = .protocolVersionMismatch)

/-- R47, R49: an operation that emits bytes delivers no more than its capacity holds, whole words only, and with any larger
capacity it delivers the same bytes: `cap` larger than the length is harmless (decisions D6, D17). -/
def Obligations.DeliveredBytesFitCapacity : Prop :=
  (∀ (i : Instr) (s t : State) (r : Response) (cap : Nat), capacity i = some cap → exec i s = .next t →
    t.outcome = s.outcome ++ [r] → (deliveredBytes r).length ≤ cap ∧ 4 ∣ (deliveredBytes r).length) ∧
  (∀ (i : Instr) (s t : State) (r : Response), capacity i = none → exec i s = .next t →
    t.outcome = s.outcome ++ [r] → deliveredBytes r = []) ∧
  (∀ (q : Descriptor) (cap cap' : Nat) (s t : State) (v : Results), cap ≤ cap' → exec (.txnEncode q cap) s = .next t →
    t.outcome = s.outcome ++ [.success v] → exec (.txnEncode q cap') s = .next t) ∧
  (∀ (qs : List Descriptor) (cap cap' : Nat) (s t : State) (v : Results), cap ≤ cap' →
    exec (.pktEncode qs cap) s = .next t → t.outcome = s.outcome ++ [.success v] →
    exec (.pktEncode qs cap') s = .next t)

/-- R211: the status code is 0 exactly on success, and each failure kind has the number of R211's table, 1 to 8. The numbers
are the spec's own choice (D3). -/
def Obligations.StatusCodesTellKindsApart : Prop :=
  (∀ r : Response, statusCode r = 0 ↔ ∃ v, r = .success v) ∧
  (∀ k k' : FailureKind, statusCode (.failure k) = statusCode (.failure k') → k = k') ∧
  (∀ n : Nat, (∃ k : FailureKind, statusCode (.failure k) = n) ↔ 1 ≤ n ∧ n ≤ 8) ∧
  statusCode (.failure .protocolVersionMismatch) = 1 ∧ statusCode (.failure .unsupportedTransactionType) = 2 ∧
  statusCode (.failure .bufferTooSmall) = 3 ∧ statusCode (.failure .packetTooLarge) = 4 ∧
  statusCode (.failure .sequenceGap) = 5 ∧ statusCode (.failure .truncatedInput) = 6 ∧
  statusCode (.failure .counterExhaustion) = 7 ∧ statusCode (.failure .badPacketType) = 8

/-- R48, R251: what a decoder or a wire row answers depends on its bytes alone, and it changes nothing but the answer (decision
D20; the wire rows are the model's choice, log 1). -/
def Obligations.DecodersTouchNoRegister : Prop :=
  ∀ (i : Instr) (s t : State), isDecoder i = true → exec i s = .next t →
    ∃ r : Response, t = { s with outcome := s.outcome ++ [r] } ∧
      ∀ u : State, exec i u = .next { u with outcome := u.outcome ++ [r] }

/-- R25, R27, R256: the block keeps no trace beside its counters: two states that agree on `PID`, `TID` and `MAX_TXN` give
every instruction the same answer and the same counters, whatever has been answered before and whatever waits. -/
def Obligations.NoHiddenState : Prop :=
  ∀ (i : Instr) (s s' t : State), s.pid = s'.pid → s.tid = s'.tid → s.config = s'.config → exec i s = .next t →
    ∃ (t' : State) (r : Response), exec i s' = .next t' ∧ t.outcome = s.outcome ++ [r] ∧
      t'.outcome = s'.outcome ++ [r] ∧ t'.pid = t.pid ∧ t'.tid = t.tid

/-- R222: the operation after a failed one runs exactly as it would have run had the failed one never been issued: the same
answer and the same counters. That a failure changes no register is decision D6. -/
def Obligations.FailureLeavesNoTrace : Prop :=
  ∀ (i j : Instr) (s t u : State) (k : FailureKind), exec i s = .next t → t.outcome = s.outcome ++ [.failure k] →
    exec j s = .next u →
    ∃ (u' : State) (r : Response), exec j t = .next u' ∧ u.outcome = s.outcome ++ [r] ∧
      u'.outcome = t.outcome ++ [r] ∧ u'.pid = u.pid ∧ u'.tid = u.tid

/-- The invariant is kept by every step: `MAX_TXN` stays in its range and every answer the block gives is sound: bytes that
are the wire form of the value returned with them, at most 1472 of them, at most `MAX_TXN` transactions with consecutive
IDs, supported frames only, none of the reserved failures (R70, R131, R149, R171, R174, R213, R217, R218). The record of
answers is the model's (log 5). -/
def Obligations.StepKeepsInvariant : Prop := ∀ s t : State, s.Inv → step s = .next t → t.Inv

/-- `MAX_TXN` is configuration: no step changes it (R28); and a step takes exactly the oldest event (R52; the list of
events is the model's form, log 4). -/
def Obligations.StepKeepsConfigurationAndTakesOneEvent : Prop :=
  ∀ s t : State, step s = .next t → t.config = s.config ∧ t.input = s.input.tail

/-- R131, R178: packet headers built one after another carry IDs the target's contract accepts: between two operations that
build a packet header, any operations that leave `PID` alone may stand. The predicate is R178's own. How an accepted packet with
ID 0 affects the ID the target expects next is in no source (R178, N9): that the target accepts ID 1 after a packet with ID 0,
the predicate taken at `last = 0` like anywhere else, is the model's choice (log 18). The target is not modelled (D27,
log 15). -/
def Obligations.ConsecutivePacketsAreAccepted : Prop :=
  ∀ (i j : Instr) (ms : List Instr) (s t t' u : State) (r r' : Response) (p p' : PacketId),
    buildsPacket i = true → buildsPacket j = true → (∀ m ∈ ms, ∀ v : PacketId, pidAfter m v = v) →
    exec i s = .next t → t.outcome = s.outcome ++ [r] → builtPacketId r = some p →
    execAll ms t = .next t' →
    exec j t' = .next u → u.outcome = t'.outcome ++ [r'] → builtPacketId r' = some p' →
    p = s.pid ∧ p'.toNat = (p.toNat + 1) % 65536 ∧ seqAccept p p' = true

/-- R254: after the packet with ID 0xFFFF the next packet carries ID 0, which the target accepts unconditionally, and the one
after carries ID 1. -/
def Obligations.PacketIdsWrapThroughZero : Prop :=
  ∀ (i j k : Instr) (s t u v : State) (r r' r'' : Response) (p p' p'' : PacketId),
    buildsPacket i = true → buildsPacket j = true → buildsPacket k = true →
    exec i s = .next t → t.outcome = s.outcome ++ [r] → builtPacketId r = some p →
    exec j t = .next u → u.outcome = t.outcome ++ [r'] → builtPacketId r' = some p' →
    exec k u = .next v → v.outcome = u.outcome ++ [r''] → builtPacketId r'' = some p'' →
    p.toNat = 0xFFFF → p'.toNat = 0 ∧ p''.toNat = 1 ∧ ∀ last : PacketId, seqAccept last p' = true

/-- R241: from the reset state the first packet header is 0x200000F0 and the first transaction header of a read of `n` words is
0x2000nn0F. The reset value of `TID` is decision D4 (log 2). -/
def Obligations.FirstHeadersAfterReset : Prop :=
  (∃ t, exec (.encPktHdr 0xF 0x0) State.reset = .next t ∧ t.outcome = [.success (.header 0x200000F0)]) ∧
  ∀ n : Count, ∃ (hdr : Word) (t : State), exec (.encTxnHdr 0x0 n) State.reset = .next t ∧
    t.outcome = [.success (.header hdr)] ∧ hdr.toNat = 0x2000000F + n.toNat * 0x100

/-- R132, R31, R230: in a system of blocks, under any schedule, each block ends in the state its own steps alone bring it to,
as many as the schedule gives it; and the system goes on as long as each block on its own does. The list of blocks, the
schedule, the empty turn of a position without a block and the stop of all on one refusal are the model's choice (log 14). -/
def Obligations.BlocksAreIsolated : Prop :=
  (∀ (ks : List Nat) (S S' : System), System.run ks S = .next S' →
    S'.blocks.length = S.blocks.length ∧
    ∀ (k : Nat) (s : State), S.blocks[k]? = some s →
      ∃ t : State, core.run (ks.count k) s = .next t ∧ S'.blocks[k]? = some t) ∧
  (∀ (ks : List Nat) (S : System),
    (∀ (k : Nat) (s : State), S.blocks[k]? = some s → ∃ t : State, core.run (ks.count k) s = .next t) →
    ∃ S' : System, System.run ks S = .next S')
end

