-- ==== Sys2Proof/Laws/Words.lean ====
section
/-! SUPPORT. Words in buffers and fields in words: the round trips of R41, R42, R61, R63 and R73. -/

namespace Sys2Proof

/-! ### Big-endian words (R41, R42) -/

@[simp] theorem be32_length (w : Word) : (be32 w).length = 4 := rfl

@[simp] theorem be32s_length (ws : List Word) : (be32s ws).length = 4 * ws.length := by
  induction ws with
  | nil => rfl
  | cons w ws ih => simp [be32s, ih]; omega

theorem be32s_eq_flatten (ws : List Word) : be32s ws = (ws.map be32).flatten := by
  induction ws with
  | nil => rfl
  | cons w ws ih => simp [be32s, ih]

@[simp] theorem wordOfBytes_be32 (w : Word) :
    wordOfBytes (w.extractLsb' 24 8) (w.extractLsb' 16 8) (w.extractLsb' 8 8) (w.extractLsb' 0 8) = w := by
  apply BitVec.eq_of_getLsbD_eq
  intro k hk
  simp only [wordOfBytes, BitVec.getLsbD_append, BitVec.getLsbD_extractLsb']
  interval_cases k <;> simp

theorem be32_wordOfBytes (b3 b2 b1 b0 : Byte) : be32 (wordOfBytes b3 b2 b1 b0) = [b3, b2, b1, b0] := by
  simp only [be32, List.cons.injEq, and_true]
  refine ⟨?_, ?_, ?_, ?_⟩ <;>
  · apply BitVec.eq_of_getLsbD_eq
    intro k hk
    simp only [wordOfBytes, BitVec.getLsbD_append, BitVec.getLsbD_extractLsb']
    interval_cases k <;> simp

/-- The word at an offset depends on the bytes from there on only. -/
theorem rxWord_drop (rx : List Byte) (off : Nat) : rxWord rx off = rxWord (rx.drop off) 0 := by
  simp [rxWord]

theorem rxWord_append (pre rx : List Byte) (off : Nat) : rxWord (pre ++ rx) (pre.length + off) = rxWord rx off := by
  simp [rxWord, List.drop_append, List.drop_eq_nil_of_le (Nat.le_add_right pre.length off)]

@[simp] theorem rxWord_be32 (w : Word) (rest : List Byte) : rxWord (be32 w ++ rest) 0 = some w := by
  simp [rxWord, be32]

/-- No word is read unless all of it lies inside the buffer (R42, R46). -/
theorem rxWord_eq_none_iff (rx : List Byte) (off : Nat) : rxWord rx off = none ↔ rx.length < off + 4 := by
  have hl : (rx.drop off).length = rx.length - off := List.length_drop
  unfold rxWord
  split
  · rename_i h; rw [h] at hl; simp at hl; simp; omega
  · rename_i h
    simp only [true_iff]
    rcases hd : rx.drop off with _ | ⟨a, _ | ⟨b, _ | ⟨c, _ | ⟨d, r⟩⟩⟩⟩
    all_goals first
      | (rw [hd] at hl; simp at hl; omega)
      | exact absurd hd (h _ _ _ _ _)

/-- What a read of a word says of the buffer. -/
theorem rxWord_eq_some {rx : List Byte} {off : Nat} {w : Word} (h : rxWord rx off = some w) :
    rx.drop off = be32 w ++ rx.drop (off + 4) := by
  unfold rxWord at h
  split at h
  · rename_i b3 b2 b1 b0 r hd
    cases h
    have : rx.drop (off + 4) = r := by rw [← List.drop_drop, hd]; rfl
    rw [hd, this, be32_wordOfBytes]; rfl
  · cases h

theorem rxWords_append (pre rx : List Byte) (off n : Nat) :
    rxWords (pre ++ rx) (pre.length + off) n = rxWords rx off n := by
  induction n generalizing off with
  | zero => rfl
  | succ n ih => simp only [rxWords, rxWord_append]; rw [Nat.add_assoc, ih]

theorem rxWords_be32s (ws : List Word) (rest : List Byte) : rxWords (be32s ws ++ rest) 0 ws.length = some ws := by
  induction ws with
  | nil => rfl
  | cons w ws ih =>
    have := rxWords_append (be32 w) (be32s ws ++ rest) 0 ws.length
    simp only [be32_length] at this
    simp [rxWords, be32s, this, ih]

theorem rxWords_eq_none_iff (rx : List Byte) (off n : Nat) :
    rxWords rx off n = none ↔ n ≠ 0 ∧ rx.length < off + 4 * n := by
  induction n generalizing off with
  | zero => simp [rxWords]
  | succ n ih =>
    unfold rxWords
    split
    · rename_i h; rw [rxWord_eq_none_iff] at h; simp; omega
    · rename_i w h
      have hn : ¬ rx.length < off + 4 := by rw [← rxWord_eq_none_iff, h]; simp
      rw [Option.map_eq_none_iff, ih]; omega

theorem rxWords_eq_some {rx : List Byte} {off n : Nat} {ws : List Word} (h : rxWords rx off n = some ws) :
    ws.length = n ∧ rx.drop off = be32s ws ++ rx.drop (off + 4 * n) := by
  induction n generalizing off ws with
  | zero => cases h; simp [be32s]
  | succ n ih =>
    unfold rxWords at h
    split at h
    · cases h
    · rename_i w hw
      simp only [Option.map_eq_some_iff] at h
      obtain ⟨ws', h', rfl⟩ := h
      obtain ⟨hl, hd⟩ := ih h'
      refine ⟨by simp [hl], ?_⟩
      rw [rxWord_eq_some hw, hd, be32s, List.append_assoc]
      congr 3; omega

/-! ### Header fields (R61, R63, R73) -/

theorem assemblePktHdr_eq_append (r : Nibble) (p : PacketId) (b t : Nibble) :
    assemblePktHdr r p b t = (protocolVersion ++ r ++ p ++ b ++ t : BitVec 32) := by
  apply BitVec.eq_of_getLsbD_eq
  intro k hk
  simp only [assemblePktHdr, BitVec.getLsbD_append, BitVec.getLsbD_or, BitVec.getLsbD_shiftLeft, BitVec.getLsbD_setWidth]
  interval_cases k <;> simp

theorem assembleTxnHdr_eq_append (t : TxnId) (c : Count) (y i : Nibble) :
    assembleTxnHdr t c y i = (protocolVersion ++ t ++ c ++ y ++ i : BitVec 32) := by
  apply BitVec.eq_of_getLsbD_eq
  intro k hk
  simp only [assembleTxnHdr, BitVec.getLsbD_append, BitVec.getLsbD_or, BitVec.getLsbD_shiftLeft, BitVec.getLsbD_setWidth]
  interval_cases k <;> simp

@[simp] theorem pktFields_assemble (r : Nibble) (p : PacketId) (b t : Nibble) :
    pktFields (assemblePktHdr r p b t) = ⟨protocolVersion, r, p, b, t⟩ := by
  rw [assemblePktHdr_eq_append]
  simp only [pktFields, PktFields.mk.injEq]
  refine ⟨?_, ?_, ?_, ?_, ?_⟩ <;>
  · apply BitVec.eq_of_getLsbD_eq
    intro k hk
    simp only [BitVec.getLsbD_append, BitVec.getLsbD_extractLsb']
    interval_cases k <;> simp

@[simp] theorem txnFields_assemble (t : TxnId) (c : Count) (y i : Nibble) :
    txnFields (assembleTxnHdr t c y i) = ⟨protocolVersion, t, c, y, i⟩ := by
  rw [assembleTxnHdr_eq_append]
  simp only [txnFields, TxnFields.mk.injEq]
  refine ⟨?_, ?_, ?_, ?_, ?_⟩ <;>
  · apply BitVec.eq_of_getLsbD_eq
    intro k hk
    simp only [BitVec.getLsbD_append, BitVec.getLsbD_extractLsb']
    interval_cases k <;> simp

/-- A packet header word is its fields put together again (R105). -/
theorem pktFields_append (w : Word) :
    ((pktFields w).version ++ (pktFields w).rsvd ++ (pktFields w).packetID ++ (pktFields w).byteOrder
      ++ (pktFields w).packetType : BitVec 32) = w := by
  apply BitVec.eq_of_getLsbD_eq
  intro k hk
  simp only [pktFields, BitVec.getLsbD_append, BitVec.getLsbD_extractLsb']
  interval_cases k <;> simp

/-- A transaction header word is its fields put together again (R105). -/
theorem txnFields_append (w : Word) :
    ((txnFields w).version ++ (txnFields w).transactionID ++ (txnFields w).wordCount ++ (txnFields w).typeID
      ++ (txnFields w).infoCode : BitVec 32) = w := by
  apply BitVec.eq_of_getLsbD_eq
  intro k hk
  simp only [txnFields, BitVec.getLsbD_append, BitVec.getLsbD_extractLsb']
  interval_cases k <;> simp

theorem assemble_pktFields {w : Word} (h : (pktFields w).version = protocolVersion) :
    assemblePktHdr (pktFields w).rsvd (pktFields w).packetID (pktFields w).byteOrder (pktFields w).packetType = w := by
  rw [assemblePktHdr_eq_append, ← h, pktFields_append]

theorem assemble_txnFields {w : Word} (h : (txnFields w).version = protocolVersion) :
    assembleTxnHdr (txnFields w).transactionID (txnFields w).wordCount (txnFields w).typeID (txnFields w).infoCode = w := by
  rw [assembleTxnHdr_eq_append, ← h, txnFields_append]

@[simp] theorem txnFields_version_eq (w : Word) : (txnFields w).version = (pktFields w).version := rfl

/-- The version of a header word is its top four bits (R61, R63). -/
theorem version_eq_iff (w : Word) : (pktFields w).version = protocolVersion ↔ w.toNat / 2 ^ 28 = 2 := by
  have := w.isLt
  rw [← BitVec.toNat_inj]
  simp [pktFields, BitVec.extractLsb'_toNat, Nat.shiftRight_eq_div_pow]
  omega

/-- A packet header as a number (R61). -/
theorem assemblePktHdr_toNat (r : Nibble) (p : PacketId) (b y : Nibble) :
    (assemblePktHdr r p b y).toNat = 2 * 2 ^ 28 + r.toNat * 2 ^ 24 + p.toNat * 2 ^ 8 + b.toNat * 2 ^ 4 + y.toNat := by
  rw [assemblePktHdr_eq_append]
  have := r.isLt
  have := p.isLt
  have := b.isLt
  have := y.isLt
  simp only [BitVec.toNat_append]
  repeat rw [← Nat.shiftLeft_add_eq_or_of_lt (by assumption)]
  simp [Nat.shiftLeft_eq, protocolVersion]
  omega

/-- A transaction header as a number (R63). -/
theorem assembleTxnHdr_toNat (t : TxnId) (c : Count) (y i : Nibble) :
    (assembleTxnHdr t c y i).toNat = 2 * 2 ^ 28 + t.toNat * 2 ^ 16 + c.toNat * 2 ^ 8 + y.toNat * 2 ^ 4 + i.toNat := by
  rw [assembleTxnHdr_eq_append]
  have := t.isLt
  have := c.isLt
  have := y.isLt
  have := i.isLt
  simp only [BitVec.toNat_append]
  repeat rw [← Nat.shiftLeft_add_eq_or_of_lt (by assumption)]
  simp [Nat.shiftLeft_eq, protocolVersion]
  omega

/-- A step of the packet counter as a number (R129). -/
theorem packetId_add (p : PacketId) (n : Nat) : p + BitVec.ofNat 16 n = BitVec.ofNat 16 ((p.toNat + n) % 65536) := by
  apply BitVec.eq_of_toNat_eq; simp

/-- `n` steps of the transaction counter as a number (R129). -/
theorem txnId_add (t : TxnId) (n : Nat) : t + BitVec.ofNat 12 n = BitVec.ofNat 12 ((t.toNat + n) % 4096) := by
  apply BitVec.eq_of_toNat_eq; simp

end Sys2Proof
end

