-- ==== Sys2Proof/Laws/Kinds.lean ====
section
/-! SUPPORT. Transaction kinds, payload lengths and descriptors (R64, R68, R141, R152). -/

namespace Sys2Proof

@[simp] theorem ofCode_code (k : TxnKind) : TxnKind.ofCode k.code = some k := by cases k <;> rfl

/-- A type ID selects a kind exactly when it is that kind's code (R64). -/
theorem ofCode_eq_some_iff (y : Nibble) (k : TxnKind) : TxnKind.ofCode y = some k ↔ y = k.code := by
  revert y; cases k <;> decide

/-- Type IDs 8 to 15 select no kind (R64). -/
theorem ofCode_eq_none_iff (y : Nibble) : TxnKind.ofCode y = none ↔ 8 ≤ y.toNat := by
  revert y; decide

/-- No kind's code is above 7 (R64). -/
theorem code_lt (k : TxnKind) : k.code.toNat < 8 := by cases k <;> decide

/-- A frame has at most 255 payload words (R67). -/
theorem paylen_le (k : TxnKind) (i : Nibble) (c : Count) : paylen k i c ≤ 255 := by
  have := c.isLt
  unfold paylen; split <;> cases k <;> simp <;> omega

theorem valid_iff (T : Transaction) :
    T.valid = true ↔ ∃ k, T.typeID = k.code ∧ T.payload.length = paylen k T.infoCode T.wordCount := by
  unfold Transaction.valid
  split
  · rename_i h; simp only [Bool.false_eq_true, false_iff, not_exists, not_and]
    intro k hk; rw [hk, ofCode_code] at h; cases h
  · rename_i k h; rw [ofCode_eq_some_iff] at h
    simp only [beq_iff_eq]
    constructor
    · intro hp; exact ⟨k, h, hp⟩
    · rintro ⟨k', hk', hp⟩
      have : k' = k := by have := ofCode_code k'; rw [← hk', h, ofCode_code] at this; exact (Option.some.inj this).symm
      rw [hp, this]

theorem wellFormed_iff (q : Descriptor) :
    q.wellFormed = true ↔ ∃ k : TxnKind, q.typeID = k.code ∧ q.payload.length = paylen k requestInfo q.wordCount ∧
      (k.cls = .rmw → q.wordCount = 1) := by
  unfold Descriptor.wellFormed
  split
  · rename_i h; simp only [Bool.false_eq_true, false_iff, not_exists, not_and]
    intro k hk; rw [hk, ofCode_code] at h; cases h
  · rename_i k h; rw [ofCode_eq_some_iff] at h
    simp only [Bool.and_eq_true, beq_iff_eq, Bool.or_eq_true, bne_iff_ne, ne_eq]
    constructor
    · rintro ⟨hp, hc⟩; exact ⟨k, h, hp, fun hk => hc.resolve_left (fun hn => hn hk)⟩
    · rintro ⟨k', hk', hp, hc⟩
      have : k' = k := by have := ofCode_code k'; rw [← hk', h, ofCode_code] at this; exact (Option.some.inj this).symm
      subst this
      exact ⟨hp, (em (k'.cls = .rmw)).elim (fun hk => .inr (hc hk)) .inl⟩

/-- A well-formed descriptor has a supported type (R141). -/
theorem supported_of_wellFormed {q : Descriptor} (h : q.wellFormed = true) : q.supported = true := by
  obtain ⟨k, hk, -⟩ := (wellFormed_iff q).mp h
  simp [Descriptor.supported, hk, code_lt]

/-- A presentable descriptor of a supported type is well formed (R149). -/
theorem wellFormed_of_presentable {q : Descriptor} (hp : q.presentable = true) (hs : q.supported = true) :
    q.wellFormed = true := by
  simpa [Descriptor.presentable, hs] using hp

theorem presentable_of_wellFormed {q : Descriptor} (h : q.wellFormed = true) : q.presentable = true := by
  simp [Descriptor.presentable, h]

/-- The Transaction of a well-formed descriptor is one a decoder returns (R151). -/
theorem transaction_valid {q : Descriptor} (h : q.wellFormed = true) (t : TxnId) : (q.transaction t).valid = true := by
  obtain ⟨k, hk, hp, -⟩ := (wellFormed_iff q).mp h
  exact (valid_iff _).mpr ⟨k, hk, hp⟩

@[simp] theorem transaction_payload (q : Descriptor) (t : TxnId) : (q.transaction t).payload = q.payload := rfl
@[simp] theorem transaction_infoCode (q : Descriptor) (t : TxnId) : (q.transaction t).infoCode = requestInfo := rfl
@[simp] theorem transaction_transactionID (q : Descriptor) (t : TxnId) : (q.transaction t).transactionID = t := rfl

/-- A frame's length is a function of its payload's length (R67, R152). -/
@[simp] theorem wire_length (T : Transaction) : T.wire.length = frameBytes T.payload.length := by
  simp [Transaction.wire, frameBytes]; omega

theorem payload_le_of_valid {T : Transaction} (h : T.valid = true) : T.payload.length ≤ 255 := by
  obtain ⟨k, -, hp⟩ := (valid_iff T).mp h
  rw [hp]; exact paylen_le ..

/-! ### What the constructors return (R142 to R148) -/

theorem readRequest_wellFormed (a : Word) (n : Count) : (readRequest a n).wellFormed = true := by
  simp [wellFormed_iff, readRequest]; exact ⟨.read, by simp [paylen, TxnKind.cls]⟩

theorem niReadRequest_wellFormed (a : Word) (n : Count) : (niReadRequest a n).wellFormed = true := by
  simp [wellFormed_iff, niReadRequest]; exact ⟨.niRead, by simp [paylen, TxnKind.cls]⟩

theorem cfgReadRequest_wellFormed (a : Word) (n : Count) : (cfgReadRequest a n).wellFormed = true := by
  simp [wellFormed_iff, cfgReadRequest]; exact ⟨.cfgRead, by simp [paylen, TxnKind.cls]⟩

theorem rmwBitsRequest_wellFormed (a x y : Word) : (rmwBitsRequest a x y).wellFormed = true := by
  simp [wellFormed_iff, rmwBitsRequest]; exact ⟨.rmwBits, by simp [paylen]⟩

theorem rmwSumRequest_wellFormed (a x : Word) : (rmwSumRequest a x).wellFormed = true := by
  simp [wellFormed_iff, rmwSumRequest]; exact ⟨.rmwSum, by simp [paylen]⟩

theorem count_of_length {d : List Word} (h : d.length ≤ 255) : (BitVec.ofNat 8 d.length).toNat = d.length := by
  simp; omega

theorem writeRequest_wellFormed {d : List Word} (h : d.length ≤ 255) (a : Word) : (writeRequest a d).wellFormed = true :=
  (wellFormed_iff _).mpr ⟨.write, rfl, by simp [writeRequest, paylen]; omega, by simp [TxnKind.cls]⟩

theorem niWriteRequest_wellFormed {d : List Word} (h : d.length ≤ 255) (a : Word) :
    (niWriteRequest a d).wellFormed = true :=
  (wellFormed_iff _).mpr ⟨.niWrite, rfl, by simp [niWriteRequest, paylen]; omega, by simp [TxnKind.cls]⟩

theorem cfgWriteRequest_wellFormed {d : List Word} (h : d.length ≤ 255) (a : Word) :
    (cfgWriteRequest a d).wellFormed = true :=
  (wellFormed_iff _).mpr ⟨.cfgWrite, rfl, by simp [cfgWriteRequest, paylen]; omega, by simp [TxnKind.cls]⟩

end Sys2Proof
end

