-- ==== Sys2Proof/Laws/Decode.lean ====
section
/-! SUPPORT. The readers of a command image give back what the images hold, and read nothing else (log 6); the wire rows read a
header's fields as R61 to R65 say. -/

namespace Sys2Proof

/-! ### Readers after images -/

@[simp] theorem readByte_cons (b : Byte) (r : List Byte) : readByte (b :: r) = .ok (b, r) := rfl

@[simp] theorem readNibble_image (v : Nibble) (r : List Byte) : readNibble (nibbleImage v ++ r) = .ok (v, r) := by
  have h : (v.setWidth 8).toNat < 16 := by revert v; decide
  have h' : (v.setWidth 8).setWidth 4 = v := by revert v; decide
  simp only [readNibble, nibbleImage, List.cons_append, List.nil_append, h, if_true, h']

@[simp] theorem readPacketId_image (v : PacketId) (r : List Byte) : readPacketId (packetIdImage v ++ r) = .ok (v, r) := by
  have h : (v.extractLsb' 8 8 ++ v.extractLsb' 0 8 : BitVec 16) = v := by
    apply BitVec.eq_of_getLsbD_eq
    intro k hk
    simp only [BitVec.getLsbD_append, BitVec.getLsbD_extractLsb']
    interval_cases k <;> simp
  simp [readPacketId, packetIdImage, h]

theorem txnIdImage_high (v : TxnId) : ((v.setWidth 16).extractLsb' 8 8).toNat < 16 := by
  have := v.isLt
  simp [BitVec.extractLsb'_toNat, Nat.shiftRight_eq_div_pow]; omega

@[simp] theorem readTxnId_image (v : TxnId) (r : List Byte) : readTxnId (txnIdImage v ++ r) = .ok (v, r) := by
  have h : ((v.setWidth 16).extractLsb' 8 8 ++ v.extractLsb' 0 8 : BitVec 16).setWidth 12 = v := by
    apply BitVec.eq_of_getLsbD_eq
    intro k hk
    simp only [BitVec.getLsbD_setWidth, BitVec.getLsbD_append, BitVec.getLsbD_extractLsb']
    interval_cases k <;> simp
  simp only [readTxnId, txnIdImage, List.cons_append, List.nil_append, txnIdImage_high v, if_true, h]

@[simp] theorem readWord_be32 (w : Word) (r : List Byte) : readWord (be32 w ++ r) = .ok (w, r) := by
  simp [readWord, be32]

theorem readNat_groups (fuel n : Nat) (h : n < fuel) (r : List Byte) : readNat (natGroups fuel n ++ r) = .ok (n, r) := by
  induction fuel generalizing n with
  | zero => omega
  | succ fuel ih =>
    unfold natGroups
    split
    · rename_i hn
      have : (BitVec.ofNat 8 n).toNat = n := by simp; omega
      simp only [List.cons_append, List.nil_append, readNat, this, hn, if_true]
    · rename_i hn
      have hb : (BitVec.ofNat 8 (128 + n % 128)).toNat = 128 + n % 128 := by simp; omega
      have hd : n / 128 ≠ 0 := by omega
      simp only [List.cons_append, readNat, hb, ih (n / 128) (by omega), hd, if_false]
      rw [if_neg (by omega)]
      congr 2; omega

@[simp] theorem readNat_image (n : Nat) (r : List Byte) : readNat (natImage n ++ r) = .ok (n, r) :=
  readNat_groups _ _ (by omega) r

/-- A reader of elements reads a list of them. -/
theorem readMany_image {α : Type} {read : Reader α} {image : α → List Byte}
    (h : ∀ x r, read (image x ++ r) = .ok (x, r)) (xs : List α) (r : List Byte) :
    readMany read xs.length ((xs.map image).flatten ++ r) = .ok (xs, r) := by
  induction xs with
  | nil => rfl
  | cons x xs ih => simp [readMany, h, ih]

theorem readSeq_image {α : Type} {read : Reader α} {image : α → List Byte}
    (h : ∀ x r, read (image x ++ r) = .ok (x, r)) (xs : List α) (r : List Byte) :
    readSeq read (seqImage image xs ++ r) = .ok (xs, r) := by
  simp [readSeq, seqImage, readMany_image h]

@[simp] theorem readSeq_words (ws : List Word) (r : List Byte) : readSeq readWord (seqImage be32 ws ++ r) = .ok (ws, r) :=
  readSeq_image readWord_be32 ws r

@[simp] theorem readSeq_bytes (bs r : List Byte) : readSeq readByte (bytesImage bs ++ r) = .ok (bs, r) :=
  readSeq_image (fun _ _ => rfl) bs r

@[simp] theorem readDescriptor_image (q : Descriptor) (r : List Byte) :
    readDescriptor (descriptorImage q ++ r) = .ok (q, r) := by
  simp [readDescriptor, descriptorImage, Reader.andThen, Reader.give]

@[simp] theorem readSeq_descriptors (qs : List Descriptor) (r : List Byte) :
    readSeq readDescriptor (seqImage descriptorImage qs ++ r) = .ok (qs, r) :=
  readSeq_image readDescriptor_image qs r

/-! ### What a reader has read -/

theorem readByte_ok {bs r : List Byte} {b : Byte} (h : readByte bs = .ok (b, r)) : bs = [b] ++ r := by
  cases bs with
  | nil => cases h
  | cons a as => cases h; rfl

theorem readNibble_ok {bs r : List Byte} {v : Nibble} (h : readNibble bs = .ok (v, r)) : bs = nibbleImage v ++ r := by
  cases bs with
  | nil => cases h
  | cons b bs =>
    unfold readNibble at h
    dsimp only at h
    split at h <;> cases h
    rename_i hb
    have : (b.setWidth 4).setWidth 8 = b := by
      apply BitVec.eq_of_toNat_eq; simp; omega
    simp [nibbleImage, this]

theorem readPacketId_ok {bs r : List Byte} {v : PacketId} (h : readPacketId bs = .ok (v, r)) :
    bs = packetIdImage v ++ r := by
  unfold readPacketId at h
  split at h <;> cases h
  rename_i b1 b0
  have h1 : (b1 ++ b0 : BitVec 16).extractLsb' 8 8 = b1 := by
    apply BitVec.eq_of_getLsbD_eq
    intro k hk
    simp only [BitVec.getLsbD_append, BitVec.getLsbD_extractLsb']
    interval_cases k <;> simp
  have h0 : (b1 ++ b0 : BitVec 16).extractLsb' 0 8 = b0 := by
    apply BitVec.eq_of_getLsbD_eq
    intro k hk
    simp only [BitVec.getLsbD_append, BitVec.getLsbD_extractLsb']
    interval_cases k <;> simp
  simp [packetIdImage, h1, h0]

theorem readTxnId_ok {bs r : List Byte} {v : TxnId} (h : readTxnId bs = .ok (v, r)) : bs = txnIdImage v ++ r := by
  unfold readTxnId at h
  split at h <;> try cases h
  rename_i b1 b0 bs'
  split at h <;> cases h
  rename_i hb
  have hbit : ∀ k, 4 ≤ k → b1.getLsbD k = false := fun k hk => by
    rw [← BitVec.testBit_toNat]
    exact Nat.testBit_lt_two_pow (Nat.lt_of_lt_of_le (show b1.toNat < 2 ^ 4 from hb) (Nat.pow_le_pow_right (by omega) hk))
  have h1 : (((b1 ++ b0 : BitVec 16).setWidth 12).setWidth 16).extractLsb' 8 8 = b1 := by
    apply BitVec.eq_of_getLsbD_eq
    intro k hk
    simp only [BitVec.getLsbD_setWidth, BitVec.getLsbD_append, BitVec.getLsbD_extractLsb']
    by_cases h4 : 4 ≤ k
    · have := hbit k h4; interval_cases k <;> simp_all
    · interval_cases k <;> simp_all
  have h0 : ((b1 ++ b0 : BitVec 16).setWidth 12).extractLsb' 0 8 = b0 := by
    apply BitVec.eq_of_getLsbD_eq
    intro k hk
    simp only [BitVec.getLsbD_setWidth, BitVec.getLsbD_append, BitVec.getLsbD_extractLsb']
    interval_cases k <;> simp
  simp [txnIdImage, h1, h0]

theorem readWord_ok {bs r : List Byte} {w : Word} (h : readWord bs = .ok (w, r)) : bs = be32 w ++ r := by
  unfold readWord at h
  split at h <;> cases h
  rw [be32_wordOfBytes]; rfl

/-- The groups do not depend on the fuel once it is enough. -/
theorem natGroups_fuel (f g n : Nat) (hf : n < f) (hg : n < g) : natGroups f n = natGroups g n := by
  induction f generalizing g n with
  | zero => omega
  | succ f ih =>
    obtain ⟨g, rfl⟩ : ∃ g', g = g' + 1 := ⟨g - 1, by omega⟩
    unfold natGroups
    split
    · rfl
    · rw [ih g (n / 128) (by omega) (by omega)]

theorem natImage_small {n : Nat} (h : n < 128) : natImage n = [BitVec.ofNat 8 n] := by
  simp [natImage, natGroups, h]

theorem natImage_large {n : Nat} (h : 128 ≤ n) : natImage n = BitVec.ofNat 8 (128 + n % 128) :: natImage (n / 128) := by
  have : ¬ n < 128 := by omega
  conv_lhs => unfold natImage natGroups
  rw [if_neg this, natImage, natGroups_fuel n (n / 128 + 1) (n / 128) (by omega) (by omega)]

theorem readNat_ok {bs r : List Byte} {n : Nat} (h : readNat bs = .ok (n, r)) : bs = natImage n ++ r := by
  induction bs generalizing n r with
  | nil => cases h
  | cons b bs ih =>
    have hlt := b.isLt
    unfold readNat at h
    split at h
    · rename_i hb
      cases h
      rw [natImage_small hb]
      simp
    · rename_i hb
      split at h
      · cases h
      · rename_i m rest hm
        split at h
        · cases h
        · rename_i hm0
          cases h
          have e : 128 + (b.toNat - 128 + 128 * m) % 128 = b.toNat := by omega
          have e' : (b.toNat - 128 + 128 * m) / 128 = m := by omega
          rw [natImage_large (by omega), e, e', ih hm]
          simp

theorem readMany_ok {α : Type} {read : Reader α} {image : α → List Byte}
    (h : ∀ {bs x r}, read bs = .ok (x, r) → bs = image x ++ r) {n : Nat} {bs r : List Byte} {xs : List α}
    (hr : readMany read n bs = .ok (xs, r)) : xs.length = n ∧ bs = (xs.map image).flatten ++ r := by
  induction n generalizing bs xs with
  | zero => cases hr; simp
  | succ n ih =>
    unfold readMany at hr
    split at hr
    · cases hr
    · rename_i x rest hx
      split at hr <;> cases hr
      rename_i xs' hxs
      obtain ⟨hl, hb⟩ := ih hxs
      exact ⟨by simp [hl], by rw [h hx, hb]; simp⟩

theorem readSeq_ok {α : Type} {read : Reader α} {image : α → List Byte}
    (h : ∀ {bs x r}, read bs = .ok (x, r) → bs = image x ++ r) {bs r : List Byte} {xs : List α}
    (hr : readSeq read bs = .ok (xs, r)) : bs = seqImage image xs ++ r := by
  unfold readSeq at hr
  split at hr
  · cases hr
  · rename_i n rest hn
    obtain ⟨rfl, hb⟩ := readMany_ok h hr
    rw [readNat_ok hn, hb, seqImage, List.append_assoc]

/-- One reader after another has read what the first read, then what the second read. -/
theorem andThen_ok {α β : Type} {read : Reader α} {next : α → Reader β} {bs r : List Byte} {y : β}
    (h : Reader.andThen read next bs = .ok (y, r)) : ∃ x rest, read bs = .ok (x, rest) ∧ next x rest = .ok (y, r) := by
  unfold Reader.andThen at h
  split at h
  · cases h
  · rename_i x rest hx; exact ⟨x, rest, hx, h⟩

theorem give_ok {α : Type} {x y : α} {bs r : List Byte} (h : Reader.give x bs = .ok (y, r)) : x = y ∧ bs = r := by
  cases h; exact ⟨rfl, rfl⟩

theorem readDescriptor_ok {bs r : List Byte} {q : Descriptor} (h : readDescriptor bs = .ok (q, r)) :
    bs = descriptorImage q ++ r := by
  obtain ⟨y, r1, h1, h⟩ := andThen_ok h
  obtain ⟨c, r2, h2, h⟩ := andThen_ok h
  obtain ⟨a, r3, h3, h⟩ := andThen_ok h
  obtain ⟨ps, r4, h4, h⟩ := andThen_ok h
  obtain ⟨rfl, rfl⟩ := give_ok h
  rw [readNibble_ok h1, readByte_ok h2, readWord_ok h3, readSeq_ok readWord_ok h4]
  simp [descriptorImage]

/-! ### Command codes (R76) -/

@[simp] theorem ofCode_opCode (op : Op) : Op.ofCode op.code = some op := by cases op <;> rfl

theorem code_of_ofCode {b : Byte} {op : Op} (h : Op.ofCode b = some op) : op.code = b := by
  revert b; cases op <;> decide +kernel

/-! ### The command port reports no wire failure -/

/-- A reader of the command port fails for a reason of its own, never with a failure of the parser. -/
def OwnErrors {α : Type} (read : Reader α) : Prop := ∀ bs k, read bs ≠ .error (.wire k)

theorem ownErrors_give {α : Type} (x : α) : OwnErrors (Reader.give x) := fun _ _ h => by cases h

theorem ownErrors_andThen {α β : Type} {read : Reader α} {next : α → Reader β} (h : OwnErrors read)
    (hn : ∀ x, OwnErrors (next x)) : OwnErrors (Reader.andThen read next) := fun bs k he => by
  unfold Reader.andThen at he
  split at he
  · rename_i e h'; cases he; exact h bs k h'
  · exact hn _ _ k he

theorem ownErrors_byte : OwnErrors readByte := fun bs k h => by cases bs <;> cases h

theorem ownErrors_nibble : OwnErrors readNibble := fun bs k h => by
  cases bs with
  | nil => cases h
  | cons b bs => simp only [readNibble] at h; split at h <;> cases h

theorem ownErrors_txnId : OwnErrors readTxnId := fun bs k h => by
  unfold readTxnId at h
  repeat' split at h
  all_goals cases h

theorem ownErrors_packetId : OwnErrors readPacketId := fun bs k h => by
  unfold readPacketId at h
  split at h <;> cases h

theorem ownErrors_word : OwnErrors readWord := fun bs k h => by
  unfold readWord at h
  split at h <;> cases h

theorem ownErrors_nat : OwnErrors readNat := fun bs k h => by
  induction bs with
  | nil => cases h
  | cons b bs ih =>
    unfold readNat at h
    split at h
    · cases h
    · split at h
      · rename_i e he; cases h; exact ih he
      · split at h <;> cases h

theorem ownErrors_many {α : Type} {read : Reader α} (hr : OwnErrors read) (n : Nat) : OwnErrors (readMany read n) := by
  induction n with
  | zero => intro bs k h; cases h
  | succ n ih =>
    intro bs k h
    unfold readMany at h
    split at h
    · rename_i e he; cases h; exact hr _ _ he
    · split at h
      · rename_i e he; cases h; exact ih _ _ he
      · cases h

theorem ownErrors_seq {α : Type} {read : Reader α} (hr : OwnErrors read) : OwnErrors (readSeq read) := fun bs k h => by
  unfold readSeq at h
  split at h
  · rename_i e he; cases h; exact ownErrors_nat _ _ he
  · exact ownErrors_many hr _ _ _ h

theorem ownErrors_descriptor : OwnErrors readDescriptor :=
  ownErrors_andThen ownErrors_nibble fun _ => ownErrors_andThen ownErrors_byte fun _ =>
    ownErrors_andThen ownErrors_word fun _ => ownErrors_andThen (ownErrors_seq ownErrors_word) fun _ => ownErrors_give _

theorem ownErrors_operands (op : Op) : OwnErrors (readOperands op) := by
  cases op
  all_goals
    repeat' first
      | exact ownErrors_give _
      | refine ownErrors_andThen ?_ fun _ => ?_
      | exact ownErrors_nibble
      | exact ownErrors_byte
      | exact ownErrors_word
      | exact ownErrors_txnId
      | exact ownErrors_packetId
      | exact ownErrors_nat
      | exact ownErrors_descriptor
      | exact ownErrors_seq ownErrors_byte
      | exact ownErrors_seq ownErrors_word
      | exact ownErrors_seq ownErrors_descriptor

/-! ### A reader looks no further than what it reads -/

/-- How an answer on some bytes stands to the answer on the same bytes with more behind them: what has been read stays read and
the rest is longer; a failure other than that of an image that ends early stays. -/
def Extends {α : Type} (more : List Byte) (a b : Except DecodeError (α × List Byte)) : Prop :=
  match a with
  | .ok (x, r) => b = .ok (x, r ++ more)
  | .error e => e = .incompleteCommand ∨ b = .error e

/-- Bytes that follow do not change what a reader has read. -/
def Streaming {α : Type} (read : Reader α) : Prop := ∀ bs more, Extends more (read bs) (read (bs ++ more))

theorem Streaming.ok {α : Type} {read : Reader α} (h : Streaming read) {bs r : List Byte} {x : α}
    (hr : read bs = .ok (x, r)) (more : List Byte) : read (bs ++ more) = .ok (x, r ++ more) := by
  have := h bs more
  rwa [hr] at this

theorem Streaming.error {α : Type} {read : Reader α} (h : Streaming read) {bs : List Byte} {e : DecodeError}
    (hr : read bs = .error e) (more : List Byte) : e = .incompleteCommand ∨ read (bs ++ more) = .error e := by
  have := h bs more
  rwa [hr] at this

theorem streaming_give {α : Type} (x : α) : Streaming (Reader.give x) := fun _ _ => rfl

theorem streaming_andThen {α β : Type} {read : Reader α} {next : α → Reader β} (h : Streaming read)
    (hn : ∀ x, Streaming (next x)) : Streaming (Reader.andThen read next) := fun bs more => by
  unfold Reader.andThen
  cases hr : read bs with
  | error e => exact (h.error hr more).imp id fun h' => by rw [h']
  | ok y =>
    rw [h.ok hr more]
    exact hn y.1 y.2 more

theorem streaming_byte : Streaming readByte
  | [], _ => Or.inl rfl
  | _ :: _, _ => rfl

theorem streaming_nibble : Streaming readNibble
  | [], _ => Or.inl rfl
  | b :: bs, more => by
    simp only [readNibble, List.cons_append]
    split
    · rfl
    · exact Or.inr rfl

theorem streaming_txnId : Streaming readTxnId
  | [], _ | [_], _ => Or.inl rfl
  | b1 :: b0 :: bs, more => by
    simp only [readTxnId, List.cons_append]
    split
    · rfl
    · exact Or.inr rfl

theorem streaming_packetId : Streaming readPacketId
  | [], _ | [_], _ => Or.inl rfl
  | _ :: _ :: _, _ => rfl

theorem streaming_word : Streaming readWord
  | [], _ | [_], _ | [_, _], _ | [_, _, _], _ => Or.inl rfl
  | _ :: _ :: _ :: _ :: _, _ => rfl

theorem streaming_nat : Streaming readNat := fun bs more => by
  induction bs with
  | nil => exact Or.inl rfl
  | cons b bs ih =>
    simp only [readNat, List.cons_append]
    split
    · rfl
    · cases hr : readNat bs with
      | error e =>
        rw [hr] at ih
        exact ih.imp id fun h' => by rw [h']
      | ok y =>
        rw [hr] at ih
        have h' : readNat (bs ++ more) = .ok (y.1, y.2 ++ more) := ih
        simp only [h']
        split
        · exact Or.inl rfl
        · rfl

/-- Several values are one value and then the others. -/
theorem readMany_succ {α : Type} (read : Reader α) (n : Nat) :
    readMany read (n + 1) =
      Reader.andThen read fun x => Reader.andThen (readMany read n) fun xs => Reader.give (x :: xs) := by
  funext bs
  simp only [readMany, Reader.andThen, Reader.give]
  cases read bs with
  | error e => rfl
  | ok y =>
    dsimp only
    cases readMany read n y.2 <;> rfl

/-- A sequence is its length and then its elements. -/
theorem readSeq_eq_andThen {α : Type} (read : Reader α) :
    readSeq read = Reader.andThen readNat fun n => readMany read n := by
  funext bs
  simp only [readSeq, Reader.andThen]
  cases readNat bs <;> rfl

theorem streaming_many {α : Type} {read : Reader α} (hr : Streaming read) (n : Nat) : Streaming (readMany read n) := by
  induction n with
  | zero => exact fun _ _ => rfl
  | succ n ih =>
    rw [readMany_succ]
    exact streaming_andThen hr fun _ => streaming_andThen ih fun _ => streaming_give _

theorem streaming_seq {α : Type} {read : Reader α} (hr : Streaming read) : Streaming (readSeq read) := by
  rw [readSeq_eq_andThen]
  exact streaming_andThen streaming_nat fun n => streaming_many hr n

theorem streaming_descriptor : Streaming readDescriptor :=
  streaming_andThen streaming_nibble fun _ => streaming_andThen streaming_byte fun _ =>
    streaming_andThen streaming_word fun _ => streaming_andThen (streaming_seq streaming_word) fun _ => streaming_give _

theorem streaming_operands (op : Op) : Streaming (readOperands op) := by
  cases op
  all_goals
    repeat' first
      | exact streaming_give _
      | refine streaming_andThen ?_ fun _ => ?_
      | exact streaming_nibble
      | exact streaming_byte
      | exact streaming_word
      | exact streaming_txnId
      | exact streaming_packetId
      | exact streaming_nat
      | exact streaming_descriptor
      | exact streaming_seq streaming_byte
      | exact streaming_seq streaming_word
      | exact streaming_seq streaming_descriptor

theorem streaming_command : Streaming readCommand
  | [], _ => Or.inl rfl
  | code :: bs, more => by
    simp only [readCommand, List.cons_append]
    cases Op.ofCode code with
    | none => exact Or.inr rfl
    | some op => exact streaming_operands op bs more

/-- A whole image is a read that leaves nothing. -/
theorem decodeCommand_ok_iff (bytes : List Byte) (i : Instr) :
    decodeCommand bytes = .ok i ↔ readCommand bytes = .ok (i, []) := by
  unfold decodeCommand
  cases h : readCommand bytes with
  | error e => simp
  | ok y =>
    obtain ⟨j, r⟩ := y
    cases r <;> simp

/-- An image with bytes after it is overlong (log 6). -/
theorem decodeCommand_overlong {bytes extra : List Byte} {i : Instr} (h : decodeCommand bytes = .ok i) (he : extra ≠ []) :
    decodeCommand (bytes ++ extra) = .error .overlongCommand := by
  have := streaming_command.ok ((decodeCommand_ok_iff _ _).mp h) extra
  cases extra with
  | nil => exact absurd rfl he
  | cons b bs => simp only [decodeCommand, this, List.nil_append]

/-- An image cut short is incomplete (log 6). -/
theorem decodeCommand_incomplete {bytes extra : List Byte} {i : Instr} (h : decodeCommand (bytes ++ extra) = .ok i)
    (he : extra ≠ []) : decodeCommand bytes = .error .incompleteCommand := by
  have hw := (decodeCommand_ok_iff _ _).mp h
  cases hr : readCommand bytes with
  | error e =>
    rcases streaming_command.error hr extra with rfl | h'
    · simp only [decodeCommand, hr]
    · rw [h'] at hw; cases hw
  | ok y =>
    have := streaming_command.ok hr extra
    rw [hw] at this
    simp only [Except.ok.injEq, Prod.mk.injEq] at this
    exact absurd (List.append_eq_nil_iff.mp this.2.symm).2 he

/-- A sequence stops at the first element its reader fails on, whatever stands before it. -/
theorem readMany_error {α : Type} {read : Reader α} {image : α → List Byte}
    (h : ∀ x r, read (image x ++ r) = .ok (x, r)) {bad : List Byte} {e : DecodeError} (hb : read bad = .error e)
    (xs : List α) {n : Nat} (hn : xs.length < n) : readMany read n ((xs.map image).flatten ++ bad) = .error e := by
  induction xs generalizing n with
  | nil =>
    obtain ⟨n, rfl⟩ : ∃ m, n = m + 1 := ⟨n - 1, by simp at hn; omega⟩
    simp [readMany, hb]
  | cons x xs ih =>
    obtain ⟨n, rfl⟩ : ∃ m, n = m + 1 := ⟨n - 1, by simp at hn; omega⟩
    have : readMany read n ((xs.map image).flatten ++ bad) = .error e := ih (by simpa using hn)
    simp [readMany, h, this]

/-- A byte of 16 or more is no `bits(4)` (R233, U12). -/
theorem readNibble_wide {b : Byte} (hb : 16 ≤ b.toNat) (r : List Byte) : readNibble (b :: r) = .error .operandOutsideType := by
  simp only [readNibble, Nat.not_lt.mpr hb, if_false]

theorem readDescriptor_wide {b : Byte} (hb : 16 ≤ b.toNat) (r : List Byte) :
    readDescriptor (b :: r) = .error .operandOutsideType := by
  simp only [readDescriptor, Reader.andThen, readNibble_wide hb]

/-- A command image that is no command is refused, not answered (R233). -/
theorem decodeCommand_error (bytes : List Byte) (k : FailureKind) : decodeCommand bytes ≠ .error (.wire k) := by
  intro h
  unfold decodeCommand readCommand at h
  cases bytes with
  | nil => cases h
  | cons b bs =>
    dsimp only at h
    cases ho : Op.ofCode b with
    | none => simp [ho] at h
    | some op =>
      simp only [ho] at h
      split at h
      · rename_i e he; cases h; exact ownErrors_operands op _ _ he
      · cases h
      · cases h

/-! ### Wire rows (R62, R64, R65) -/

theorem and_typeMask (w : Word) :
    w &&& 0xF000000F = ((pktFields w).version ++ (0 : BitVec 24) ++ (pktFields w).packetType : BitVec 32) := by
  apply BitVec.eq_of_getLsbD_eq
  intro k hk
  simp only [pktFields, BitVec.getLsbD_and, BitVec.getLsbD_append, BitVec.getLsbD_extractLsb']
  interval_cases k <;> simp

theorem and_requestMask (w : Word) :
    w &&& 0xF00000FF =
      ((txnFields w).version ++ (0 : BitVec 20) ++ (txnFields w).typeID ++ (txnFields w).infoCode : BitVec 32) := by
  apply BitVec.eq_of_getLsbD_eq
  intro k hk
  simp only [txnFields, BitVec.getLsbD_and, BitVec.getLsbD_append, BitVec.getLsbD_extractLsb']
  interval_cases k <;> simp

theorem and_responseMask (w : Word) :
    w &&& 0xF00000F0 = ((txnFields w).version ++ (0 : BitVec 20) ++ (txnFields w).typeID ++ (0 : BitVec 4) : BitVec 32) := by
  apply BitVec.eq_of_getLsbD_eq
  intro k hk
  simp only [txnFields, BitVec.getLsbD_and, BitVec.getLsbD_append, BitVec.getLsbD_extractLsb']
  interval_cases k <;> simp

theorem and_unsupportedMask (w : Word) :
    w &&& 0xF0000080 =
      ((txnFields w).version ++ (0 : BitVec 20) ++ (txnFields w).typeID.extractLsb' 3 1 ++ (0 : BitVec 7) : BitVec 32) := by
  apply BitVec.eq_of_getLsbD_eq
  intro k hk
  simp only [txnFields, BitVec.getLsbD_and, BitVec.getLsbD_append, BitVec.getLsbD_extractLsb']
  interval_cases k <;> simp

/-- Which packet row a word is, by its version and packet type (R61, R62). -/
def pktRowOf (version packetType : Nibble) : Option PktRow :=
  if version ≠ protocolVersion then none
  else if packetType = controlType then some .control
  else if packetType = statusType then some .status
  else if packetType = resendType then some .resend
  else none

/-- Which transaction row a word is, by its version, type and info code (R63, R64, R65). -/
def txnRowOf (version typeID infoCode : Nibble) : Option TxnRow :=
  if version ≠ protocolVersion then none
  else
    match TxnKind.ofCode typeID with
    | none => some .unsupported
    | some k => if infoCode = requestInfo then some (.request k) else some (.response k)

theorem matchRow_pktRows (w : Word) : matchRow pktRows w = pktRowOf (pktFields w).version (pktFields w).packetType := by
  simp only [matchRow, pktRows, List.find?, and_typeMask]
  generalize (pktFields w).version = v
  generalize (pktFields w).packetType = t
  revert v t
  decide +kernel

theorem matchRow_txnRows (w : Word) :
    matchRow txnRows w = txnRowOf (txnFields w).version (txnFields w).typeID (txnFields w).infoCode := by
  simp only [matchRow, txnRows, List.find?, and_requestMask, and_responseMask, and_unsupportedMask]
  generalize (txnFields w).version = v
  generalize (txnFields w).typeID = y
  generalize (txnFields w).infoCode = i
  revert v y i
  decide +kernel

/-- Where a type is unsupported its top bit is set and the row keeps the other three (R213). -/
theorem typeLow_of_unsupported (w : Word) (h : TxnKind.ofCode (txnFields w).typeID = none) :
    (1#1 ++ w.extractLsb' 4 3 : BitVec 4) = (txnFields w).typeID := by
  have hx : w.extractLsb' 4 3 = (txnFields w).typeID.setWidth 3 := by
    apply BitVec.eq_of_getLsbD_eq
    intro k hk
    simp only [txnFields, BitVec.getLsbD_setWidth, BitVec.getLsbD_extractLsb']
    interval_cases k <;> simp
  rw [hx]
  revert h
  generalize (txnFields w).typeID = y
  revert y
  decide

end Sys2Proof
end

