-- ==== Sys2Proof/Laws/State.lean ====
section
/-! SUPPORT. One lemma per field per update of the state: no later proof unfolds an update. -/

namespace Sys2Proof.Machine

@[simp] theorem readPid_eq (s : State) : readPid s = s.pid := rfl
@[simp] theorem readTid_eq (s : State) : readTid s = s.tid := rfl

@[simp] theorem writePid_pid (v : PacketId) (s : State) : (writePid v s).pid = v := rfl
@[simp] theorem writePid_tid (v : PacketId) (s : State) : (writePid v s).tid = s.tid := rfl
@[simp] theorem writePid_config (v : PacketId) (s : State) : (writePid v s).config = s.config := rfl
@[simp] theorem writePid_input (v : PacketId) (s : State) : (writePid v s).input = s.input := rfl
@[simp] theorem writePid_outcome (v : PacketId) (s : State) : (writePid v s).outcome = s.outcome := rfl

@[simp] theorem writeTid_pid (v : TxnId) (s : State) : (writeTid v s).pid = s.pid := rfl
@[simp] theorem writeTid_tid (v : TxnId) (s : State) : (writeTid v s).tid = v := rfl
@[simp] theorem writeTid_config (v : TxnId) (s : State) : (writeTid v s).config = s.config := rfl
@[simp] theorem writeTid_input (v : TxnId) (s : State) : (writeTid v s).input = s.input := rfl
@[simp] theorem writeTid_outcome (v : TxnId) (s : State) : (writeTid v s).outcome = s.outcome := rfl

@[simp] theorem respond_pid (r : Response) (s : State) : (respond r s).pid = s.pid := rfl
@[simp] theorem respond_tid (r : Response) (s : State) : (respond r s).tid = s.tid := rfl
@[simp] theorem respond_config (r : Response) (s : State) : (respond r s).config = s.config := rfl
@[simp] theorem respond_input (r : Response) (s : State) : (respond r s).input = s.input := rfl
@[simp] theorem respond_outcome (r : Response) (s : State) : (respond r s).outcome = s.outcome ++ [r] := rfl

@[simp] theorem takeEvent_pid (s : State) : (takeEvent s).pid = s.pid := rfl
@[simp] theorem takeEvent_tid (s : State) : (takeEvent s).tid = s.tid := rfl
@[simp] theorem takeEvent_config (s : State) : (takeEvent s).config = s.config := rfl
@[simp] theorem takeEvent_input (s : State) : (takeEvent s).input = s.input.tail := rfl
@[simp] theorem takeEvent_outcome (s : State) : (takeEvent s).outcome = s.outcome := rfl

@[simp] theorem hardwareReset_pid (s : State) : (hardwareReset s).pid = 0 := rfl
@[simp] theorem hardwareReset_tid (s : State) : (hardwareReset s).tid = 0 := rfl
@[simp] theorem hardwareReset_config (s : State) : (hardwareReset s).config = s.config := rfl
@[simp] theorem hardwareReset_input (s : State) : (hardwareReset s).input = s.input := rfl
@[simp] theorem hardwareReset_outcome (s : State) : (hardwareReset s).outcome = s.outcome := rfl

@[simp] theorem reset_pid : State.reset.pid = 0 := rfl
@[simp] theorem reset_tid : State.reset.tid = 0 := rfl
@[simp] theorem reset_config : State.reset.config = ⟨183⟩ := rfl
@[simp] theorem reset_input : State.reset.input = [] := rfl
@[simp] theorem reset_outcome : State.reset.outcome = [] := rfl

/-- Two states with the same fields are the same state. -/
theorem State.eq_of_fields {s t : State} (hp : s.pid = t.pid) (ht : s.tid = t.tid) (hc : s.config = t.config)
    (hi : s.input = t.input) (ho : s.outcome = t.outcome) : s = t := by
  cases s; cases t; simp_all

/-- The order of answering and of writing a counter does not matter. -/
theorem respond_writePid (r : Response) (v : PacketId) (s : State) :
    respond r (writePid v s) = writePid v (respond r s) := rfl

theorem respond_writeTid (r : Response) (v : TxnId) (s : State) :
    respond r (writeTid v s) = writeTid v (respond r s) := rfl

/-- The counter steps are the wrapping increments (R129). -/
theorem inc16_eq (v : PacketId) : inc16 v = v + 1 := by
  unfold inc16; split <;> simp_all

theorem inc12_eq (v : TxnId) : inc12 v = v + 1 := by
  unfold inc12; split <;> simp_all

/-- A run of the machine is a step and a shorter run. -/
theorem run_succ (M : Host.Core) (n : Nat) (s : M.State) :
    M.run (n + 1) s = match M.step s with
      | .next t => M.run n t
      | .fault r => .fault r
      | .refused r => .refused r := by rfl

theorem core_run_succ (n : Nat) (s : State) :
    core.run (n + 1) s = match step s with
      | .next t => core.run n t
      | .fault r => .fault r
      | .refused r => .refused r := by
  have h : core.step s = step s := rfl
  rw [run_succ core n s]
  cases e : step s <;> simp [h, e]

end Sys2Proof.Machine
end

