-- ==== Sys2Proof/Laws/Parse.lean ====
section
/-! SUPPORT. The parsers of R150 and R172: what they answer on a frame, what an answer says of the buffer, that they look at
the bytes from their offset on only, and that the pass bound of the packet loop is never felt (R229). -/

namespace Sys2Proof.Machine

/-- The parser looks at the bytes from the offset on only; the offset after the frame moves along. -/
theorem parseTxn_append (pre rx : List Byte) (off : Nat) :
    parseTxn (pre ++ rx) (pre.length + off) = (parseTxn rx off).map fun r => (r.1, pre.length + r.2) := by
  have h4 := rxWord_append pre rx (off + 4)
  have h8 := fun n => rxWords_append pre rx (off + 8) n
  simp only [← Nat.add_assoc] at h4 h8
  simp only [parseTxn, rxWord_append, h4, h8]
  split
  · rfl
  · split
    · rfl
    · split
      · rfl
      · split
        · rfl
        · split
          · rfl
          · simp [Except.map, Nat.add_assoc]

/-- A frame of a valid Transaction parses to it, whatever follows (R150, R151). -/
theorem parseTxn_wire {T : Transaction} (h : T.valid = true) (rest : List Byte) :
    parseTxn (T.wire ++ rest) 0 = .ok (T, frameBytes T.payload.length) := by
  obtain ⟨k, hk, hp⟩ := (valid_iff T).mp h
  have h4 := rxWord_append (be32 (assembleTxnHdr T.transactionID T.wordCount T.typeID T.infoCode))
    (be32 T.baseAddress ++ (be32s T.payload ++ rest)) 0
  have h8 := rxWords_append (be32 (assembleTxnHdr T.transactionID T.wordCount T.typeID T.infoCode) ++ be32 T.baseAddress)
    (be32s T.payload ++ rest) 0 T.payload.length
  simp only [be32_length, Nat.add_zero, rxWord_be32, List.length_append, List.append_assoc] at h4 h8
  simp only [parseTxn, Transaction.wire, List.append_assoc, rxWord_be32, txnFields_assemble, ne_eq, not_true_eq_false,
    if_false, hk, ofCode_code, Nat.zero_add]
  rw [← hk]
  simp only [h4, ← hp, h8, rxWords_be32s]

/-- What an answer of the parser says of the buffer: a frame of a valid Transaction stands at the offset (R150). -/
theorem parseTxn_ok {rx : List Byte} {off next : Nat} {T : Transaction} (h : parseTxn rx off = .ok (T, next)) :
    T.valid = true ∧ next = off + frameBytes T.payload.length ∧ rx.drop off = T.wire ++ rx.drop next := by
  unfold parseTxn at h
  split at h
  · cases h
  rename_i w hw
  dsimp only at h
  split at h
  · cases h
  rename_i hv
  simp only [ne_eq, Decidable.not_not] at hv
  split at h
  · cases h
  rename_i k hk
  split at h
  · cases h
  rename_i a ha
  split at h
  · cases h
  rename_i ps hps
  obtain ⟨hl, hd⟩ := rxWords_eq_some hps
  have hn := congrArg Prod.snd (Except.ok.inj h)
  have hT := congrArg Prod.fst (Except.ok.inj h)
  dsimp only at hn hT
  subst hT hn
  refine ⟨(valid_iff _).mpr ⟨k, (ofCode_eq_some_iff _ _).mp hk, hl⟩, rfl, ?_⟩
  rw [rxWord_eq_some hw, rxWord_eq_some ha, hd]
  simp only [Transaction.wire, assemble_txnFields hv, hl, frameBytes, List.append_assoc, Nat.add_assoc]

/-- The kinds of failure the parser can report (R150). -/
theorem parseTxn_error {rx : List Byte} {off : Nat} {k : FailureKind} (h : parseTxn rx off = .error k) :
    k = .truncatedInput ∨ k = .protocolVersionMismatch ∨ k = .unsupportedTransactionType := by
  unfold parseTxn at h
  split at h
  · cases h; simp
  dsimp only at h
  split at h
  · cases h; simp
  split at h
  · cases h; simp
  split at h
  · cases h; simp
  split at h <;> cases h
  simp

/-- Each frame is at least 8 bytes and lies inside the buffer, so the offset strictly increases (R229). -/
theorem parseTxn_advances {rx : List Byte} {off next : Nat} {T : Transaction} (h : parseTxn rx off = .ok (T, next)) :
    off + 8 ≤ next ∧ next ≤ rx.length := by
  obtain ⟨-, hn, hd⟩ := parseTxn_ok h
  have hl := congrArg List.length hd
  simp only [List.length_drop, List.length_append, wire_length] at hl
  have : frameBytes T.payload.length = 8 + 4 * T.payload.length := rfl
  omega

/-- The packet loop looks at the bytes from its offset on only. -/
theorem parseTxns_append (pre rx : List Byte) (passes off : Nat) :
    parseTxns (pre ++ rx) (pre.length + off) passes = parseTxns rx off passes := by
  induction passes generalizing off with
  | zero => unfold parseTxns; simp
  | succ n ih =>
    unfold parseTxns
    simp only [List.length_append, Nat.add_le_add_iff_left, parseTxn_append]
    split
    · rfl
    · cases parseTxn rx off with
      | error k => rfl
      | ok r => simp [Except.map, ih]

/-- Any number of passes that reaches the end of the buffer gives the same answer: the bound is never felt (R229). -/
theorem parseTxns_passes {rx : List Byte} {off : Nat} (m n : Nat) (hm : rx.length ≤ off + m) (hn : rx.length ≤ off + n) :
    parseTxns rx off m = parseTxns rx off n := by
  induction m generalizing off n with
  | zero =>
    unfold parseTxns
    have : rx.length ≤ off := by omega
    simp [this]
  | succ m ih =>
    by_cases hoff : rx.length ≤ off
    · unfold parseTxns; simp [hoff]
    · obtain ⟨n, rfl⟩ : ∃ n', n = n' + 1 := ⟨n - 1, by omega⟩
      unfold parseTxns
      simp only [hoff, if_false]
      cases hp : parseTxn rx off with
      | error k => rfl
      | ok r =>
        have := parseTxn_advances hp
        simp only
        rw [ih n (by omega) (by omega)]

/-- One pass of the packet loop, with enough passes. -/
theorem parseTxns_step {rx : List Byte} {off : Nat} (hoff : off < rx.length) :
    parseTxns rx off rx.length =
      match parseTxn rx off with
      | .error k => .error k
      | .ok (T, next) => (parseTxns rx next rx.length).map (T :: ·) := by
  rw [parseTxns_passes rx.length (rx.length + 1) (by omega) (by omega), parseTxns]
  cases parseTxn rx off <;> simp only [Nat.not_le.mpr hoff, if_false]

/-- The frames of valid Transactions parse to them, and the loop goes on behind them (R172, R175). -/
theorem parseTxns_wire {Ts : List Transaction} (h : ∀ T ∈ Ts, T.valid = true) (pre rest : List Byte) (passes : Nat)
    (hp : (pre ++ ((Ts.map Transaction.wire).flatten ++ rest)).length ≤ pre.length + passes) :
    parseTxns (pre ++ ((Ts.map Transaction.wire).flatten ++ rest)) pre.length passes =
      (parseTxns rest 0 rest.length).map (Ts ++ ·) := by
  induction Ts generalizing pre passes with
  | nil =>
    have := parseTxns_append pre rest passes 0
    simp only [Nat.add_zero] at this
    simp only [List.map_nil, List.flatten_nil, List.nil_append, this]
    simp only [List.map_nil, List.flatten_nil, List.nil_append, List.length_append] at hp
    rw [parseTxns_passes passes rest.length (by omega) (by omega)]
    cases parseTxns rest 0 rest.length <;> rfl
  | cons T Ts ih =>
    have hT := h T (by simp)
    have hT8 : T.wire.length = 8 + 4 * T.payload.length := by rw [wire_length]; rfl
    simp only [List.map_cons, List.flatten_cons, List.append_assoc] at hp ⊢
    simp only [List.length_append] at hp
    obtain ⟨n, rfl⟩ : ∃ n, passes = n + 1 := ⟨passes - 1, by omega⟩
    have hparse := parseTxn_append pre (T.wire ++ ((Ts.map Transaction.wire).flatten ++ rest)) 0
    rw [parseTxn_wire hT] at hparse
    have hih := ih (fun T' hT' => h T' (by simp [hT'])) (pre ++ T.wire) n (by simp only [List.length_append]; omega)
    simp only [List.append_assoc, List.length_append, wire_length] at hih
    conv_lhs => unfold parseTxns
    rw [if_neg (by simp only [List.length_append]; omega)]
    simp only [Nat.add_zero, Except.map] at hparse
    simp only [hparse, hih]
    cases parseTxns rest 0 rest.length <;> rfl

/-- What an answer of the packet loop says of the buffer: the frames of valid Transactions stand from the offset to the end
(R172). -/
theorem parseTxns_ok {rx : List Byte} {off passes : Nat} {Ts : List Transaction} (h : parseTxns rx off passes = .ok Ts) :
    (∀ T ∈ Ts, T.valid = true) ∧ rx.drop off = (Ts.map Transaction.wire).flatten := by
  induction passes generalizing off Ts with
  | zero =>
    unfold parseTxns at h
    split at h
    · cases h; simp; assumption
    · cases h
  | succ n ih =>
    unfold parseTxns at h
    split at h
    · cases h; simp; assumption
    · cases hp : parseTxn rx off with
      | error k => simp [hp] at h
      | ok r =>
        obtain ⟨T, next⟩ := r
        simp only [hp] at h
        cases hq : parseTxns rx next n with
        | error k => simp [hq, Except.map] at h
        | ok Ts' =>
          simp only [hq, Except.map, Except.ok.injEq] at h
          subst h
          obtain ⟨hv, hd⟩ := ih hq
          obtain ⟨hTv, -, hTd⟩ := parseTxn_ok hp
          refine ⟨by simpa using ⟨hTv, hv⟩, ?_⟩
          rw [hTd, hd]; rfl

/-- The kinds of failure the packet loop can report (R172). -/
theorem parseTxns_error {rx : List Byte} {off passes : Nat} {k : FailureKind} (h : parseTxns rx off passes = .error k) :
    k = .truncatedInput ∨ k = .protocolVersionMismatch ∨ k = .unsupportedTransactionType := by
  induction passes generalizing off k with
  | zero =>
    unfold parseTxns at h
    split at h <;> cases h
    simp
  | succ n ih =>
    unfold parseTxns at h
    split at h
    · cases h
    · cases hp : parseTxn rx off with
      | error k' => simp only [hp, Except.error.injEq] at h; subst h; exact parseTxn_error hp
      | ok r =>
        simp only [hp] at h
        cases hq : parseTxns rx r.2 n with
        | error k' => simp only [hq, Except.map, Except.error.injEq] at h; subst h; exact ih hq
        | ok Ts => simp [hq, Except.map] at h

/-- What an answer of the header checks says of the buffer (R172). -/
theorem parsePktHdr_ok {rx : List Byte} {f : PktFields} (h : parsePktHdr rx = .ok f) :
    f.version = protocolVersion ∧ f.packetType = controlType ∧
      rx = be32 (assemblePktHdr f.rsvd f.packetID f.byteOrder f.packetType) ++ rx.drop 4 := by
  unfold parsePktHdr at h
  split at h
  · cases h
  rename_i w hw
  dsimp only at h
  split at h
  · cases h
  rename_i hv
  split at h
  · cases h
  rename_i ht
  cases h
  simp only [ne_eq, Decidable.not_not] at hv ht
  refine ⟨hv, ht, ?_⟩
  rw [assemble_pktFields hv]
  simpa using rxWord_eq_some hw

/-- A control header passes the header checks (R172). -/
theorem parsePktHdr_wire (r : Nibble) (p : PacketId) (b : Nibble) (rest : List Byte) :
    parsePktHdr (be32 (assemblePktHdr r p b controlType) ++ rest) = .ok ⟨protocolVersion, r, p, b, controlType⟩ := by
  simp [parsePktHdr]

/-- The kinds of failure the header checks can report (R172). -/
theorem parsePktHdr_error {rx : List Byte} {k : FailureKind} (h : parsePktHdr rx = .error k) :
    k = .truncatedInput ∨ k = .protocolVersionMismatch ∨ k = .badPacketType := by
  unfold parsePktHdr at h
  split at h
  · cases h; simp
  dsimp only at h
  split at h
  · cases h; simp
  split at h <;> cases h
  simp

end Sys2Proof.Machine
end

