-- ==== Sys2Proof/Laws/Ops.lean ====
section
/-! SUPPORT. One lemma per shared operation that says everything it can do: the emission of transactions (R149, R171), the
checks and the success of the encoders (R149, R171, R198), the end of a decoder (R48), the frame rows (R150). -/

namespace Sys2Proof.Machine

/-! ### Emission -/

/-- The Transactions a sequence of requests becomes when the first takes the ID `t` (R131, R171). -/
def transactionsFrom : TxnId → List Descriptor → List Transaction
  | _, [] => []
  | t, q :: qs => q.transaction t :: transactionsFrom (t + 1) qs

@[simp] theorem transactionsFrom_length (t : TxnId) (qs : List Descriptor) : (transactionsFrom t qs).length = qs.length := by
  induction qs generalizing t with
  | nil => rfl
  | cons q qs ih => simp [transactionsFrom, ih]

/-- The `k`-th request takes the ID `t + k` modulo 4096 (R171). -/
theorem transactionsFrom_get (t : TxnId) (qs : List Descriptor) (k : Nat) (h : k < qs.length) :
    (transactionsFrom t qs)[k]? = some (qs[k].transaction (t + BitVec.ofNat 12 k)) := by
  induction qs generalizing t k with
  | nil => simp at h
  | cons q qs ih =>
    cases k with
    | zero => simp [transactionsFrom]
    | succ k =>
      have hk : k < qs.length := by simpa using h
      have ht : t + 1 + BitVec.ofNat 12 k = t + BitVec.ofNat 12 (k + 1) := by
        rw [BitVec.add_assoc, BitVec.ofNat_add, BitVec.add_comm 1]; rfl
      simp only [transactionsFrom, List.getElem?_cons_succ, List.getElem_cons_succ, ih (t + 1) k hk, ht]

/-- What a member of the sequence is. -/
theorem mem_transactionsFrom {t : TxnId} {qs : List Descriptor} {T : Transaction} (h : T ∈ transactionsFrom t qs) :
    ∃ q ∈ qs, ∃ t', T = q.transaction t' := by
  induction qs generalizing t with
  | nil => simp [transactionsFrom] at h
  | cons q qs ih =>
    rcases List.mem_cons.mp h with rfl | h
    · exact ⟨q, by simp, t, rfl⟩
    · obtain ⟨q', hq', t', rfl⟩ := ih h
      exact ⟨q', by simp [hq'], t', rfl⟩

theorem consecutiveFrom_transactionsFrom (t : TxnId) (qs : List Descriptor) :
    consecutiveFrom t (transactionsFrom t qs) = true := by
  induction qs generalizing t with
  | nil => rfl
  | cons q qs ih => simp [transactionsFrom, consecutiveFrom, ih]

theorem consecutive_transactionsFrom (t : TxnId) (qs : List Descriptor) : consecutive (transactionsFrom t qs) = true := by
  cases qs with
  | nil => rfl
  | cons q qs => exact consecutiveFrom_transactionsFrom t (q :: qs)

/-- The emission of one request: its Transaction's wire form, and `TID` advanced once (R149). -/
theorem emitTxn_eq (q : Descriptor) (s : State) :
    emitTxn q s = ⟨(q.transaction s.tid).wire, [q.transaction s.tid], writeTid (s.tid + 1) s⟩ := by
  simp [emitTxn, buildTxnHdr, Transaction.wire, Descriptor.transaction, inc12_eq]

/-- The emission of a sequence: the wire forms in order, and `TID` advanced once per request (R171). -/
theorem emitTxns_eq (qs : List Descriptor) (s : State) :
    emitTxns qs s = ⟨((transactionsFrom s.tid qs).map Transaction.wire).flatten, transactionsFrom s.tid qs,
      writeTid (s.tid + BitVec.ofNat 12 qs.length) s⟩ := by
  induction qs generalizing s with
  | nil => simp [emitTxns, transactionsFrom, writeTid]
  | cons q qs ih =>
    have ht : s.tid + 1 + BitVec.ofNat 12 qs.length = s.tid + BitVec.ofNat 12 (qs.length + 1) := by
      rw [BitVec.add_assoc, BitVec.ofNat_add, BitVec.add_comm 1]; rfl
    simp only [emitTxns, emitTxn_eq, ih, writeTid_tid, ht]
    rfl

/-! ### The encoders -/

/-- The packet PKT_ENCODE makes of its operands in a state (R171). -/
def packetOf (qs : List Descriptor) (s : State) : ControlPacket :=
  ⟨⟨protocolVersion, 0, s.pid, bigEndianMarker, controlType⟩, transactionsFrom s.tid qs⟩

/-- The state after the headers of a packet of `n` transactions have been built (R29). -/
def afterPacket (n : Nat) (s : State) : State := writeTid (s.tid + BitVec.ofNat 12 n) (writePid (s.pid + 1) s)

theorem frames_length (t : TxnId) (qs : List Descriptor) :
    ((transactionsFrom t qs).map (List.length ∘ Transaction.wire)).sum = (qs.map Descriptor.bytes).sum := by
  induction qs generalizing t with
  | nil => rfl
  | cons q qs ih => simp [transactionsFrom, ih, Descriptor.bytes]

/-- The encoded length is a function of the operand alone (R173). -/
theorem packetOf_wire_length (qs : List Descriptor) (s : State) : (packetOf qs s).wire.length = packetBytes qs := by
  simp [packetOf, ControlPacket.wire, packetBytes, frames_length]

/-- PKT_ENCODE past its checks: the packet's wire form goes out, each counter advances once per header (R171). -/
theorem encodePacket_success {qs : List Descriptor} {cap : Nat} {s : State}
    (hp : qs.all Descriptor.presentable = true) (hc : packetCheck qs cap s.config.maxTxn = none) :
    encodePacket qs cap s =
      .next (respond (.success (.encodedPkt (packetOf qs s).wire (packetOf qs s))) (afterPacket qs.length s)) := by
  simp [encodePacket, hp, hc, succeed, emitTxns_eq, buildPktHdr, inc16_eq, packetOf, ControlPacket.wire, afterPacket]

/-- PKT_ENCODE on a failed check (R214). -/
theorem encodePacket_failure {qs : List Descriptor} {cap : Nat} {s : State} {k : FailureKind}
    (hp : qs.all Descriptor.presentable = true) (hc : packetCheck qs cap s.config.maxTxn = some k) :
    encodePacket qs cap s = .next (respond (.failure k) s) := by
  simp [encodePacket, hp, hc, failWith]

/-- PKT_ENCODE of operands that break its precondition (R171, U2). -/
theorem encodePacket_refused {qs : List Descriptor} {cap : Nat} {s : State} (hp : qs.all Descriptor.presentable = false) :
    encodePacket qs cap s = .refused .illFormedDescriptor := by
  simp [encodePacket, hp]

/-- Everything PKT_ENCODE can do when it goes on. -/
theorem encodePacket_next {qs : List Descriptor} {cap : Nat} {s t : State} (h : encodePacket qs cap s = .next t) :
    qs.all Descriptor.presentable = true ∧
      ((packetCheck qs cap s.config.maxTxn = none ∧
          t = respond (.success (.encodedPkt (packetOf qs s).wire (packetOf qs s))) (afterPacket qs.length s)) ∨
        ∃ k, packetCheck qs cap s.config.maxTxn = some k ∧ t = respond (.failure k) s) := by
  cases hp : qs.all Descriptor.presentable with
  | false => rw [encodePacket_refused hp] at h; cases h
  | true =>
    refine ⟨rfl, ?_⟩
    cases hc : packetCheck qs cap s.config.maxTxn with
    | none => rw [encodePacket_success hp hc] at h; cases h; exact .inl ⟨rfl, rfl⟩
    | some k => rw [encodePacket_failure hp hc] at h; cases h; exact .inr ⟨k, rfl, rfl⟩

/-- No check fails exactly when every type is supported and the packet is within the three limits (R171). -/
theorem packetCheck_eq_none_iff (qs : List Descriptor) (cap m : Nat) :
    packetCheck qs cap m = none ↔
      (∀ q ∈ qs, q.supported = true) ∧ qs.length ≤ m ∧ packetBytes qs ≤ mtuBytes ∧ packetBytes qs ≤ cap := by
  unfold packetCheck
  split
  · rename_i h
    simp only [List.any_eq_true, Bool.not_eq_true'] at h
    obtain ⟨q, hq, hs⟩ := h
    simp only [reduceCtorEq, false_iff]
    rintro ⟨ha, -⟩
    rw [ha q hq] at hs; cases hs
  · rename_i h
    simp only [List.any_eq_true, Bool.not_eq_true', not_exists, not_and, Bool.not_eq_false] at h
    repeat' split
    all_goals simp only [reduceCtorEq, false_iff, true_iff]
    all_goals first
      | omega
      | exact ⟨h, by omega, by omega, by omega⟩

/-- The kinds of failure the checks can report (R221). -/
theorem packetCheck_some {qs : List Descriptor} {cap m : Nat} {k : FailureKind} (h : packetCheck qs cap m = some k) :
    k = .unsupportedTransactionType ∨ k = .packetTooLarge ∨ k = .bufferTooSmall := by
  unfold packetCheck at h
  repeat' split at h
  all_goals cases h
  all_goals simp

/-- A packet of one well-formed request fails only for want of room (R198). -/
theorem packetCheck_single {q : Descriptor} (hq : q.wellFormed = true) {cap m : Nat} (hm : 1 ≤ m) :
    packetCheck [q] cap m = if cap < 4 + q.bytes then some .bufferTooSmall else none := by
  obtain ⟨k, -, hp, -⟩ := (wellFormed_iff q).mp hq
  have hl := paylen_le k requestInfo q.wordCount
  have hb : q.bytes = 8 + 4 * q.payload.length := rfl
  have hs := supported_of_wellFormed hq
  simp only [packetCheck, List.any_cons, List.any_nil, hs, Bool.not_true, Bool.or_false, Bool.false_eq_true, if_false,
    List.length_cons, List.length_nil, packetBytes, List.map_cons, List.map_nil, List.sum_cons, List.sum_nil]
  rw [if_neg (by omega), if_neg (by simp only [mtuBytes]; omega)]
  simp

/-- The BUILD operations: a packet of one well-formed request (R198). -/
theorem encodePacket_single {q : Descriptor} (hq : q.wellFormed = true) (cap : Nat) {s : State}
    (hm : 1 ≤ s.config.maxTxn) :
    encodePacket [q] cap s =
      if cap < 4 + q.bytes then .next (respond (.failure .bufferTooSmall) s)
      else .next (respond (.success (.encodedPkt (packetOf [q] s).wire (packetOf [q] s))) (afterPacket 1 s)) := by
  have hp : [q].all Descriptor.presentable = true := by simp [presentable_of_wellFormed hq]
  have hc := packetCheck_single hq hm (cap := cap)
  split
  · rename_i h; rw [if_pos h] at hc; exact encodePacket_failure hp hc
  · rename_i h; rw [if_neg h] at hc; exact encodePacket_success hp hc

/-- Everything TXN_ENCODE can do (R149). -/
theorem encodeTxn_eq (q : Descriptor) (cap : Nat) (s : State) :
    encodeTxn q cap s =
      if q.presentable = false then .refused .illFormedDescriptor
      else if q.supported = false then .next (respond (.failure .unsupportedTransactionType) s)
      else if cap < q.bytes then .next (respond (.failure .bufferTooSmall) s)
      else .next (respond (.success (.encodedTxn (q.transaction s.tid).wire (q.transaction s.tid)))
        (writeTid (s.tid + 1) s)) := by
  simp only [encodeTxn, emitTxn_eq, failWith, succeed, readTid_eq, Bool.not_eq_true']

/-! ### The decoders and the frame rows -/

/-- A decoder ends with an answer and nothing else changes (R48). -/
theorem answer_eq (r : Except FailureKind Results) (s : State) :
    answer r s = .next (respond (match r with | .ok v => .success v | .error k => .failure k) s) := by
  cases r <;> rfl

/-- A valid frame handed to the block is answered as TXN_DECODE answers (R150). -/
theorem receiveFrame_valid {T : Transaction} (h : T.valid = true) (s : State) :
    receiveFrame T s = .next (respond (.success (.decodedTxn T (frameBytes T.payload.length))) s) := by
  simp [receiveFrame, h, succeed]

/-- Everything a frame row can do when it goes on. -/
theorem receiveFrame_next {T : Transaction} {s t : State} (h : receiveFrame T s = .next t) :
    T.valid = true ∧ t = respond (.success (.decodedTxn T (frameBytes T.payload.length))) s := by
  unfold receiveFrame at h
  split at h
  · rename_i hv; cases h; exact ⟨hv, rfl⟩
  · cases h

theorem receiveRequest_next {k : TxnKind} {t : TxnId} {c : Count} {a : Word} {ps : List Word} {s s' : State}
    (h : receiveRequest k t c a ps s = .next s') :
    (⟨t, k.code, requestInfo, c, a, ps⟩ : Transaction).valid = true ∧
      s' = respond (.success (.decodedTxn ⟨t, k.code, requestInfo, c, a, ps⟩ (frameBytes ps.length))) s :=
  receiveFrame_next h

theorem receiveResponse_next {k : TxnKind} {t : TxnId} {c : Count} {i : Nibble} {a : Word} {ps : List Word} {s s' : State}
    (h : receiveResponse k t c i a ps s = .next s') :
    (⟨t, k.code, i, c, a, ps⟩ : Transaction).valid = true ∧
      s' = respond (.success (.decodedTxn ⟨t, k.code, i, c, a, ps⟩ (frameBytes ps.length))) s := by
  unfold receiveResponse at h
  split at h
  · exact receiveFrame_next h
  · cases h

/-- A request frame with the payload its header announces (R68). -/
theorem receiveRequest_eq {k : TxnKind} {c : Count} {ps : List Word} (hp : ps.length = paylen k requestInfo c) (t : TxnId)
    (a : Word) (s : State) :
    receiveRequest k t c a ps s =
      .next (respond (.success (.decodedTxn ⟨t, k.code, requestInfo, c, a, ps⟩ (frameBytes ps.length))) s) :=
  receiveFrame_valid ((valid_iff _).mpr ⟨k, rfl, hp⟩) s

/-- A response frame with the payload its header announces (R68). -/
theorem receiveResponse_eq {k : TxnKind} {c : Count} {i : Nibble} {ps : List Word} (hi : isResponse i = true)
    (hp : ps.length = paylen k i c) (t : TxnId) (a : Word) (s : State) :
    receiveResponse k t c i a ps s =
      .next (respond (.success (.decodedTxn ⟨t, k.code, i, c, a, ps⟩ (frameBytes ps.length))) s) := by
  simp only [receiveResponse, hi, if_true]
  exact receiveFrame_valid ((valid_iff _).mpr ⟨k, rfl, hp⟩) s

/-! ### TXN_DECODE, PKT_DECODE, DECODE_RESPONSE as functions of the buffer -/

/-- TXN_DECODE of a frame (R150, R151). -/
theorem decodeTxn_wire {T : Transaction} (h : T.valid = true) (rest : List Byte) :
    decodeTxn (T.wire ++ rest) = .ok (.decodedTxn T (frameBytes T.payload.length)) := by
  simp [decodeTxn, parseTxn_wire h, Except.map]

/-- What a result of TXN_DECODE says of the buffer. -/
theorem decodeTxn_ok {rx : List Byte} {r : Results} (h : decodeTxn rx = .ok r) :
    ∃ T : Transaction, T.valid = true ∧ r = .decodedTxn T (frameBytes T.payload.length) ∧
      rx = T.wire ++ rx.drop (frameBytes T.payload.length) := by
  unfold decodeTxn at h
  cases hp : parseTxn rx 0 with
  | error k => simp [hp, Except.map] at h
  | ok x =>
    obtain ⟨T, next⟩ := x
    obtain ⟨hv, rfl, hd⟩ := parseTxn_ok hp
    simp only [hp, Except.map, Except.ok.injEq] at h
    refine ⟨T, hv, by rw [← h]; simp, by simpa using hd⟩

/-- PKT_DECODE of a control packet (R172). -/
theorem decodePkt_wire {P : ControlPacket} (h : P.valid = true) : decodePkt P.wire = .ok (.decodedPkt P) := by
  obtain ⟨⟨v, r, p, b, y⟩, Ts⟩ := P
  simp only [ControlPacket.valid, Bool.and_eq_true, beq_iff_eq, List.all_eq_true] at h
  obtain ⟨⟨rfl, rfl⟩, hT⟩ := h
  have := parseTxns_wire hT (be32 (assemblePktHdr r p b controlType)) [] (4 + ((Ts.map Transaction.wire).flatten).length)
    (by simp)
  simp only [List.append_nil, be32_length, List.length_nil] at this
  have h0 : parseTxns [] 0 0 = .ok [] := by simp [parseTxns]
  simp only [decodePkt, ControlPacket.wire, parsePktHdr_wire, List.length_append, be32_length, this, h0, Except.map,
    List.append_nil]

/-- What a result of PKT_DECODE says of the buffer: it is the wire form of the packet returned (R172). -/
theorem decodePkt_ok {rx : List Byte} {r : Results} (h : decodePkt rx = .ok r) :
    ∃ P : ControlPacket, P.valid = true ∧ r = .decodedPkt P ∧ rx = P.wire := by
  unfold decodePkt at h
  cases hf : parsePktHdr rx with
  | error k => simp [hf] at h
  | ok f =>
    cases hT : parseTxns rx 4 rx.length with
    | error k => simp [hf, hT, Except.map] at h
    | ok Ts =>
      simp only [hf, hT, Except.map, Except.ok.injEq] at h
      obtain ⟨hv, ht, hrx⟩ := parsePktHdr_ok hf
      obtain ⟨hall, hd⟩ := parseTxns_ok hT
      refine ⟨⟨f, Ts⟩, ?_, h.symm, ?_⟩
      · simp only [ControlPacket.valid, hv, ht, Bool.and_eq_true, beq_iff_eq, List.all_eq_true, and_self, true_and]
        exact hall
      · rw [hrx, hd]; rfl

end Sys2Proof.Machine
end

