-- ==== Sys2Proof/Laws/Exec.lean ====
section
/-! SUPPORT. What an instruction can do, said once for all of them: it succeeds, with the counters of R29 and results that are
a function of the two counters; or it fails, and only the failure is added (R214); or it is refused. Which of the three
depends on the operands and on `MAX_TXN` alone. -/

namespace Sys2Proof.Machine

/-- The answer of an instruction is a function of the two counters, for one value of `MAX_TXN`. -/
def Succeeds (i : Instr) (c : Config) (results : PacketId → TxnId → Results) : Prop :=
  ∀ s : State, s.config = c → exec i s = .next { s with
    pid := pidAfter i s.pid, tid := tidAfter i s.tid, outcome := s.outcome ++ [.success (results s.pid s.tid)] }

/-- The instruction fails with one kind, for one value of `MAX_TXN`. -/
def Fails (i : Instr) (c : Config) (k : FailureKind) : Prop :=
  ∀ s : State, s.config = c → exec i s = .next { s with outcome := s.outcome ++ [.failure k] }

/-- The instruction has no meaning, for one value of `MAX_TXN`. -/
def Refuses (i : Instr) (c : Config) (r : Refusal) : Prop := ∀ s : State, s.config = c → exec i s = .refused r

/-- Everything an instruction can do. -/
def ExecCases (i : Instr) (c : Config) : Prop :=
  (∃ f, Succeeds i c f) ∨ (∃ k, Fails i c k) ∨ ∃ r, Refuses i c r

theorem execCases_answer {i : Instr} (c : Config) (r : Except FailureKind Results) (hp : ∀ p, pidAfter i p = p)
    (ht : ∀ t, tidAfter i t = t) (h : ∀ s, exec i s = answer r s) : ExecCases i c := by
  cases r with
  | ok v => exact .inl ⟨fun _ _ => v, fun s _ => by rw [h, hp, ht]; rfl⟩
  | error k => exact .inr (.inl ⟨k, fun s _ => by rw [h]; rfl⟩)

theorem execCases_frame {i : Instr} (c : Config) {T : Transaction} (_ : i.transaction = some T)
    (hp : ∀ p, pidAfter i p = p) (ht : ∀ t, tidAfter i t = t) (h : ∀ s, exec i s = receiveFrame T s) : ExecCases i c := by
  cases hv : T.valid with
  | true => exact .inl ⟨fun _ _ => _, fun s _ => by rw [h, hp, ht, receiveFrame_valid hv]; rfl⟩
  | false => exact .inr (.inr ⟨.notAFrame, fun s _ => by rw [h]; simp [receiveFrame, hv]⟩)

theorem execCases_response {i : Instr} (c : Config) {T : Transaction} (hT : i.transaction = some T)
    (hp : ∀ p, pidAfter i p = p) (ht : ∀ t, tidAfter i t = t)
    (h : ∀ s, exec i s = if isResponse T.infoCode then receiveFrame T s else .refused .notAFrame) : ExecCases i c := by
  cases hr : isResponse T.infoCode with
  | true => exact execCases_frame c hT hp ht fun s => by rw [h, hr]; rfl
  | false => exact .inr (.inr ⟨.notAFrame, fun s _ => by rw [h, hr]; rfl⟩)

theorem execCases_packet {i : Instr} (c : Config) (qs : List Descriptor) (cap : Nat) (hp : ∀ p, pidAfter i p = p + 1)
    (ht : ∀ t, tidAfter i t = t + BitVec.ofNat 12 qs.length) (h : ∀ s, exec i s = encodePacket qs cap s) :
    ExecCases i c := by
  cases hq : qs.all Descriptor.presentable with
  | false => exact .inr (.inr ⟨_, fun s _ => by rw [h, encodePacket_refused hq]⟩)
  | true =>
    cases hk : packetCheck qs cap c.maxTxn with
    | some k => exact .inr (.inl ⟨k, fun s hc => by rw [h, encodePacket_failure hq (by rw [hc, hk])]; rfl⟩)
    | none =>
      refine .inl ⟨fun p t =>
        let P : ControlPacket := ⟨⟨protocolVersion, 0, p, bigEndianMarker, controlType⟩, transactionsFrom t qs⟩
        .encodedPkt P.wire P, fun s hc => ?_⟩
      rw [h, encodePacket_success hq (by rw [hc, hk]), hp, ht]
      rfl

/-- Everything an instruction can do, whichever it is (R29, R210, R214, R233). -/
theorem exec_cases (i : Instr) (c : Config) : ExecCases i c := by
  cases i
  case encPktHdr b y =>
    exact .inl ⟨fun p _ => .header (assemblePktHdr 0 p b y), fun s _ => by
      simp only [exec, execEncPktHdr, buildPktHdr, inc16_eq]; rfl⟩
  case encTxnHdr y n =>
    exact .inl ⟨fun _ t => .header (assembleTxnHdr t n y requestInfo), fun s _ => by
      simp only [exec, execEncTxnHdr, buildTxnHdr, inc12_eq]; rfl⟩
  case decPktHdr w =>
    refine execCases_answer c (if (pktFields w).version ≠ protocolVersion then .error .protocolVersionMismatch
      else .ok (.pktFields (pktFields w))) (fun _ => rfl) (fun _ => rfl) fun s => ?_
    simp only [exec, execDecPktHdr]; split <;> rfl
  case decTxnHdr w =>
    refine execCases_answer c (if (txnFields w).version ≠ protocolVersion then .error .protocolVersionMismatch
      else .ok (.txnFields (txnFields w))) (fun _ => rfl) (fun _ => rfl) fun s => ?_
    simp only [exec, execDecTxnHdr]; split <;> rfl
  case pidGet => exact .inl ⟨fun p _ => .packetID p, fun _ _ => rfl⟩
  case pidSet v => exact .inl ⟨fun _ _ => .none, fun _ _ => rfl⟩
  case pidReset => exact .inl ⟨fun _ _ => .none, fun _ _ => rfl⟩
  case pidInc => exact .inl ⟨fun p _ => .packetID (p + 1), fun s _ => by
    simp only [exec, execPidInc, readPid_eq, inc16_eq]; rfl⟩
  case tidGet => exact .inl ⟨fun _ t => .transactionID t, fun _ _ => rfl⟩
  case tidSet v => exact .inl ⟨fun _ _ => .none, fun _ _ => rfl⟩
  case tidReset => exact .inl ⟨fun _ _ => .none, fun _ _ => rfl⟩
  case tidInc => exact .inl ⟨fun _ t => .transactionID (t + 1), fun s _ => by
    simp only [exec, execTidInc, readTid_eq, inc12_eq]; rfl⟩
  case txnEncode q cap =>
    by_cases hp : q.presentable = false
    · exact .inr (.inr ⟨_, fun s _ => by simp only [exec, execTxnEncode, encodeTxn_eq, if_pos hp]; rfl⟩)
    by_cases hs : q.supported = false
    · exact .inr (.inl ⟨_, fun s _ => by simp only [exec, execTxnEncode, encodeTxn_eq, if_neg hp, if_pos hs]; rfl⟩)
    by_cases hc : cap < q.bytes
    · exact .inr (.inl ⟨_, fun s _ => by
        simp only [exec, execTxnEncode, encodeTxn_eq, if_neg hp, if_neg hs, if_pos hc]; rfl⟩)
    exact .inl ⟨fun _ t => .encodedTxn (q.transaction t).wire (q.transaction t), fun s _ => by
      simp only [exec, execTxnEncode, encodeTxn_eq, if_neg hp, if_neg hs, if_neg hc]; rfl⟩
  case pktHdrStatus => exact .inr (.inl ⟨_, fun _ _ => rfl⟩)
  case pktHdrResend => exact .inr (.inl ⟨_, fun _ _ => rfl⟩)
  case txnUnsupported => exact .inr (.inl ⟨_, fun _ _ => rfl⟩)
  case buildWrite a d cap =>
    by_cases hd : maxPayloadWords < d.length
    · exact .inr (.inr ⟨_, fun s _ => by simp only [exec, execBuildWrite, if_pos hd]; rfl⟩)
    · exact execCases_packet c _ _ (fun _ => rfl) (fun _ => rfl) fun s => by
        simp only [exec, execBuildWrite, if_neg hd]; rfl
  case buildNIWrite a d cap =>
    by_cases hd : maxPayloadWords < d.length
    · exact .inr (.inr ⟨_, fun s _ => by simp only [exec, execBuildNIWrite, if_pos hd]; rfl⟩)
    · exact execCases_packet c _ _ (fun _ => rfl) (fun _ => rfl) fun s => by
        simp only [exec, execBuildNIWrite, if_neg hd]; rfl
  case pktEncode qs cap => exact execCases_packet c qs cap (fun _ => rfl) (fun _ => rfl) fun _ => rfl
  case buildRead a n cap => exact execCases_packet c [readRequest a n] cap (fun _ => rfl) (fun _ => rfl) fun _ => rfl
  case buildNIRead a n cap => exact execCases_packet c [niReadRequest a n] cap (fun _ => rfl) (fun _ => rfl) fun _ => rfl
  case buildRMWBits a x y cap =>
    exact execCases_packet c [rmwBitsRequest a x y] cap (fun _ => rfl) (fun _ => rfl) fun _ => rfl
  case buildRMWSum a x cap => exact execCases_packet c [rmwSumRequest a x] cap (fun _ => rfl) (fun _ => rfl) fun _ => rfl
  case txnDecode rx => exact execCases_answer c (decodeTxn rx) (fun _ => rfl) (fun _ => rfl) fun _ => rfl
  case pktDecode rx => exact execCases_answer c (decodePkt rx) (fun _ => rfl) (fun _ => rfl) fun _ => rfl
  case decodeResponse rx => exact execCases_answer c (decodeFirst rx) (fun _ => rfl) (fun _ => rfl) fun _ => rfl
  case pktHdrControl r p b body =>
    exact execCases_answer c ((parseTxns body 0 body.length).map fun Ts =>
      .decodedPkt ⟨⟨protocolVersion, r, p, b, controlType⟩, Ts⟩) (fun _ => rfl) (fun _ => rfl) fun _ => rfl
  all_goals first
    | exact execCases_frame c rfl (fun _ => rfl) (fun _ => rfl) (fun _ => rfl)
    | exact execCases_response c rfl (fun _ => rfl) (fun _ => rfl) (fun _ => rfl)

/-- An operation that answers with a packet header has put the `PID` before it into the header, and has advanced `PID` once
(R101, R171, R198). -/
theorem builtPacketId_of_exec {i : Instr} {s t : State} {r : Response} {p : PacketId} (hb : buildsPacket i = true)
    (h : exec i s = .next t) (ho : t.outcome = s.outcome ++ [r]) (hr : builtPacketId r = some p) :
    p = s.pid ∧ t.pid = s.pid + 1 := by
  have pk : ∀ qs cap, exec i s = encodePacket qs cap s → p = s.pid ∧ t.pid = s.pid + 1 := by
    intro qs cap he
    rw [he] at h
    obtain ⟨hp, ⟨hc, rfl⟩ | ⟨k', hc, rfl⟩⟩ := encodePacket_next h
    · simp only [respond_outcome, afterPacket, writeTid_outcome, writePid_outcome, List.append_cancel_left_eq,
        List.cons.injEq, and_true] at ho
      rw [← ho] at hr
      simp only [builtPacketId, packetOf, Option.some.injEq] at hr
      exact ⟨hr.symm, rfl⟩
    · simp only [respond_outcome, List.append_cancel_left_eq, List.cons.injEq, and_true] at ho
      rw [← ho] at hr
      cases hr
  cases i
  case encPktHdr b y =>
    cases h
    simp only [respond_outcome, buildPktHdr, writePid_outcome, List.append_cancel_left_eq, List.cons.injEq,
      and_true] at ho
    rw [← ho] at hr
    simp only [builtPacketId, pktFields_assemble, Option.some.injEq, readPid_eq] at hr
    exact ⟨hr.symm, by simp [buildPktHdr, inc16_eq]⟩
  case pktEncode qs cap => exact pk qs cap rfl
  case buildRead a n cap => exact pk [readRequest a n] cap rfl
  case buildNIRead a n cap => exact pk [niReadRequest a n] cap rfl
  case buildRMWBits a x y cap => exact pk [rmwBitsRequest a x y] cap rfl
  case buildRMWSum a x cap => exact pk [rmwSumRequest a x] cap rfl
  case buildWrite a d cap =>
    by_cases hd : maxPayloadWords < d.length
    · simp only [exec, execBuildWrite, if_pos hd] at h; cases h
    · exact pk [writeRequest a d] cap (by simp only [exec, execBuildWrite, if_neg hd])
  case buildNIWrite a d cap =>
    by_cases hd : maxPayloadWords < d.length
    · simp only [exec, execBuildNIWrite, if_pos hd] at h; cases h
    · exact pk [niWriteRequest a d] cap (by simp only [exec, execBuildNIWrite, if_neg hd])
  all_goals cases hb

end Sys2Proof.Machine
end

