-- ==== Sys2Proof/Laws/Frames.lean ====
section
/-! SUPPORT. Wire frames (R67): a frame row is encoded as its Transaction's wire form; the table of masks and patterns reads
from bytes what the parser of R150 reads from them, row by row. -/

namespace Sys2Proof.Machine

/-- The word behind the first (R67). -/
@[simp] theorem rxWord_second (w a : Word) (rest : List Byte) : rxWord (be32 w ++ (be32 a ++ rest)) 4 = some a := by
  simpa using rxWord_append (be32 w) (be32 a ++ rest) 0

/-- The words behind the first two (R67). -/
@[simp] theorem rxWords_third (w a : Word) (ps : List Word) (rest : List Byte) :
    rxWords (be32 w ++ (be32 a ++ (be32s ps ++ rest))) 8 ps.length = some ps := by
  simpa [rxWords_be32s] using rxWords_append (be32 w ++ be32 a) (be32s ps ++ rest) 0 ps.length

/-- The operand words of a frame on the wire (R67). -/
theorem readFrame_wire {T : Transaction} {n : Nat} (hn : T.payload.length = n) (rest : List Byte)
    (make : Word → List Word → Instr) : readFrame (T.wire ++ rest) n make = .ok (make T.baseAddress T.payload) := by
  subst hn
  simp [readFrame, Transaction.wire]

/-- The head word of a frame on the wire (R67). -/
theorem rxWord_wire (T : Transaction) (rest : List Byte) :
    rxWord (T.wire ++ rest) 0 = some (assembleTxnHdr T.transactionID T.wordCount T.typeID T.infoCode) := by
  simp [Transaction.wire]

/-- The bytes after a head word. -/
@[simp] theorem drop_be32 (w : Word) (rest : List Byte) : (be32 w ++ rest).drop 4 = rest := rfl

/-- A frame row is encoded as its Transaction's wire form (R67). -/
theorem encode_of_transaction {i : Instr} {T : Transaction} (h : i.transaction = some T) :
    encode i = ⟨.frame, T.wire⟩ := by
  cases i <;> cases h <;> rfl

/-- A well-formed frame row stands for a Transaction that the block produces (R68). -/
theorem valid_of_transaction {i : Instr} {T : Transaction} (h : i.transaction = some T) (hw : i.WellFormed) :
    T.valid = true := by
  cases i <;> cases h <;>
   simp only [Instr.WellFormed, Instr.wellFormed, countMatches, Bool.and_eq_true, beq_iff_eq, isResponse,
     bne_iff_ne] at hw <;>
   simp only [Transaction.valid, ofCode_code] <;> simp_all [paylen]

/-- A well-formed frame row is answered with its Transaction and its length (R150). -/
theorem exec_of_transaction {i : Instr} {T : Transaction} (h : i.transaction = some T) (hw : i.WellFormed) (s : State) :
    exec i s = .next (respond (.success (.decodedTxn T (frameBytes T.payload.length))) s) := by
  have hv := valid_of_transaction h hw
  cases i <;> cases h <;> simp only [Instr.WellFormed, Instr.wellFormed, Bool.and_eq_true] at hw
  all_goals first
    | exact receiveFrame_valid hv s
    | (have hi := hw; simp only [hw] at hi
       refine Eq.trans ?_ (receiveFrame_valid hv s)
       simp [exec, execTxnReadRsp, execTxnWriteRsp, execTxnNIReadRsp, execTxnNIWriteRsp, execTxnRMWBitsRsp, execTxnRMWSumRsp,
        execTxnCfgReadRsp, execTxnCfgWriteRsp, receiveResponse, hw])

/-- The operand words of a frame, one read after another. -/
theorem readFrame_parse {bytes : List Byte} {n : Nat} {mk : Word → List Word → Instr} :
    readFrame bytes n mk = match rxWord bytes 4 with
     | none => .error (.wire .truncatedInput)
     | some a => match rxWords bytes 8 n with
        | none => .error (.wire .truncatedInput)
        | some ps => .ok (mk a ps) := by
  unfold readFrame
  cases rxWord bytes 4 <;> cases rxWords bytes 8 n <;> rfl

/-- A payload of one word is that word. -/
theorem payload_one {ps : List Word} (h : ps.length = 1) : ps = [payloadWord ps 0] := by
  match ps, h with
  | [x], _ => rfl
/-- A payload of two words is those two. -/
theorem payload_two {ps : List Word} (h : ps.length = 2) : ps = [payloadWord ps 0, payloadWord ps 1] := by
  match ps, h with
  | [x, y], _ => rfl

/-- Where the parser answers a Transaction, the rows read the instruction that stands for it. -/
theorem decodeFrame_ok {bytes : List Byte} {T : Transaction} {n : Nat} (h : parseTxn bytes 0 = .ok (T, n)) :
    ∃ i, decodeFrame bytes = .ok i ∧ i.transaction = some T ∧ i.WellFormed := by
  unfold parseTxn at h
  split at h
  · cases h
  rename_i w hw
  dsimp only at h
  split at h
  · cases h
  rename_i hv
  simp only [ne_eq, Decidable.not_not] at hv
  split at h
  · cases h
  rename_i k hk
  split at h
  · cases h
  rename_i a ha
  split at h
  · cases h
  rename_i ps hps
  have hT := congrArg Prod.fst (Except.ok.inj h)
  dsimp only at hT
  obtain ⟨hl, -⟩ := rxWords_eq_some hps
  simp only [Nat.zero_add] at ha hps
  have hy := (ofCode_eq_some_iff _ _).mp hk
  simp only [decodeFrame, hw, matchRow_txnRows, txnRowOf, hv, hk]
  rw [hy] at hT
  by_cases hi : (txnFields w).infoCode = requestInfo
  · rw [hi] at hT hps hl
    cases k <;> simp only [paylen, if_true] at hps hl <;>
      simp only [hi, ne_eq, not_true_eq_false, if_true, if_false, readFrame_parse, ha, hps] <;>
      refine ⟨_, rfl, ?_, ?_⟩
    all_goals first
      | (simp [Instr.WellFormed, Instr.wellFormed, countMatches, hl])
      | (subst hT; simp only [Instr.transaction]; done)
      | (subst hT; simp only [Instr.transaction]; congr 2
         first
           | rfl
           | exact (payload_one hl).symm
           | exact (payload_two hl).symm
           | exact (List.eq_nil_of_length_eq_zero hl).symm)
  · cases k <;> simp only [paylen, if_neg hi] at hps hl <;>
      simp only [hi, ne_eq, not_true_eq_false, if_false, readFrame_parse, ha, hps] <;>
      refine ⟨_, rfl, ?_, ?_⟩
    all_goals first
      | (simp [Instr.WellFormed, Instr.wellFormed, countMatches, isResponse, hl]; done)
      | (simp [Instr.WellFormed, Instr.wellFormed, countMatches, isResponse, hl]; exact hi)
      | (subst hT; simp only [Instr.transaction]; done)
      | (subst hT; simp only [Instr.transaction]; congr 2
         first
           | rfl
           | exact (payload_one hl).symm
           | exact (payload_two hl).symm
           | exact (List.eq_nil_of_length_eq_zero hl).symm)

/-- Where the parser fails, the rows fail alike, but for an unsupported type, which has a row of its own (R213). -/
theorem decodeFrame_error {bytes : List Byte} {k : FailureKind} (h : parseTxn bytes 0 = .error k) :
    decodeFrame bytes = .error (.wire k) ∨ k = .unsupportedTransactionType ∧
      ∃ t c y i, decodeFrame bytes = .ok (.txnUnsupported t c y i) ∧
        bytes = be32 (assembleTxnHdr t c (1#1 ++ y) i) ++ bytes.drop 4 := by
  unfold parseTxn at h
  split at h
  · rename_i hw; cases h; left; simp [decodeFrame, hw]
  rename_i w hw
  dsimp only at h
  split at h
  · rename_i hv; cases h; left; simp only [decodeFrame, hw, matchRow_txnRows, txnRowOf, if_pos hv]
  rename_i hv
  simp only [ne_eq, Decidable.not_not] at hv
  split at h
  · rename_i hk; cases h; right; refine ⟨rfl, ?_⟩
    refine ⟨(txnFields w).transactionID, (txnFields w).wordCount, w.extractLsb' 4 3, (txnFields w).infoCode, ?_, ?_⟩
    rotate_left
    · rw [typeLow_of_unsupported w hk, assemble_txnFields hv]; simpa using rxWord_eq_some hw
    · simp only [decodeFrame, hw, matchRow_txnRows, txnRowOf, hv, hk]; simp
  rename_i k' hk
  left
  have : ∀ n, n = paylen k' (txnFields w).infoCode (txnFields w).wordCount → ∀ mk,
      readFrame bytes n mk = .error (.wire k) := by
    rintro n rfl mk
    rw [readFrame_parse]
    simp only [Nat.zero_add] at h
    split at h
    · cases h; simp [*]
    · rename_i a ha
      split at h
      · cases h; simp [*]
      · cases h
  simp only [decodeFrame, hw, matchRow_txnRows, txnRowOf, hv, hk]
  by_cases hi : (txnFields w).infoCode = requestInfo
  · cases k' <;> simp only [hi, ne_eq, not_true_eq_false, if_true, if_false] <;> apply this <;>
      simp only [paylen, if_pos hi]
  · cases k' <;> simp only [hi, ne_eq, not_true_eq_false, if_false] <;> apply this <;>
      simp only [paylen, if_neg hi]

end Sys2Proof.Machine
end

