-- ==== Sys2Proof/Laws/PerInstr.lean ====
section
/-! SUPPORT. Statements made of every instruction as syntax, one lemma per constructor. -/

namespace Sys2Proof.Laws

/-- The port of a row of spec/opcode_table.json, and its mask and match, written out from the table. -/
def tableRow : Instr → Channel × Nat × Nat
  | .encPktHdr .. => (.command, 0xFF, 0x00)
  | .encTxnHdr .. => (.command, 0xFF, 0x01)
  | .decPktHdr .. => (.command, 0xFF, 0x02)
  | .decTxnHdr .. => (.command, 0xFF, 0x03)
  | .pidGet => (.command, 0xFF, 0x10)
  | .pidSet .. => (.command, 0xFF, 0x11)
  | .pidReset => (.command, 0xFF, 0x12)
  | .pidInc => (.command, 0xFF, 0x13)
  | .tidGet => (.command, 0xFF, 0x14)
  | .tidSet .. => (.command, 0xFF, 0x15)
  | .tidReset => (.command, 0xFF, 0x16)
  | .tidInc => (.command, 0xFF, 0x17)
  | .txnEncode .. => (.command, 0xFF, 0x20)
  | .txnDecode .. => (.command, 0xFF, 0x21)
  | .pktEncode .. => (.command, 0xFF, 0x30)
  | .pktDecode .. => (.command, 0xFF, 0x31)
  | .buildRead .. => (.command, 0xFF, 0x40)
  | .buildWrite .. => (.command, 0xFF, 0x41)
  | .buildNIRead .. => (.command, 0xFF, 0x42)
  | .buildNIWrite .. => (.command, 0xFF, 0x43)
  | .buildRMWBits .. => (.command, 0xFF, 0x44)
  | .buildRMWSum .. => (.command, 0xFF, 0x45)
  | .decodeResponse .. => (.command, 0xFF, 0x4F)
  | .pktHdrControl .. => (.packet, 0xF000000F, 0x20000000)
  | .pktHdrStatus .. => (.packet, 0xF000000F, 0x20000001)
  | .pktHdrResend .. => (.packet, 0xF000000F, 0x20000002)
  | .txnReadReq .. => (.frame, 0xF00000FF, 0x2000000F)
  | .txnWriteReq .. => (.frame, 0xF00000FF, 0x2000001F)
  | .txnNIReadReq .. => (.frame, 0xF00000FF, 0x2000002F)
  | .txnNIWriteReq .. => (.frame, 0xF00000FF, 0x2000003F)
  | .txnRMWBitsReq .. => (.frame, 0xF00000FF, 0x2000004F)
  | .txnRMWSumReq .. => (.frame, 0xF00000FF, 0x2000005F)
  | .txnCfgReadReq .. => (.frame, 0xF00000FF, 0x2000006F)
  | .txnCfgWriteReq .. => (.frame, 0xF00000FF, 0x2000007F)
  | .txnReadRsp .. => (.frame, 0xF00000F0, 0x20000000)
  | .txnWriteRsp .. => (.frame, 0xF00000F0, 0x20000010)
  | .txnNIReadRsp .. => (.frame, 0xF00000F0, 0x20000020)
  | .txnNIWriteRsp .. => (.frame, 0xF00000F0, 0x20000030)
  | .txnRMWBitsRsp .. => (.frame, 0xF00000F0, 0x20000040)
  | .txnRMWSumRsp .. => (.frame, 0xF00000F0, 0x20000050)
  | .txnCfgReadRsp .. => (.frame, 0xF00000F0, 0x20000060)
  | .txnCfgWriteRsp .. => (.frame, 0xF00000F0, 0x20000070)
  | .txnUnsupported .. => (.frame, 0xF0000080, 0x20000080)

/-- The leading bits of the encoding are the row's: the 8-bit command code, or the 32-bit header word (R60, R76). -/
def OpcodeBits.Statement (i : Instr) : Prop :=
  (encode i).channel = (tableRow i).1 ∧
    match (tableRow i).1 with
    | .command => ∃ code rest, (encode i).bytes = code :: rest ∧ code.toNat &&& (tableRow i).2.1 = (tableRow i).2.2
    | .packet | .frame =>
      ∃ (w : Word) (rest : List Byte), (encode i).bytes = be32 w ++ rest ∧
        w &&& BitVec.ofNat 32 (tableRow i).2.1 = BitVec.ofNat 32 (tableRow i).2.2

/-- A packet header under the mask of the packet rows (R61, R62). -/
theorem packet_bits (r : Nibble) (p : PacketId) (b y : Nibble) :
    assemblePktHdr r p b y &&& 0xF000000F = (protocolVersion ++ (0 : BitVec 24) ++ y : BitVec 32) := by
  rw [and_typeMask, pktFields_assemble]

/-- A transaction header under the mask of the request rows (R63, R64, R65). -/
theorem request_bits (t : TxnId) (c : Count) (y i : Nibble) :
    assembleTxnHdr t c y i &&& 0xF00000FF = (protocolVersion ++ (0 : BitVec 20) ++ y ++ i : BitVec 32) := by
  rw [and_requestMask, txnFields_assemble]

/-- A transaction header under the mask of the response rows (R63, R64). -/
theorem response_bits (t : TxnId) (c : Count) (y i : Nibble) :
    assembleTxnHdr t c y i &&& 0xF00000F0 = (protocolVersion ++ (0 : BitVec 20) ++ y ++ (0 : BitVec 4) : BitVec 32) := by
  rw [and_responseMask, txnFields_assemble]

/-- A transaction header under the mask of the row of the unsupported types (R63, R213). -/
theorem unsupported_bits (t : TxnId) (c : Count) (y i : Nibble) :
    assembleTxnHdr t c y i &&& 0xF0000080 =
      (protocolVersion ++ (0 : BitVec 20) ++ y.extractLsb' 3 1 ++ (0 : BitVec 7) : BitVec 32) := by
  rw [and_unsupportedMask, txnFields_assemble]

theorem OpcodeBits.encPktHdr (byteOrder packetType : Nibble) :
    OpcodeBits.Statement (.encPktHdr byteOrder packetType) :=
  ⟨rfl, _, _, rfl, by show Op.encPktHdr.code.toNat &&& 0xFF = 0x00; decide⟩

theorem OpcodeBits.encTxnHdr (typeID : Nibble) (wordCount : Count) :
    OpcodeBits.Statement (.encTxnHdr typeID wordCount) :=
  ⟨rfl, _, _, rfl, by show Op.encTxnHdr.code.toNat &&& 0xFF = 0x01; decide⟩

theorem OpcodeBits.decPktHdr (w : Word) : OpcodeBits.Statement (.decPktHdr w) :=
  ⟨rfl, _, _, rfl, by show Op.decPktHdr.code.toNat &&& 0xFF = 0x02; decide⟩

theorem OpcodeBits.decTxnHdr (w : Word) : OpcodeBits.Statement (.decTxnHdr w) :=
  ⟨rfl, _, _, rfl, by show Op.decTxnHdr.code.toNat &&& 0xFF = 0x03; decide⟩

theorem OpcodeBits.pidGet : OpcodeBits.Statement (.pidGet) :=
  ⟨rfl, _, _, rfl, by show Op.pidGet.code.toNat &&& 0xFF = 0x10; decide⟩

theorem OpcodeBits.pidSet (value : PacketId) : OpcodeBits.Statement (.pidSet value) :=
  ⟨rfl, _, _, rfl, by show Op.pidSet.code.toNat &&& 0xFF = 0x11; decide⟩

theorem OpcodeBits.pidReset : OpcodeBits.Statement (.pidReset) :=
  ⟨rfl, _, _, rfl, by show Op.pidReset.code.toNat &&& 0xFF = 0x12; decide⟩

theorem OpcodeBits.pidInc : OpcodeBits.Statement (.pidInc) :=
  ⟨rfl, _, _, rfl, by show Op.pidInc.code.toNat &&& 0xFF = 0x13; decide⟩

theorem OpcodeBits.tidGet : OpcodeBits.Statement (.tidGet) :=
  ⟨rfl, _, _, rfl, by show Op.tidGet.code.toNat &&& 0xFF = 0x14; decide⟩

theorem OpcodeBits.tidSet (value : TxnId) : OpcodeBits.Statement (.tidSet value) :=
  ⟨rfl, _, _, rfl, by show Op.tidSet.code.toNat &&& 0xFF = 0x15; decide⟩

theorem OpcodeBits.tidReset : OpcodeBits.Statement (.tidReset) :=
  ⟨rfl, _, _, rfl, by show Op.tidReset.code.toNat &&& 0xFF = 0x16; decide⟩

theorem OpcodeBits.tidInc : OpcodeBits.Statement (.tidInc) :=
  ⟨rfl, _, _, rfl, by show Op.tidInc.code.toNat &&& 0xFF = 0x17; decide⟩

theorem OpcodeBits.txnEncode (q : Descriptor) (cap : Nat) : OpcodeBits.Statement (.txnEncode q cap) :=
  ⟨rfl, _, _, rfl, by show Op.txnEncode.code.toNat &&& 0xFF = 0x20; decide⟩

theorem OpcodeBits.txnDecode (rx : List Byte) : OpcodeBits.Statement (.txnDecode rx) :=
  ⟨rfl, _, _, rfl, by show Op.txnDecode.code.toNat &&& 0xFF = 0x21; decide⟩

theorem OpcodeBits.pktEncode (qs : List Descriptor) (cap : Nat) : OpcodeBits.Statement (.pktEncode qs cap) :=
  ⟨rfl, _, _, rfl, by show Op.pktEncode.code.toNat &&& 0xFF = 0x30; decide⟩

theorem OpcodeBits.pktDecode (rx : List Byte) : OpcodeBits.Statement (.pktDecode rx) :=
  ⟨rfl, _, _, rfl, by show Op.pktDecode.code.toNat &&& 0xFF = 0x31; decide⟩

theorem OpcodeBits.buildRead (addr : Word) (size : Count) (cap : Nat) :
    OpcodeBits.Statement (.buildRead addr size cap) :=
  ⟨rfl, _, _, rfl, by show Op.buildRead.code.toNat &&& 0xFF = 0x40; decide⟩

theorem OpcodeBits.buildWrite (addr : Word) (data : List Word) (cap : Nat) :
    OpcodeBits.Statement (.buildWrite addr data cap) :=
  ⟨rfl, _, _, rfl, by show Op.buildWrite.code.toNat &&& 0xFF = 0x41; decide⟩

theorem OpcodeBits.buildNIRead (addr : Word) (size : Count) (cap : Nat) :
    OpcodeBits.Statement (.buildNIRead addr size cap) :=
  ⟨rfl, _, _, rfl, by show Op.buildNIRead.code.toNat &&& 0xFF = 0x42; decide⟩

theorem OpcodeBits.buildNIWrite (addr : Word) (data : List Word) (cap : Nat) :
    OpcodeBits.Statement (.buildNIWrite addr data cap) :=
  ⟨rfl, _, _, rfl, by show Op.buildNIWrite.code.toNat &&& 0xFF = 0x43; decide⟩

theorem OpcodeBits.buildRMWBits (addr andTerm orTerm : Word) (cap : Nat) :
    OpcodeBits.Statement (.buildRMWBits addr andTerm orTerm cap) :=
  ⟨rfl, _, _, rfl, by show Op.buildRMWBits.code.toNat &&& 0xFF = 0x44; decide⟩

theorem OpcodeBits.buildRMWSum (addr addend : Word) (cap : Nat) :
    OpcodeBits.Statement (.buildRMWSum addr addend cap) :=
  ⟨rfl, _, _, rfl, by show Op.buildRMWSum.code.toNat &&& 0xFF = 0x45; decide⟩

theorem OpcodeBits.decodeResponse (rx : List Byte) : OpcodeBits.Statement (.decodeResponse rx) :=
  ⟨rfl, _, _, rfl, by show Op.decodeResponse.code.toNat &&& 0xFF = 0x4F; decide⟩

theorem OpcodeBits.pktHdrControl (rsvd : Nibble) (packetID : PacketId) (byteOrder : Nibble) (body : List Byte) :
    OpcodeBits.Statement (.pktHdrControl rsvd packetID byteOrder body) :=
  ⟨rfl, _, _, rfl, (packet_bits _ _ _ _).trans (by
    show (protocolVersion ++ (0 : BitVec 24) ++ controlType : BitVec 32) = 0x20000000; decide)⟩

theorem OpcodeBits.pktHdrStatus (rsvd : Nibble) (packetID : PacketId) (byteOrder : Nibble) (body : List Byte) :
    OpcodeBits.Statement (.pktHdrStatus rsvd packetID byteOrder body) :=
  ⟨rfl, _, _, rfl, (packet_bits _ _ _ _).trans (by
    show (protocolVersion ++ (0 : BitVec 24) ++ statusType : BitVec 32) = 0x20000001; decide)⟩

theorem OpcodeBits.pktHdrResend (rsvd : Nibble) (packetID : PacketId) (byteOrder : Nibble) (body : List Byte) :
    OpcodeBits.Statement (.pktHdrResend rsvd packetID byteOrder body) :=
  ⟨rfl, _, _, rfl, (packet_bits _ _ _ _).trans (by
    show (protocolVersion ++ (0 : BitVec 24) ++ resendType : BitVec 32) = 0x20000002; decide)⟩

theorem OpcodeBits.txnReadReq (transactionID : TxnId) (wordCount : Count) (baseAddress : Word) :
    OpcodeBits.Statement (.txnReadReq transactionID wordCount baseAddress) :=
  ⟨rfl, _, _, List.append_assoc .., (request_bits _ _ _ _).trans (by
    show (protocolVersion ++ (0 : BitVec 20) ++ TxnKind.read.code ++ requestInfo : BitVec 32) = 0x2000000F; decide)⟩

theorem OpcodeBits.txnWriteReq (transactionID : TxnId) (wordCount : Count) (baseAddress : Word) (payload : List Word) :
    OpcodeBits.Statement (.txnWriteReq transactionID wordCount baseAddress payload) :=
  ⟨rfl, _, _, List.append_assoc .., (request_bits _ _ _ _).trans (by
    show (protocolVersion ++ (0 : BitVec 20) ++ TxnKind.write.code ++ requestInfo : BitVec 32) = 0x2000001F; decide)⟩

theorem OpcodeBits.txnNIReadReq (transactionID : TxnId) (wordCount : Count) (baseAddress : Word) :
    OpcodeBits.Statement (.txnNIReadReq transactionID wordCount baseAddress) :=
  ⟨rfl, _, _, List.append_assoc .., (request_bits _ _ _ _).trans (by
    show (protocolVersion ++ (0 : BitVec 20) ++ TxnKind.niRead.code ++ requestInfo : BitVec 32) = 0x2000002F; decide)⟩

theorem OpcodeBits.txnNIWriteReq (transactionID : TxnId) (wordCount : Count) (baseAddress : Word) (payload : List Word) :
    OpcodeBits.Statement (.txnNIWriteReq transactionID wordCount baseAddress payload) :=
  ⟨rfl, _, _, List.append_assoc .., (request_bits _ _ _ _).trans (by
    show (protocolVersion ++ (0 : BitVec 20) ++ TxnKind.niWrite.code ++ requestInfo : BitVec 32) = 0x2000003F; decide)⟩

theorem OpcodeBits.txnRMWBitsReq (transactionID : TxnId) (wordCount : Count) (baseAddress andTerm orTerm : Word) :
    OpcodeBits.Statement (.txnRMWBitsReq transactionID wordCount baseAddress andTerm orTerm) :=
  ⟨rfl, _, _, List.append_assoc .., (request_bits _ _ _ _).trans (by
    show (protocolVersion ++ (0 : BitVec 20) ++ TxnKind.rmwBits.code ++ requestInfo : BitVec 32) = 0x2000004F; decide)⟩

theorem OpcodeBits.txnRMWSumReq (transactionID : TxnId) (wordCount : Count) (baseAddress addend : Word) :
    OpcodeBits.Statement (.txnRMWSumReq transactionID wordCount baseAddress addend) :=
  ⟨rfl, _, _, List.append_assoc .., (request_bits _ _ _ _).trans (by
    show (protocolVersion ++ (0 : BitVec 20) ++ TxnKind.rmwSum.code ++ requestInfo : BitVec 32) = 0x2000005F; decide)⟩

theorem OpcodeBits.txnCfgReadReq (transactionID : TxnId) (wordCount : Count) (baseAddress : Word) :
    OpcodeBits.Statement (.txnCfgReadReq transactionID wordCount baseAddress) :=
  ⟨rfl, _, _, List.append_assoc .., (request_bits _ _ _ _).trans (by
    show (protocolVersion ++ (0 : BitVec 20) ++ TxnKind.cfgRead.code ++ requestInfo : BitVec 32) = 0x2000006F; decide)⟩

theorem OpcodeBits.txnCfgWriteReq (transactionID : TxnId) (wordCount : Count) (baseAddress : Word) (payload : List Word) :
    OpcodeBits.Statement (.txnCfgWriteReq transactionID wordCount baseAddress payload) :=
  ⟨rfl, _, _, List.append_assoc .., (request_bits _ _ _ _).trans (by
    show (protocolVersion ++ (0 : BitVec 20) ++ TxnKind.cfgWrite.code ++ requestInfo : BitVec 32) = 0x2000007F; decide)⟩

theorem OpcodeBits.txnReadRsp (transactionID : TxnId) (wordCount : Count) (infoCode : Nibble)
    (baseAddress : Word) (payload : List Word) :
    OpcodeBits.Statement (.txnReadRsp transactionID wordCount infoCode baseAddress payload) :=
  ⟨rfl, _, _, List.append_assoc .., (response_bits _ _ _ _).trans (by
    show (protocolVersion ++ (0 : BitVec 20) ++ TxnKind.read.code ++ (0 : BitVec 4) : BitVec 32) = 0x20000000; decide)⟩

theorem OpcodeBits.txnWriteRsp (transactionID : TxnId) (wordCount : Count) (infoCode : Nibble) (baseAddress : Word) :
    OpcodeBits.Statement (.txnWriteRsp transactionID wordCount infoCode baseAddress) :=
  ⟨rfl, _, _, List.append_assoc .., (response_bits _ _ _ _).trans (by
    show (protocolVersion ++ (0 : BitVec 20) ++ TxnKind.write.code ++ (0 : BitVec 4) : BitVec 32) = 0x20000010; decide)⟩

theorem OpcodeBits.txnNIReadRsp (transactionID : TxnId) (wordCount : Count) (infoCode : Nibble)
    (baseAddress : Word) (payload : List Word) :
    OpcodeBits.Statement (.txnNIReadRsp transactionID wordCount infoCode baseAddress payload) :=
  ⟨rfl, _, _, List.append_assoc .., (response_bits _ _ _ _).trans (by
    show (protocolVersion ++ (0 : BitVec 20) ++ TxnKind.niRead.code ++ (0 : BitVec 4) : BitVec 32) = 0x20000020; decide)⟩

theorem OpcodeBits.txnNIWriteRsp (transactionID : TxnId) (wordCount : Count) (infoCode : Nibble) (baseAddress : Word) :
    OpcodeBits.Statement (.txnNIWriteRsp transactionID wordCount infoCode baseAddress) :=
  ⟨rfl, _, _, List.append_assoc .., (response_bits _ _ _ _).trans (by
    show (protocolVersion ++ (0 : BitVec 20) ++ TxnKind.niWrite.code ++ (0 : BitVec 4) : BitVec 32) = 0x20000030; decide)⟩

theorem OpcodeBits.txnRMWBitsRsp (transactionID : TxnId) (wordCount : Count) (infoCode : Nibble)
    (baseAddress value : Word) :
    OpcodeBits.Statement (.txnRMWBitsRsp transactionID wordCount infoCode baseAddress value) :=
  ⟨rfl, _, _, List.append_assoc .., (response_bits _ _ _ _).trans (by
    show (protocolVersion ++ (0 : BitVec 20) ++ TxnKind.rmwBits.code ++ (0 : BitVec 4) : BitVec 32) = 0x20000040; decide)⟩

theorem OpcodeBits.txnRMWSumRsp (transactionID : TxnId) (wordCount : Count) (infoCode : Nibble)
    (baseAddress value : Word) :
    OpcodeBits.Statement (.txnRMWSumRsp transactionID wordCount infoCode baseAddress value) :=
  ⟨rfl, _, _, List.append_assoc .., (response_bits _ _ _ _).trans (by
    show (protocolVersion ++ (0 : BitVec 20) ++ TxnKind.rmwSum.code ++ (0 : BitVec 4) : BitVec 32) = 0x20000050; decide)⟩

theorem OpcodeBits.txnCfgReadRsp (transactionID : TxnId) (wordCount : Count) (infoCode : Nibble)
    (baseAddress : Word) (payload : List Word) :
    OpcodeBits.Statement (.txnCfgReadRsp transactionID wordCount infoCode baseAddress payload) :=
  ⟨rfl, _, _, List.append_assoc .., (response_bits _ _ _ _).trans (by
    show (protocolVersion ++ (0 : BitVec 20) ++ TxnKind.cfgRead.code ++ (0 : BitVec 4) : BitVec 32) = 0x20000060; decide)⟩

theorem OpcodeBits.txnCfgWriteRsp (transactionID : TxnId) (wordCount : Count) (infoCode : Nibble) (baseAddress : Word) :
    OpcodeBits.Statement (.txnCfgWriteRsp transactionID wordCount infoCode baseAddress) :=
  ⟨rfl, _, _, List.append_assoc .., (response_bits _ _ _ _).trans (by
    show (protocolVersion ++ (0 : BitVec 20) ++ TxnKind.cfgWrite.code ++ (0 : BitVec 4) : BitVec 32) = 0x20000070; decide)⟩

theorem OpcodeBits.txnUnsupported (transactionID : TxnId) (wordCount : Count) (typeLow : BitVec 3) (infoCode : Nibble) :
    OpcodeBits.Statement (.txnUnsupported transactionID wordCount typeLow infoCode) := by
  refine ⟨rfl, _, [], (List.append_nil _).symm, (unsupported_bits _ _ _ _).trans ?_⟩
  show (_ : Word) = 0x20000080
  clear transactionID wordCount infoCode
  revert typeLow
  decide

end Sys2Proof.Laws
end

