-- ==== Sys2Proof/Tests/Slice0.lean ====
section
/-! SUPPORT. Tests of the model, each of one step on a small state: the words of the encodings written out from the spec's
tables, the spec's own vectors (spec/95_test_vectors.md, the row named at each test), the checks of WellFormed, and for each
statement of Certificates/Slice0/Obligations.lean that has hypotheses states and operands that meet them. No expected value
is the model's own answer. -/

namespace Sys2Proof.Tests

-- One test after another: in the package as one text, kernel evaluations that wait side by side take a thread each.
set_option Elab.async false

open Sys2Proof Sys2Proof.Machine

/-- A block with these counters and `MAX_TXN = 183`. -/
def block (p : PacketId) (t : TxnId) : State := { State.reset with pid := p, tid := t }

/-- What a step leaves, if it goes on: both counters and the answers. -/
def after : Result → Option (PacketId × TxnId × List Response)
  | .next s => some (s.pid, s.tid, s.outcome)
  | .fault _ | .refused _ => none

/-- Why a step is refused, if it is. -/
def refusal : Result → Option Refusal
  | .refused r => some r
  | .next _ | .fault _ => none

/-- The bytes and the counters an encoder leaves, if it succeeds. -/
def emitted : Result → Option (List Byte × PacketId × TxnId)
  | .next s =>
    match s.outcome with
    | [.success (.encodedTxn tx _)] | [.success (.encodedPkt tx _)] => some (tx, s.pid, s.tid)
    | _ => none
  | .fault _ | .refused _ => none

/-- The failure an operation ends with and the counters after it, if it fails. -/
def failed : Result → Option (FailureKind × PacketId × TxnId)
  | .next s =>
    match s.outcome with
    | [.failure k] => some (k, s.pid, s.tid)
    | _ => none
  | .fault _ | .refused _ => none

/-! ### WellFormed: an ill-formed term for each check -/

/-- R141: a write of two words with one payload word. -/
theorem test_wf_txnEncode : (Instr.txnEncode ⟨1, 2, 0xEFB, [1]⟩ 64).wellFormed = false := by decide

/-- R141, R146: a read-modify-write with another word count than 1. -/
theorem test_wf_txnEncode_rmw_count : (Instr.txnEncode ⟨4, 2, 0, [1, 2]⟩ 64).wellFormed = false := by decide

/-- R141: a read request with a payload, second in the sequence. -/
theorem test_wf_pktEncode : (Instr.pktEncode [⟨0, 1, 0, []⟩, ⟨0, 1, 0, [7]⟩] 64).wellFormed = false := by decide

/-- R106, U1: 256 words. -/
theorem test_wf_buildWrite : (Instr.buildWrite 0 (List.replicate 256 0) 1472).wellFormed = false := by decide +kernel

/-- R106, U1: 256 words. -/
theorem test_wf_buildNIWrite :
    (Instr.buildNIWrite 0 (List.replicate 256 0) 1472).wellFormed = false := by decide +kernel

/-- R68: a write request carries `wordCount` payload words. -/
theorem test_wf_txnWriteReq : (Instr.txnWriteReq 0 2 0 [1]).wellFormed = false := by decide

/-- R68: a write request carries `wordCount` payload words. -/
theorem test_wf_txnNIWriteReq : (Instr.txnNIWriteReq 0 1 0 []).wellFormed = false := by decide

/-- R68: a write request carries `wordCount` payload words. -/
theorem test_wf_txnCfgWriteReq : (Instr.txnCfgWriteReq 0 0 0 [1]).wellFormed = false := by decide

/-- R68: a read response carries `wordCount` payload words. -/
theorem test_wf_txnReadRsp_count : (Instr.txnReadRsp 0 2 0 0 [1]).wellFormed = false := by decide

/-- R65: info code 0xF marks a request. -/
theorem test_wf_txnReadRsp_info : (Instr.txnReadRsp 0 1 0xF 0 [1]).wellFormed = false := by decide

/-- R68: a read response carries `wordCount` payload words. -/
theorem test_wf_txnNIReadRsp_count : (Instr.txnNIReadRsp 0 2 0 0 [1]).wellFormed = false := by decide

/-- R65: info code 0xF marks a request. -/
theorem test_wf_txnNIReadRsp_info : (Instr.txnNIReadRsp 0 1 0xF 0 [1]).wellFormed = false := by decide

/-- R68: a read response carries `wordCount` payload words. -/
theorem test_wf_txnCfgReadRsp_count : (Instr.txnCfgReadRsp 0 2 0 0 [1]).wellFormed = false := by decide

/-- R65: info code 0xF marks a request. -/
theorem test_wf_txnCfgReadRsp_info : (Instr.txnCfgReadRsp 0 1 0xF 0 [1]).wellFormed = false := by decide

/-- R65: info code 0xF marks a request. -/
theorem test_wf_txnWriteRsp : (Instr.txnWriteRsp 0 1 0xF 0).wellFormed = false := by decide

/-- R65: info code 0xF marks a request. -/
theorem test_wf_txnNIWriteRsp : (Instr.txnNIWriteRsp 0 1 0xF 0).wellFormed = false := by decide

/-- R65: info code 0xF marks a request. -/
theorem test_wf_txnCfgWriteRsp : (Instr.txnCfgWriteRsp 0 1 0xF 0).wellFormed = false := by decide

/-- R65: info code 0xF marks a request. -/
theorem test_wf_txnRMWBitsRsp : (Instr.txnRMWBitsRsp 0 1 0xF 0 7).wellFormed = false := by decide

/-- R65: info code 0xF marks a request. -/
theorem test_wf_txnRMWSumRsp : (Instr.txnRMWSumRsp 0 1 0xF 0 7).wellFormed = false := by decide

/-! ### Decoding: a word written out from the spec's encoding for every constructor -/

/-- A command image: the code of R76, then the operands in the order of R77, their bytes as log 6 lays them out. -/
abbrev command (bytes : List Byte) : Except DecodeError Instr := decode ⟨.command, bytes⟩

/-- A packet: the header word of R61, then its body. -/
abbrev packet (bytes : List Byte) : Except DecodeError Instr := decode ⟨.packet, bytes⟩

/-- A frame: the header word of R63, the base address, the payload (R67). -/
abbrev frame (bytes : List Byte) : Except DecodeError Instr := decode ⟨.frame, bytes⟩

theorem test_decode_encPktHdr : command [0x00, 0x0F, 0x01] = .ok (.encPktHdr 0xF 0x1) := by decide

theorem test_decode_encTxnHdr : command [0x01, 0x07, 0xFF] = .ok (.encTxnHdr 7 0xFF) := by decide

theorem test_decode_decPktHdr : command [0x02, 0x20, 0x12, 0x34, 0xF1] = .ok (.decPktHdr 0x201234F1) := by decide

theorem test_decode_decTxnHdr : command [0x03, 0x20, 0x01, 0x0A, 0x0F] = .ok (.decTxnHdr 0x20010A0F) := by decide

theorem test_decode_pidGet : command [0x10] = .ok .pidGet := by decide

theorem test_decode_pidSet : command [0x11, 0x12, 0x34] = .ok (.pidSet 0x1234) := by decide

theorem test_decode_pidReset : command [0x12] = .ok .pidReset := by decide

theorem test_decode_pidInc : command [0x13] = .ok .pidInc := by decide

theorem test_decode_tidGet : command [0x14] = .ok .tidGet := by decide

theorem test_decode_tidSet : command [0x15, 0x0F, 0xFE] = .ok (.tidSet 0xFFE) := by decide

theorem test_decode_tidReset : command [0x16] = .ok .tidReset := by decide

theorem test_decode_tidInc : command [0x17] = .ok .tidInc := by decide

theorem test_decode_txnEncode :
    command [0x20, 0x01, 0x02, 0x00, 0x00, 0x0E, 0xFB, 0x02, 0x00, 0x00, 0x00, 0x01, 0x00, 0x00, 0x00, 0x02,
      0x10] = .ok (.txnEncode ⟨1, 2, 0xEFB, [1, 2]⟩ 16) := by decide

theorem test_decode_txnDecode :
    command [0x21, 0x03, 0x20, 0x01, 0x0A] = .ok (.txnDecode [0x20, 0x01, 0x0A]) := by decide

theorem test_decode_pktEncode :
    command [0x30, 0x02, 0x00, 0x01, 0x00, 0x00, 0x00, 0x00, 0x00, 0x05, 0x01, 0xCA, 0xFE, 0x00, 0x00, 0x01, 0x00,
      0x00, 0x00, 0x10, 0xC0, 0x0B] = .ok (.pktEncode [⟨0, 1, 0, []⟩, ⟨5, 1, 0xCAFE0000, [0x10]⟩] 1472) := by decide

theorem test_decode_pktDecode :
    command [0x31, 0x04, 0x20, 0x00, 0x00, 0xF0] = .ok (.pktDecode [0x20, 0x00, 0x00, 0xF0]) := by decide

theorem test_decode_buildRead :
    command [0x40, 0x00, 0x00, 0x0E, 0xFB, 0x0A, 0xC0, 0x0B] = .ok (.buildRead 0xEFB 0x0A 1472) := by decide

theorem test_decode_buildWrite :
    command [0x41, 0x00, 0x00, 0x0E, 0xFB, 0x01, 0x00, 0x00, 0x00, 0x07, 0x2C] =
      .ok (.buildWrite 0xEFB [7] 44) := by decide

theorem test_decode_buildNIRead :
    command [0x42, 0x00, 0x00, 0x00, 0x40, 0xFF, 0x0C] = .ok (.buildNIRead 0x40 0xFF 12) := by decide

theorem test_decode_buildNIWrite :
    command [0x43, 0x00, 0x00, 0x00, 0x44, 0x01, 0xA5, 0xA5, 0xA5, 0xA5, 0x10] =
      .ok (.buildNIWrite 0x44 [0xA5A5A5A5] 16) := by decide

theorem test_decode_buildRMWBits :
    command [0x44, 0x00, 0x00, 0x20, 0x04, 0xFF, 0xFF, 0xFF, 0x00, 0x00, 0x00, 0x00, 0x5A, 0x14] =
      .ok (.buildRMWBits 0x2004 0xFFFFFF00 0x5A 20) := by decide

theorem test_decode_buildRMWSum :
    command [0x45, 0x00, 0x00, 0x20, 0x08, 0xFF, 0xFF, 0xFF, 0xFF, 0x10] =
      .ok (.buildRMWSum 0x2008 0xFFFFFFFF 16) := by decide

theorem test_decode_decodeResponse :
    command [0x4F, 0x04, 0x20, 0x00, 0x00, 0xF0] = .ok (.decodeResponse [0x20, 0x00, 0x00, 0xF0]) := by decide

theorem test_decode_pktHdrControl :
    packet [0x2A, 0x12, 0x34, 0x50, 0xFF] = .ok (.pktHdrControl 0xA 0x1234 0x5 [0xFF]) := by decide

theorem test_decode_pktHdrStatus :
    packet [0x20, 0x12, 0x34, 0xF1] = .ok (.pktHdrStatus 0x0 0x1234 0xF []) := by decide

theorem test_decode_pktHdrResend :
    packet [0x20, 0xAB, 0xCD, 0xF2] = .ok (.pktHdrResend 0x0 0xABCD 0xF []) := by decide

theorem test_decode_txnReadReq :
    frame [0x20, 0x01, 0x0A, 0x0F, 0x00, 0x00, 0x0E, 0xFB] = .ok (.txnReadReq 0x001 0x0A 0xEFB) := by decide

theorem test_decode_txnWriteReq :
    frame [0x20, 0x05, 0x02, 0x1F, 0x00, 0x00, 0x0E, 0xFB, 0x00, 0x00, 0x00, 0x01, 0x00, 0x00, 0x00, 0x02] =
      .ok (.txnWriteReq 0x005 0x02 0xEFB [1, 2]) := by decide

theorem test_decode_txnNIReadReq :
    frame [0x20, 0x05, 0xFF, 0x2F, 0x00, 0x00, 0x00, 0x40] = .ok (.txnNIReadReq 0x005 0xFF 0x40) := by decide

theorem test_decode_txnNIWriteReq :
    frame [0x20, 0x05, 0x01, 0x3F, 0x00, 0x00, 0x00, 0x44, 0xA5, 0xA5, 0xA5, 0xA5] =
      .ok (.txnNIWriteReq 0x005 0x01 0x44 [0xA5A5A5A5]) := by decide

theorem test_decode_txnRMWBitsReq :
    frame [0x20, 0x05, 0x01, 0x4F, 0x00, 0x00, 0x20, 0x04, 0xFF, 0xFF, 0xFF, 0x00, 0x00, 0x00, 0x00, 0x5A] =
      .ok (.txnRMWBitsReq 0x005 0x01 0x2004 0xFFFFFF00 0x5A) := by decide

theorem test_decode_txnRMWSumReq :
    frame [0x20, 0x05, 0x01, 0x5F, 0x00, 0x00, 0x20, 0x08, 0xFF, 0xFF, 0xFF, 0xFF] =
      .ok (.txnRMWSumReq 0x005 0x01 0x2008 0xFFFFFFFF) := by decide

theorem test_decode_txnCfgReadReq :
    frame [0x20, 0x05, 0x03, 0x6F, 0x00, 0x00, 0x00, 0x00] = .ok (.txnCfgReadReq 0x005 0x03 0x0) := by decide

theorem test_decode_txnCfgWriteReq :
    frame [0x20, 0x05, 0x01, 0x7F, 0x00, 0x00, 0x00, 0x10, 0x00, 0x00, 0x00, 0x07] =
      .ok (.txnCfgWriteReq 0x005 0x01 0x10 [7]) := by decide

theorem test_decode_txnReadRsp :
    frame [0x20, 0x01, 0x02, 0x00, 0x00, 0x00, 0x0E, 0xFB, 0x00, 0x00, 0x00, 0xAA, 0x00, 0x00, 0x00, 0xBB] =
      .ok (.txnReadRsp 0x001 0x02 0x0 0xEFB [0xAA, 0xBB]) := by decide

theorem test_decode_txnWriteRsp :
    frame [0x20, 0x05, 0x08, 0x10, 0x00, 0x00, 0x0E, 0xFB] = .ok (.txnWriteRsp 0x005 0x08 0x0 0xEFB) := by decide

theorem test_decode_txnNIReadRsp :
    frame [0x20, 0x05, 0x01, 0x24, 0x00, 0x00, 0x00, 0x40, 0x00, 0x00, 0x00, 0x09] =
      .ok (.txnNIReadRsp 0x005 0x01 0x4 0x40 [9]) := by decide

theorem test_decode_txnNIWriteRsp :
    frame [0x28, 0x00, 0xFF, 0x3E, 0x00, 0x00, 0x00, 0x44] = .ok (.txnNIWriteRsp 0x800 0xFF 0xE 0x44) := by decide

theorem test_decode_txnRMWBitsRsp :
    frame [0x2F, 0xFF, 0x01, 0x40, 0x00, 0x00, 0x20, 0x04, 0x12, 0x34, 0x56, 0x78] =
      .ok (.txnRMWBitsRsp 0xFFF 0x01 0x0 0x2004 0x12345678) := by decide

theorem test_decode_txnRMWSumRsp :
    frame [0x20, 0x00, 0x01, 0x50, 0x00, 0x00, 0x20, 0x08, 0x00, 0x00, 0x00, 0x07] =
      .ok (.txnRMWSumRsp 0x000 0x01 0x0 0x2008 7) := by decide

theorem test_decode_txnCfgReadRsp :
    frame [0x20, 0x00, 0x03, 0x64, 0x00, 0x00, 0x00, 0x10, 0x00, 0x00, 0x00, 0x01, 0x00, 0x00, 0x00, 0x02, 0x00,
      0x00, 0x00, 0x03] = .ok (.txnCfgReadRsp 0x000 0x03 0x4 0x10 [1, 2, 3]) := by decide

theorem test_decode_txnCfgWriteRsp :
    frame [0x20, 0x00, 0x03, 0x74, 0x00, 0x00, 0x00, 0x10] = .ok (.txnCfgWriteRsp 0x000 0x03 0x4 0x10) := by decide

theorem test_decode_txnUnsupported :
    frame [0x20, 0x01, 0x0A, 0x8F] = .ok (.txnUnsupported 0x001 0x0A 0 0xF) := by decide

/-- R76: 0x18 is no command code. -/
theorem test_decode_unknownCommand : command [0x18] = .error (.unknownCommand 0x18) := by decide

/-- R126, D5: 0x1000 has 13 bits. -/
theorem test_decode_wideTid : command [0x15, 0x10, 0x00] = .error .operandOutsideType := by decide

/-- V3.2, V6. -/
theorem test_decode_otherVersion :
    frame [0x30, 0x01, 0x0A, 0x8F] = .error (.wire .protocolVersionMismatch) := by decide

/-! ### The spec's vectors -/

/-- R240. -/
theorem test_reset : State.reset.pid = 0 ∧ State.reset.tid = 0 := by decide

/-- V1.1, row 0xFFFF. -/
theorem test_encPktHdr_wrap :
    after (exec (.encPktHdr 0xF 0x0) (block 0xFFFF 3)) = some (0, 3,
      [.success (.header 0x20FFFFF0)]) := by decide +kernel

/-- V1.1, row 0x00FF. -/
theorem test_encPktHdr_carry :
    after (exec (.encPktHdr 0xF 0xF) (block 0x00FF 3)) = some (0x0100, 3,
      [.success (.header 0x2000FFFF)]) := by decide +kernel

/-- V1.2, row 0xFFF, type 7. -/
theorem test_encTxnHdr_wrap :
    after (exec (.encTxnHdr 7 0xFF) (block 9 0xFFF)) = some (9, 0, [.success (.header 0x2FFFFF7F)]) := by decide +kernel

/-- V1.2, row 0x800. -/
theorem test_encTxnHdr_top :
    after (exec (.encTxnHdr 3 0x7F) (block 9 0x800)) = some (9, 0x801,
      [.success (.header 0x28007F3F)]) := by decide +kernel

/-- V1.3. -/
theorem test_decPktHdr_fields :
    after (exec (.decPktHdr 0x2A123450) (block 1 2)) = some (1, 2, [.success (.pktFields ⟨2, 0xA, 0x1234, 0x5,
      0x0⟩)]) := by decide +kernel

/-- V1.3. -/
theorem test_decPktHdr_swapped :
    failed (exec (.decPktHdr 0xF0000020) (block 1 2)) = some (.protocolVersionMismatch, 1, 2) := by decide +kernel

/-- V1.4. -/
theorem test_decTxnHdr_fields :
    after (exec (.decTxnHdr 0x2ABC0520) (block 1 2)) = some (1, 2, [.success (.txnFields ⟨2, 0xABC, 0x05, 2,
      0x0⟩)]) := by decide +kernel

/-- V1.4. -/
theorem test_decTxnHdr_version :
    failed (exec (.decTxnHdr 0x30010A0F) (block 1 2)) = some (.protocolVersionMismatch, 1, 2) := by decide +kernel

/-- R121. -/
theorem test_pidGet :
    after (exec .pidGet (block 0xFFFE 1)) = some (0xFFFE, 1, [.success (.packetID 0xFFFE)]) := by decide +kernel

/-- V2, row 5. -/
theorem test_pidSet :
    after (exec (.pidSet 0xFFFE) (block 1 1)) = some (0xFFFE, 1, [.success .none]) := by decide +kernel

/-- V2, row 13. -/
theorem test_pidReset :
    after (exec .pidReset (block 1 0x800)) = some (0, 0x800, [.success .none]) := by decide +kernel

/-- V2, row 7. -/
theorem test_pidInc_wrap :
    after (exec .pidInc (block 0xFFFF 1)) = some (0, 1, [.success (.packetID 0)]) := by decide +kernel

/-- V2, row 10. -/
theorem test_tidGet :
    after (exec .tidGet (block 1 0xFFF)) = some (1, 0xFFF, [.success (.transactionID 0xFFF)]) := by decide +kernel

/-- V2, row 9. -/
theorem test_tidSet :
    after (exec (.tidSet 0xFFF) (block 1 1)) = some (1, 0xFFF, [.success .none]) := by decide +kernel

/-- V2, row 14. -/
theorem test_tidReset : after (exec .tidReset (block 0 0x800)) = some (0, 0, [.success .none]) := by decide +kernel

/-- V2, row 11. -/
theorem test_tidInc_wrap :
    after (exec .tidInc (block 1 0xFFF)) = some (1, 0, [.success (.transactionID 0)]) := by decide +kernel

/-- S3, the RMWBits row. -/
theorem test_txnEncode_rmw :
    emitted (exec (.txnEncode (rmwBitsRequest 0x2004 0xFFFFFF00 0x5A) 16) (block 9 0x005)) = some ([0x20, 0x05,
      0x01, 0x4F, 0x00, 0x00, 0x20, 0x04, 0xFF, 0xFF, 0xFF, 0x00, 0x00, 0x00, 0x00, 0x5A], 9,
      0x006) := by decide +kernel

/-- V3.1, V6. -/
theorem test_txnEncode_type_first :
    failed (exec (.txnEncode ⟨8, 0, 0, []⟩ 0) (block 9 0x005)) = some (.unsupportedTransactionType, 9,
      0x005) := by decide +kernel

/-- V3.2: bytes after the frame. -/
theorem test_txnDecode_rest :
    after (exec (.txnDecode [0x20, 0x01, 0x0A, 0x0F, 0x00, 0x00, 0x0E, 0xFB, 0xDE, 0xAD]) (block 1 2)) = some (1,
      2, [.success (.decodedTxn ⟨0x001, 0, 0xF, 0x0A, 0xEFB, []⟩ 8)]) := by decide +kernel

/-- V3.2: second payload word incomplete. -/
theorem test_txnDecode_short :
    failed (exec (.txnDecode [0x20, 0x01, 0x02, 0x00, 0x00, 0x00, 0x0E, 0xFB, 0x00, 0x00, 0x00, 0xAA, 0x00, 0x00,
      0x00]) (block 1 2)) = some (.truncatedInput, 1, 2) := by decide +kernel

/-- P2, step 1. -/
theorem test_pktEncode_wrap :
    emitted (exec (.pktEncode [writeRequest 0x1000 [0xDEADBEEF, 1], rmwBitsRequest 0x2004 0xFFFFFF00 0x5A,
      readRequest 0x3000 4, rmwSumRequest 0x2008 0xFFFFFFFF] 1472) (block 0x0010 0xFFE)) = some ([0x20, 0x00, 0x10,
      0xF0, 0x2F, 0xFE, 0x02, 0x1F, 0x00, 0x00, 0x10, 0x00, 0xDE, 0xAD, 0xBE, 0xEF, 0x00, 0x00, 0x00, 0x01, 0x2F,
      0xFF, 0x01, 0x4F, 0x00, 0x00, 0x20, 0x04, 0xFF, 0xFF, 0xFF, 0x00, 0x00, 0x00, 0x00, 0x5A, 0x20, 0x00, 0x04,
      0x0F, 0x00, 0x00, 0x30, 0x00, 0x20, 0x01, 0x01, 0x5F, 0x00, 0x00, 0x20, 0x08, 0xFF, 0xFF, 0xFF, 0xFF],
      0x0011, 0x002) := by decide +kernel

/-- V4.2: one word over, before the capacity. -/
theorem test_pktEncode_limit :
    failed (exec (.pktEncode [writeRequest 0 (List.replicate 255 0),
      writeRequest 0 (List.replicate 109 0)] 100) (block 5 7)) = some (.packetTooLarge, 5, 7) := by decide +kernel

/-- V4.3, third row. -/
theorem test_pktDecode_fields :
    after (exec (.pktDecode [0x2A, 0x12, 0x34, 0x50, 0x20, 0x01, 0x01, 0x00, 0x00, 0x00, 0x00, 0x04, 0xCA, 0xFE,
      0xF0, 0x0D, 0x20, 0x02, 0x02, 0x10, 0x00, 0x00, 0x00, 0x08]) (block 1 2)) = some (1, 2,
      [.success (.decodedPkt ⟨⟨2, 0xA, 0x1234, 0x5, 0⟩, [⟨0x001, 0, 0x0, 0x01, 4, [0xCAFEF00D]⟩, ⟨0x002, 1, 0x0,
      0x02, 8, []⟩]⟩)]) := by decide +kernel

/-- V4.3, last row. -/
theorem test_pktDecode_second :
    failed (exec (.pktDecode [0x20, 0x00, 0x00, 0xF0, 0x20, 0x01, 0x0A, 0x0F, 0x00, 0x00, 0x0E, 0xFB, 0x20, 0x02,
      0x00, 0x9F, 0x00, 0x00, 0x00, 0x00]) (block 1 2)) = some (.unsupportedTransactionType, 1, 2) := by decide +kernel

/-- S1, the second table. -/
theorem test_buildRead :
    emitted (exec (.buildRead 0xEFB 0x0A 1472) (block 0x0002 0x001)) = some ([0x20, 0x00, 0x02, 0xF0, 0x20, 0x01,
      0x0A, 0x0F, 0x00, 0x00, 0x0E, 0xFB], 3, 2) := by decide +kernel

/-- V5.1. -/
theorem test_buildRead_small :
    failed (exec (.buildRead 0xEFB 0x0A 11) (block 0 0)) = some (.bufferTooSmall, 0, 0) := by decide +kernel

/-- S2, third row. -/
theorem test_buildWrite :
    emitted (exec (.buildWrite 0xEFB [1, 2, 3, 4, 5, 6, 7, 8] 1472) (block 0 2)) = some ([0x20, 0x00, 0x00, 0xF0,
      0x20, 0x02, 0x08, 0x1F, 0x00, 0x00, 0x0E, 0xFB, 0x00, 0x00, 0x00, 0x01, 0x00, 0x00, 0x00, 0x02, 0x00, 0x00,
      0x00, 0x03, 0x00, 0x00, 0x00, 0x04, 0x00, 0x00, 0x00, 0x05, 0x00, 0x00, 0x00, 0x06, 0x00, 0x00, 0x00, 0x07,
      0x00, 0x00, 0x00, 0x08], 1, 3) := by decide +kernel

/-- V5.1. -/
theorem test_buildWrite_small :
    failed (exec (.buildWrite 0xEFB [1, 2, 3, 4, 5, 6, 7, 8] 43) (block 0 0)) = some (.bufferTooSmall, 0,
      0) := by decide +kernel

/-- V5.1. -/
theorem test_buildNIRead :
    emitted (exec (.buildNIRead 0x40 0xFF 1472) (block 0 0)) = some ([0x20, 0x00, 0x00, 0xF0, 0x20, 0x00, 0xFF,
      0x2F, 0x00, 0x00, 0x00, 0x40], 1, 1) := by decide +kernel

/-- V5.1. -/
theorem test_buildNIWrite :
    emitted (exec (.buildNIWrite 0x44 [0xA5A5A5A5] 1472) (block 0 0)) = some ([0x20, 0x00, 0x00, 0xF0, 0x20, 0x00,
      0x01, 0x3F, 0x00, 0x00, 0x00, 0x44, 0xA5, 0xA5, 0xA5, 0xA5], 1, 1) := by decide +kernel

/-- V5.1. -/
theorem test_buildRMWBits :
    emitted (exec (.buildRMWBits 0x2004 0xFFFFFF00 0x5A 1472) (block 0 0)) = some ([0x20, 0x00, 0x00, 0xF0, 0x20,
      0x00, 0x01, 0x4F, 0x00, 0x00, 0x20, 0x04, 0xFF, 0xFF, 0xFF, 0x00, 0x00, 0x00, 0x00, 0x5A], 1,
      1) := by decide +kernel

/-- P5, step 2. -/
theorem test_buildRMWSum :
    emitted (exec (.buildRMWSum 0x2008 1 1472) (block 1 1)) = some ([0x20, 0x00, 0x01, 0xF0, 0x20, 0x01, 0x01,
      0x5F, 0x00, 0x00, 0x20, 0x08, 0x00, 0x00, 0x00, 0x01], 2, 2) := by decide +kernel

/-- V5.2: residue is not examined. -/
theorem test_decodeResponse :
    after (exec (.decodeResponse [0x20, 0x00, 0x11, 0xF0, 0x20, 0x01, 0x00, 0x00, 0x00, 0x00, 0x30, 0x00, 0xFF,
      0xFF]) (block 1 2)) = some (1, 2, [.success (.response ⟨0x001, 0, 0x0, 0x00, 0x3000,
      []⟩ 0x0011 12)]) := by decide +kernel

/-- V5.2: a transaction is required. -/
theorem test_decodeResponse_empty :
    failed (exec (.decodeResponse [0x20, 0x00, 0x00, 0xF0]) (block 1 2)) = some (.truncatedInput, 1,
      2) := by decide +kernel

/-! The wire rows: the answers of V3.2 and V4.3 for the same bytes. -/

/-- V4.3, second row. -/
theorem test_step_control :
    after (step { block 1 2 with input := [.request ⟨.packet, [0x20, 0x00, 0x00, 0xF0, 0x20, 0x01, 0x0A, 0x0F,
      0x00, 0x00, 0x0E, 0xFB]⟩] }) = some (1, 2, [.success (.decodedPkt ⟨⟨2, 0, 0, 0xF, 0⟩, [⟨0x001, 0, 0xF, 0x0A,
      0xEFB, []⟩]⟩)]) := by decide +kernel

/-- V4.3: tail of 1 byte. -/
theorem test_step_control_tail :
    failed (step { block 1 2 with input := [.request ⟨.packet, [0x20, 0x00, 0x00, 0xF0, 0x20]⟩] }) =
      some (.truncatedInput, 1, 2) := by decide +kernel

/-- V4.3. -/
theorem test_step_status :
    failed (step { block 1 2 with input := [.request ⟨.packet, [0x20, 0x00, 0x00, 0xF1, 0x00, 0x00, 0x00,
      0x00]⟩] }) = some (.badPacketType, 1, 2) := by decide +kernel

/-- V4.3. -/
theorem test_step_resend :
    failed (step { block 1 2 with input := [.request ⟨.packet, [0x20, 0x00, 0x00, 0xF2]⟩] }) =
      some (.badPacketType, 1, 2) := by decide +kernel

/-- V4.3. -/
theorem test_step_packetVersion :
    failed (step { block 1 2 with input := [.request ⟨.packet, [0x30, 0x00, 0x00, 0xF1]⟩] }) =
      some (.protocolVersionMismatch, 1, 2) := by decide +kernel

/-- V3.2. -/
theorem test_step_unsupported :
    failed (step { block 1 2 with input := [.request ⟨.frame, [0x20, 0x01, 0x0A, 0x8F, 0x00, 0x00, 0x0E,
      0xFB]⟩] }) = some (.unsupportedTransactionType, 1, 2) := by decide +kernel

/-- V3.2. -/
theorem test_step_txnReadReq :
    after (step { block 1 2 with input := [.request ⟨.frame, [0x20, 0x00, 0x00, 0x0F, 0x00, 0x00, 0x00,
      0x00]⟩] }) = some (1, 2, [.success (.decodedTxn ⟨0, 0, 0xF, 0, 0, []⟩ 8)]) := by decide +kernel

/-- S3. -/
theorem test_step_txnWriteReq :
    after (step { block 1 2 with input := [.request ⟨.frame, [0x20, 0x05, 0x02, 0x1F, 0x00, 0x00, 0x0E, 0xFB, 0x00,
      0x00, 0x00, 0x01, 0x00, 0x00, 0x00, 0x02]⟩] }) = some (1, 2, [.success (.decodedTxn ⟨0x005, 1, 0xF, 0x02,
      0xEFB, [1, 2]⟩ 16)]) := by decide +kernel

/-- S3. -/
theorem test_step_txnNIReadReq :
    after (step { block 1 2 with input := [.request ⟨.frame, [0x20, 0x05, 0xFF, 0x2F, 0x00, 0x00, 0x00,
      0x40]⟩] }) = some (1, 2, [.success (.decodedTxn ⟨0x005, 2, 0xF, 0xFF, 0x40, []⟩ 8)]) := by decide +kernel

/-- S3. -/
theorem test_step_txnNIWriteReq :
    after (step { block 1 2 with input := [.request ⟨.frame, [0x20, 0x05, 0x01, 0x3F, 0x00, 0x00, 0x00, 0x44, 0xA5,
      0xA5, 0xA5, 0xA5]⟩] }) = some (1, 2, [.success (.decodedTxn ⟨0x005, 3, 0xF, 0x01, 0x44,
      [0xA5A5A5A5]⟩ 12)]) := by decide +kernel

/-- V3.2. -/
theorem test_step_txnRMWBitsReq :
    after (step { block 1 2 with input := [.request ⟨.frame, [0x2F, 0xFF, 0x01, 0x4F, 0x00, 0x00, 0x20, 0x04, 0xFF,
      0xFF, 0xFF, 0x00, 0x00, 0x00, 0x00, 0x5A]⟩] }) = some (1, 2, [.success (.decodedTxn ⟨0xFFF, 4, 0xF, 0x01,
      0x2004, [0xFFFFFF00, 0x5A]⟩ 16)]) := by decide +kernel

/-- S3. -/
theorem test_step_txnRMWSumReq :
    after (step { block 1 2 with input := [.request ⟨.frame, [0x20, 0x05, 0x01, 0x5F, 0x00, 0x00, 0x20, 0x08, 0xFF,
      0xFF, 0xFF, 0xFF]⟩] }) = some (1, 2, [.success (.decodedTxn ⟨0x005, 5, 0xF, 0x01, 0x2008,
      [0xFFFFFFFF]⟩ 12)]) := by decide +kernel

/-- S3. -/
theorem test_step_txnCfgReadReq :
    after (step { block 1 2 with input := [.request ⟨.frame, [0x20, 0x05, 0x03, 0x6F, 0x00, 0x00, 0x00,
      0x00]⟩] }) = some (1, 2, [.success (.decodedTxn ⟨0x005, 6, 0xF, 0x03, 0, []⟩ 8)]) := by decide +kernel

/-- S3. -/
theorem test_step_txnCfgWriteReq :
    after (step { block 1 2 with input := [.request ⟨.frame, [0x20, 0x05, 0x01, 0x7F, 0x00, 0x00, 0x00, 0x10, 0x00,
      0x00, 0x00, 0x07]⟩] }) = some (1, 2, [.success (.decodedTxn ⟨0x005, 7, 0xF, 0x01, 0x10,
      [7]⟩ 12)]) := by decide +kernel

/-- V3.2. -/
theorem test_step_txnReadRsp :
    after (step { block 1 2 with input := [.request ⟨.frame, [0x20, 0x01, 0x02, 0x00, 0x00, 0x00, 0x0E, 0xFB, 0x00,
      0x00, 0x00, 0xAA, 0x00, 0x00, 0x00, 0xBB]⟩] }) = some (1, 2, [.success (.decodedTxn ⟨0x001, 0, 0, 0x02,
      0xEFB, [0xAA, 0xBB]⟩ 16)]) := by decide +kernel

/-- V3.2. -/
theorem test_step_txnWriteRsp :
    after (step { block 1 2 with input := [.request ⟨.frame, [0x20, 0x05, 0x08, 0x10, 0x00, 0x00, 0x0E,
      0xFB]⟩] }) = some (1, 2, [.success (.decodedTxn ⟨0x005, 1, 0, 0x08, 0xEFB, []⟩ 8)]) := by decide +kernel

/-- By hand from R68. -/
theorem test_step_txnNIReadRsp :
    after (step { block 1 2 with input := [.request ⟨.frame, [0x20, 0x05, 0x01, 0x24, 0x00, 0x00, 0x00, 0x40, 0x00,
      0x00, 0x00, 0x09]⟩] }) = some (1, 2, [.success (.decodedTxn ⟨0x005, 2, 4, 0x01, 0x40,
      [9]⟩ 12)]) := by decide +kernel

/-- By hand from R68. -/
theorem test_step_txnNIWriteRsp :
    after (step { block 1 2 with input := [.request ⟨.frame, [0x28, 0x00, 0xFF, 0x3E, 0x00, 0x00, 0x00,
      0x44]⟩] }) = some (1, 2, [.success (.decodedTxn ⟨0x800, 3, 0xE, 0xFF, 0x44, []⟩ 8)]) := by decide +kernel

/-- V3.2. -/
theorem test_step_txnRMWBitsRsp :
    after (step { block 1 2 with input := [.request ⟨.frame, [0x2F, 0xFF, 0x01, 0x40, 0x00, 0x00, 0x20, 0x04, 0x12,
      0x34, 0x56, 0x78]⟩] }) = some (1, 2, [.success (.decodedTxn ⟨0xFFF, 4, 0, 0x01, 0x2004,
      [0x12345678]⟩ 12)]) := by decide +kernel

/-- V3.2. -/
theorem test_step_txnRMWSumRsp :
    after (step { block 1 2 with input := [.request ⟨.frame, [0x20, 0x00, 0x01, 0x50, 0x00, 0x00, 0x20, 0x08, 0x00,
      0x00, 0x00, 0x07]⟩] }) = some (1, 2, [.success (.decodedTxn ⟨0, 5, 0, 0x01, 0x2008,
      [7]⟩ 12)]) := by decide +kernel

/-- V3.2. -/
theorem test_step_txnCfgReadRsp :
    after (step { block 1 2 with input := [.request ⟨.frame, [0x20, 0x00, 0x03, 0x64, 0x00, 0x00, 0x00, 0x10, 0x00,
      0x00, 0x00, 0x01, 0x00, 0x00, 0x00, 0x02, 0x00, 0x00, 0x00, 0x03]⟩] }) = some (1, 2,
      [.success (.decodedTxn ⟨0, 6, 4, 0x03, 0x10, [1, 2, 3]⟩ 20)]) := by decide +kernel

/-- V3.2. -/
theorem test_step_txnCfgWriteRsp :
    after (step { block 1 2 with input := [.request ⟨.frame, [0x20, 0x00, 0x03, 0x74, 0x00, 0x00, 0x00,
      0x10]⟩] }) = some (1, 2, [.success (.decodedTxn ⟨0, 7, 4, 0x03, 0x10, []⟩ 8)]) := by decide +kernel

/-! Refusals, hardware reset, the opcode table's own numbering. -/

/-- R149, U2. -/
theorem test_refuse_descriptor :
    refusal (exec (.txnEncode ⟨1, 2, 0xEFB, [1]⟩ 64) (block 0 0)) = some .illFormedDescriptor := by decide +kernel

/-- R106, U1. -/
theorem test_refuse_256 :
    refusal (exec (.buildWrite 0 (List.replicate 256 0) 1472) (block 0 0)) = some .payloadTooLong := by decide +kernel

/-- R240. -/
theorem test_step_hardwareReset :
    after (step { block 0x1234 0x567 with input := [.hardwareReset] }) = some (0, 0, []) := by decide +kernel

/-- R76, U12. -/
theorem test_step_unknownCommand :
    refusal (step { block 1 2 with input := [.request ⟨.command, [0x18]⟩] }) =
      some (.noCommand (.unknownCommand 0x18)) := by decide +kernel

/-- Row TID_INC of the table. -/
theorem test_tableWord_tidInc : decodeTableWord 8 0x17 = some .tidInc := by decide +kernel

/-- Row PKT_HDR.STATUS of the table, V1.1; 16 words with the header (R71). -/
theorem test_tableWord_status :
    decodeTableWord 32 0x201234F1 = some (.pktHdrStatus 0 0x1234 0xF (List.replicate 60 0)) := by decide +kernel

/-- Row TXN.RMWSUM.RSP of the table, V3.2. -/
theorem test_tableWord_rmwSumRsp : decodeTableWord 32 0x20000150 = some (.txnRMWSumRsp 0 1 0 0 0) := by decide +kernel

/-- The very next step takes the word. -/
theorem test_withFetchWord :
    after (step (State.reset.withFetchWord 32 0x20010A0F)) = some (0, 0, [.success (.decodedTxn ⟨0x001, 0, 0xF,
      0x0A, 0, []⟩ 8)]) := by decide +kernel

/-- S7: the second block never sees the step of the first. -/
theorem test_system :
    (match System.run [0, 1] ⟨[{ block 7 0x10 with input := [.request ⟨.command, [0x13]⟩] },
      block 7 0x10]⟩ with | .next S => S.blocks.map State.pid | _ => []) = [8, 7] := by decide +kernel

/-! ### Witnesses: for each statement with hypotheses, states and operands that meet them -/

/-- The block of the witnesses, with one event waiting. -/
def waiting (e : Event) : State := { block 0xFFFF 0xFFF with input := [e] }

/-- A write of 255 words, the longest frame (R67). -/
def longWrite : Descriptor := writeRequest 0 (List.replicate 255 0)

/-- A write of 108 words: with `longWrite` a packet of exactly 1472 bytes (V4.2). -/
def fillingWrite : Descriptor := writeRequest 0 (List.replicate 108 0)

/-- A write of 109 words: with `longWrite` one word over 1472 bytes (V4.2). -/
def overflowingWrite : Descriptor := writeRequest 0 (List.replicate 109 0)

/-- A read response of two words (V3.2). -/
def readAnswer : Transaction := ⟨0x001, 0, 0x0, 0x02, 0xEFB, [0xAA, 0xBB]⟩

/-- The longest frame a response can have (R68). -/
def longAnswer : Transaction := ⟨0xFFF, 6, 0xE, 0xFF, 0xFFFFFFFF, List.replicate 255 0xFFFFFFFF⟩

theorem witness_HardwareResetClearsCounters : (waiting .hardwareReset).input = .hardwareReset :: [] := rfl

theorem witness_ResetOperationsReachResetState :
    ∃ t u, execAll [.pidReset, .tidReset] (waiting .hardwareReset) = .next t ∧
      exec (.buildRead 0 0 12) { State.reset with config := (waiting .hardwareReset).config } = .next u :=
  ⟨_, _, rfl, rfl⟩

theorem witness_StepRunsDecodedInstruction_instruction :
    (waiting (.request ⟨.command, [0x10]⟩)).input = .request ⟨.command, [0x10]⟩ :: [] ∧
      decode ⟨.command, [0x10]⟩ = .ok .pidGet := ⟨rfl, by decide⟩

theorem witness_StepRunsDecodedInstruction_wire :
    (waiting (.request ⟨.frame, []⟩)).input = .request ⟨.frame, []⟩ :: [] ∧
      decode ⟨.frame, []⟩ = .error (.wire .truncatedInput) := ⟨rfl, by decide⟩

theorem witness_StepRunsDecodedInstruction_refused :
    (waiting (.request ⟨.command, []⟩)).input = .request ⟨.command, []⟩ :: [] ∧
      decode ⟨.command, []⟩ = .error .incompleteCommand ∧ ∀ k, DecodeError.incompleteCommand ≠ .wire k :=
  ⟨rfl, by decide, fun _ h => by cases h⟩

theorem witness_StepRunsDecodedInstruction_idle : (block 0 0).input = [] := rfl

theorem witness_DecodeInvertsEncode : (Instr.txnWriteReq 0xFFF 0xFF 0 (List.replicate 255 7)).WellFormed ∧
    (Instr.txnReadRsp 0 0 0xE 0 []).WellFormed ∧ (Instr.pktEncode [longWrite, ⟨8, 3, 0, [1]⟩] 0).WellFormed := by
  decide +kernel

theorem witness_EncodeInvertsDecode : command [0x11, 0xFF, 0xFF] = .ok (.pidSet 0xFFFF) ∧
    packet [0x2F, 0x00, 0x00, 0x02] = .ok (.pktHdrResend 0xF 0 0 []) ∧
    frame [0x20, 0x00, 0x00, 0x80, 0xFF] = .ok (.txnUnsupported 0 0 0 0) := by decide

theorem witness_TransactionRowsOverlapOnlyAtRequests :
    ∃ r ∈ txnRows, ∃ r' ∈ txnRows, r ≠ r' ∧ (0x2FFFFF7F : Word) &&& r.mask = r.pattern ∧
      (0x2FFFFF7F : Word) &&& r'.mask = r'.pattern :=
  ⟨⟨0xF00000FF, 0x2000007F, .request .cfgWrite⟩, by decide, ⟨0xF00000F0, 0x20000070, .response .cfgWrite⟩, by decide,
    by decide, by decide, by decide⟩

theorem witness_TransactionRowsOverlapOnlyAtRequests_order : (0x3FFFFF7F : Word).toNat / 2 ^ 28 ≠ 2 ∧
    (0x2FFFFF7F : Word).toNat / 2 ^ 28 = 2 ∧ (0x2FFFFF7F : Word).toNat / 16 % 16 = TxnKind.cfgWrite.code.toNat ∧
    (0x2FFFFF7F : Word).toNat % 16 = 15 ∧ (0x2FFFFF7E : Word).toNat / 16 % 16 = TxnKind.cfgWrite.code.toNat ∧
    (0x2FFFFF7E : Word).toNat % 16 ≠ 15 ∧ 8 ≤ (0x2000008F : Word).toNat / 16 % 16 := by decide

theorem witness_UnknownCommandsAndWideOperandsRefused_code : (∀ row ∈ commandTable, row.1 ≠ 0x04) ∧
    (waiting (.request ⟨.command, [0x04]⟩)).input = .request ⟨.command, 0x04 :: []⟩ :: [] := ⟨by decide, rfl⟩

theorem witness_UnknownCommandsAndWideOperandsRefused_tid : 16 ≤ (0x10 : Byte).toNat ∧
    (waiting (.request ⟨.command, [0x15, 0x10, 0x00]⟩)).input = .request ⟨.command, [0x15, 0x10, 0x00]⟩ :: [] :=
  ⟨by decide, rfl⟩

theorem witness_UnknownCommandsAndWideOperandsRefused_type : 16 ≤ (0x10 : Byte).toNat ∧
    (waiting (.request ⟨.command, [0x01, 0x10, 0x00]⟩)).input = .request ⟨.command, [0x01, 0x10, 0x00]⟩ :: [] :=
  ⟨by decide, rfl⟩

theorem witness_UnknownCommandsAndWideOperandsRefused_noCommand : (∀ i : Instr, decode ⟨.command, []⟩ ≠ .ok i) ∧
    (waiting (.request ⟨.command, []⟩)).input = .request ⟨.command, []⟩ :: [] :=
  ⟨fun _ => nofun, rfl⟩

theorem witness_UnknownCommandsAndWideOperandsRefused_header :
    (16 ≤ (0x0F : Byte).toNat ∨ 16 ≤ (0x10 : Byte).toNat) ∧ (16 ≤ (0x10 : Byte).toNat ∨ 16 ≤ (0x0F : Byte).toNat) ∧
    (waiting (.request ⟨.command, [0x00, 0x0F, 0x10]⟩)).input = .request ⟨.command, [0x00, 0x0F, 0x10]⟩ :: [] :=
  ⟨by decide, by decide, rfl⟩

theorem witness_UnknownCommandsAndWideOperandsRefused_descriptor : 16 ≤ (0x10 : Byte).toNat ∧
    (waiting (.request ⟨.command, [0x20, 0x10]⟩)).input = .request ⟨.command, 0x20 :: 0x10 :: []⟩ :: [] :=
  ⟨by decide, rfl⟩

theorem witness_UnknownCommandsAndWideOperandsRefused_sequence : [readRequest 0 0].length < 2 ∧ 16 ≤ (0x10 : Byte).toNat ∧
    (waiting (.request ⟨.command, [0x30, 0x02, 0, 0, 0, 0, 0, 0, 0, 0x10]⟩)).input =
      .request ⟨.command, 0x30 :: (natImage 2 ++ ([readRequest 0 0].map descriptorImage).flatten ++ 0x10 :: [])⟩ :: [] := by
  decide +kernel

theorem witness_UnknownCommandsAndWideOperandsRefused_length :
    decode ⟨.command, [0x11, 0xFF] ++ [0xFF]⟩ = .ok (.pidSet 0xFFFF) ∧ ([0xFF] : List Byte) ≠ [] ∧
    (waiting (.request ⟨.command, [0x11, 0xFF]⟩)).input = .request ⟨.command, [0x11, 0xFF]⟩ :: [] ∧
    decode ⟨.command, [0x11, 0xFF, 0xFF]⟩ = .ok (.pidSet 0xFFFF) ∧
    (waiting (.request ⟨.command, [0x11, 0xFF, 0xFF] ++ [0xFF]⟩)).input =
      .request ⟨.command, [0x11, 0xFF, 0xFF] ++ [0xFF]⟩ :: [] := by decide +kernel

theorem witness_DecPktHdrSlicesFields : (0x2FFFFFFF : Word).toNat / 2 ^ 28 = 2 ∧ (0x30000000 : Word).toNat / 2 ^ 28 ≠ 2 := by
  decide

theorem witness_DecTxnHdrSlicesFields : (0x20000000 : Word).toNat / 2 ^ 28 = 2 ∧ (0x1FFFFFFF : Word).toNat / 2 ^ 28 ≠ 2 := by
  decide

theorem witness_HeaderRoundTrip :
    (∃ u, exec (.decTxnHdr 0x2FFFFF7F) (block 0 0) = .next u ∧
      u.outcome = [] ++ [.success (.txnFields ⟨2, 0xFFF, 0xFF, 7, 0xF⟩)]) ∧
    ∃ u, exec (.decPktHdr 0x2FFFFFFF) (block 0 0) = .next u ∧
      u.outcome = [] ++ [.success (.pktFields ⟨2, 0xF, 0xFFFF, 0xF, 0xF⟩)] := ⟨⟨_, rfl, rfl⟩, _, rfl, rfl⟩

theorem witness_ByteSwappedHeaderRejected : (resendType).toNat ≤ 2 ∧ (controlType).toNat ≤ 2 := by decide

theorem witness_PidOperations : (block 0xFFFF 0).pid.toNat = 0xFFFF ∧ (block 0xFFFE 0).pid.toNat ≠ 0xFFFF := by decide

theorem witness_TidOperations : (block 0 0xFFF).tid.toNat = 0xFFF ∧ (block 0 0xFFE).tid.toNat ≠ 0xFFF := by decide

theorem witness_WordsAreBigEndian :
    (∃ t tx T, exec (.txnEncode (rmwBitsRequest 0x2004 1 2) 16) (block 0xFFFF 0xFFF) = .next t ∧
      t.outcome = [] ++ [.success (.encodedTxn tx T)]) ∧
    (∃ t tx P, exec (.buildRead 0xEFB 0x0A 12) (block 0xFFFF 0xFFF) = .next t ∧
      t.outcome = [] ++ [.success (.encodedPkt tx P)]) ∧
    ∃ t r, exec (.pktEncode [] 4) (block 0xFFFF 0xFFF) = .next t ∧ t.outcome = [] ++ [r] ∧ deliveredBytes r ≠ [] :=
  ⟨⟨_, _, _, rfl, rfl⟩, ⟨_, _, _, rfl, rfl⟩, _, _, rfl, rfl, by decide⟩

theorem witness_WordsAreReadBack : rxWord [0xAA, 0x00, 0x00, 0x0E, 0xFB] 1 = some 0xEFB := by decide

theorem witness_OnlyListedOperationsChangeCounters :
    (∃ t, exec (.buildRead 0 0 12) (block 0xFFFF 0xFFF) = .next t) ∧
    (∃ t, exec (.buildRead 0 0 11) (block 0xFFFF 0xFFF) = .next t) ∧
    (∃ t, step (waiting .hardwareReset) = .next t ∧ (t.pid ≠ (waiting .hardwareReset).pid ∨ t.tid ≠ 0xFFF)) ∧
    (∃ t, step (waiting (.request ⟨.command, [0x17]⟩)) = .next t ∧
      (t.pid ≠ 0xFFFF ∨ t.tid ≠ (waiting (.request ⟨.command, [0x17]⟩)).tid)) ∧
    usesBothCounters (.encTxnHdr 0 0) = false ∧ ∃ t, exec (.encTxnHdr 0 0) (block 0xFFFF 0xFFF) = .next t :=
  ⟨⟨_, rfl⟩, ⟨_, rfl⟩, ⟨_, rfl, .inl (by decide)⟩, ⟨_, rfl, .inr (by decide)⟩, rfl, _, rfl⟩

theorem witness_ConstructorsReturnWellFormedDescriptors :
    (RequestCall.cfgWrite 0 (List.replicate 255 0)).legal = true ∧ longWrite.wellFormed = true := by decide +kernel

theorem witness_TxnEncodeEmitsFrame : (longWrite.wellFormed = true ∧ 8 + 4 * longWrite.payload.length ≤ 1028) ∧
    (readRequest 0 0xFF).wellFormed = true ∧ 8 + 4 * (readRequest 0 0xFF).payload.length ≤ 8 := by decide +kernel

theorem witness_TxnEncodeFailsInOrder : 8 ≤ (Descriptor.typeID ⟨8, 0, 0, []⟩).toNat ∧
    (longWrite.wellFormed = true ∧ 1027 < 8 + 4 * longWrite.payload.length) ∧
    (Descriptor.typeID ⟨7, 0, 0, [1]⟩).toNat < 8 ∧ Descriptor.wellFormed ⟨7, 0, 0, [1]⟩ = false := by decide +kernel

theorem witness_TxnDecodeReturnsExactlyFrames : (longAnswer.valid = true ∧ readAnswer.valid = true) ∧
    after (exec (.txnDecode (readAnswer.wire ++ [0xDE])) (block 0 0)) = some (0, 0, [.success (.decodedTxn readAnswer 16)]) := by
  decide +kernel

theorem witness_TxnDecodeFailsInOrder : [0x20, 0x01, 0x0A].length < 4 ∧
    (rxWord [0x30, 0x01, 0x0A, 0x8F] 0 = some 0x30010A8F ∧ (txnFields 0x30010A8F).version ≠ 2) ∧
    (rxWord [0x20, 0x01, 0x0A, 0x8F] 0 = some 0x20010A8F ∧ (txnFields 0x20010A8F).version = 2 ∧
      8 ≤ (txnFields 0x20010A8F).typeID.toNat) ∧
    rxWord [0x20, 0x01, 0x0A, 0x0F, 0, 0, 0] 0 = some 0x20010A0F ∧ (txnFields 0x20010A0F).version = 2 ∧
      (txnFields 0x20010A0F).typeID = TxnKind.read.code ∧
      [0x20, 0x01, 0x0A, 0x0F, 0, 0, 0].length <
        8 + 4 * paylen .read (txnFields 0x20010A0F).infoCode (txnFields 0x20010A0F).wordCount := by decide

theorem witness_TxnRoundTrip : (rmwBitsRequest 0 1 2).wellFormed = true ∧ 8 + 4 * (rmwBitsRequest 0 1 2).payload.length ≤ 16 ∧
    ∃ t tx T, exec (.txnEncode (rmwBitsRequest 0 1 2) 16) (block 0 0xFFF) = .next t ∧
      t.outcome = [] ++ [.success (.encodedTxn tx T)] := ⟨by decide, by decide, _, _, _, rfl, rfl⟩

theorem witness_EncodedLengthsAndCeiling : ((readRequest 0 0xFF).wellFormed = true ∧
      (readRequest 0 0xFF).typeID = TxnKind.read.code ∧ TxnKind.read.cls = .readType) ∧
    (longWrite.wellFormed = true ∧ longWrite.typeID = TxnKind.write.code ∧ TxnKind.write.cls = .writeType) ∧
    ((rmwBitsRequest 0 0 0).wellFormed = true ∧ (rmwBitsRequest 0 0 0).typeID = TxnKind.rmwBits.code) ∧
    ((rmwSumRequest 0 0).wellFormed = true ∧ (rmwSumRequest 0 0).typeID = TxnKind.rmwSum.code) ∧
    packetBytes [longWrite, fillingWrite] ≤ 1472 := by decide +kernel

theorem witness_PktEncodeEmitsPacket : ((∀ q ∈ [longWrite, fillingWrite], q.wellFormed = true) ∧
      [longWrite, fillingWrite].length ≤ (block 0xFFFF 0xFFF).config.maxTxn ∧
      packetBytes [longWrite, fillingWrite] ≤ 1472 ∧ packetBytes [longWrite, fillingWrite] ≤ 1472) ∧
    (∀ q ∈ ([] : List Descriptor), q.wellFormed = true) ∧ packetBytes [] ≤ 4 := by decide +kernel

theorem witness_PktEncodeFailsInOrder :
    ((∀ q ∈ [longWrite, ⟨9, 0, 0, []⟩], q.presentable = true) ∧ ∃ q ∈ [longWrite, ⟨9, 0, 0, []⟩], 8 ≤ q.typeID.toNat) ∧
    ((∀ q ∈ List.replicate 184 (readRequest 0 1), q.wellFormed = true) ∧
      (block 0 0).config.maxTxn < (List.replicate 184 (readRequest 0 1)).length) ∧
    ((∀ q ∈ [longWrite, overflowingWrite], q.wellFormed = true) ∧ 1472 < packetBytes [longWrite, overflowingWrite]) ∧
    ((∀ q ∈ [longWrite], q.wellFormed = true) ∧ packetBytes [longWrite] ≤ 1472 ∧ 1031 < packetBytes [longWrite]) ∧
    ∃ q ∈ [longWrite, ⟨7, 0, 0, [1]⟩], q.typeID.toNat < 8 ∧ q.wellFormed = false := by decide +kernel

theorem witness_PktEncodeIsItsExpansion : (∀ q ∈ [longWrite, fillingWrite], q.wellFormed = true) ∧
    [longWrite, fillingWrite].length ≤ (block 0 0).config.maxTxn ∧ packetBytes [longWrite, fillingWrite] ≤ 1472 := by
  decide +kernel

theorem witness_PktDecodeReturnsExactlyPackets :
    ControlPacket.valid ⟨⟨2, 0xF, 0xFFFF, 0x0, 0⟩, [longAnswer, readAnswer]⟩ = true ∧
    after (exec (.pktDecode (ControlPacket.wire ⟨⟨2, 0xF, 0xFFFF, 0x0, 0⟩, [readAnswer]⟩)) (block 0 0)) =
      some (0, 0, [.success (.decodedPkt ⟨⟨2, 0xF, 0xFFFF, 0x0, 0⟩, [readAnswer]⟩)]) := by decide +kernel

theorem witness_PktDecodeFailsInOrder : ([0x20, 0x00, 0x00].length < 4 ∧
      (rxWord [0x30, 0x00, 0x00, 0xF1] 0 = some 0x300000F1 ∧ (pktFields 0x300000F1).version ≠ 2) ∧
      rxWord [0x20, 0x00, 0x00, 0xF1] 0 = some 0x200000F1 ∧ (pktFields 0x200000F1).version = 2 ∧
      (pktFields 0x200000F1).packetType ≠ 0) ∧
    ControlPacket.valid ⟨⟨2, 0, 0, 0xF, 0⟩, [readAnswer]⟩ = true ∧ [0x20] ≠ [] ∧
      failed (exec (.txnDecode [0x20]) (block 0 0)) = some (.truncatedInput, 0, 0) := by decide +kernel

theorem witness_PktRoundTrip : (∀ q ∈ [rmwSumRequest 0 1, readRequest 0 1], q.wellFormed = true) ∧
    ∃ t tx P, exec (.pktEncode [rmwSumRequest 0 1, readRequest 0 1] 24) (block 0xFFFF 0xFFF) = .next t ∧
      t.outcome = [] ++ [.success (.encodedPkt tx P)] := ⟨by decide, _, _, _, rfl, rfl⟩

theorem witness_BuildReadsEmitOneRequest : (block 0xFFFF 0xFFF).config.Wf ∧ 12 ≤ 12 ∧ 11 < 12 ∧
    (Instr.buildNIRead 0 0xFF 12 = .buildNIRead 0 0xFF 12 ∧ (2 : Nibble) = 2) := by decide

theorem witness_BuildWritesEmitOneRequest : (block 0xFFFF 0xFFF).config.Wf ∧
    ((List.replicate 255 (0 : Word)).length ≤ 255 ∧ 12 + 4 * (List.replicate 255 (0 : Word)).length ≤ 1032) ∧
    ((List.replicate 255 (0 : Word)).length ≤ 255 ∧ 1031 < 12 + 4 * (List.replicate 255 (0 : Word)).length) ∧
    255 < (List.replicate 256 (0 : Word)).length := by decide +kernel

theorem witness_BuildReadModifyWritesEmitOneRequest : (block 0xFFFF 0xFFF).config.Wf ∧ (20 ≤ 20 ∧ 19 < 20) ∧ 16 ≤ 16 ∧ 15 < 16 := by
  decide

theorem witness_DecodeResponseReturnsFirstTransaction : (longAnswer.valid = true ∧ readAnswer.valid = true) ∧
    after (exec (.decodeResponse (be32 0x200011F0 ++ readAnswer.wire ++ [0xFF])) (block 0 0)) =
      some (0, 0, [.success (.response readAnswer 0x0011 20)]) := by decide +kernel

theorem witness_DecodeResponseAgreesWithPktDecode :
    after (exec (.pktDecode (be32 0x200011F0 ++ readAnswer.wire)) (block 0 0)) =
      some (0, 0, [.success (.decodedPkt ⟨⟨2, 0, 0x0011, 0xF, 0⟩, readAnswer :: []⟩)]) ∧
    [0x20, 0x00, 0x00].length < 4 ∧
    (rxWord [0x10, 0x00, 0x00, 0xF0] 0 = some 0x100000F0 ∧ (pktFields 0x100000F0).version ≠ 2) ∧
    rxWord [0x20, 0x00, 0x00, 0xF1] 0 = some 0x200000F1 ∧ (pktFields 0x200000F1).packetType ≠ 0 := by decide +kernel

theorem witness_DecodeResponseFailsInOrder :
    [0x20, 0x00, 0x00].length < 4 ∧
    (rxWord [0x30, 0x00, 0x00, 0xF1] 0 = some 0x300000F1 ∧ (pktFields 0x300000F1).version ≠ 2) ∧
    (rxWord [0x20, 0x00, 0x00, 0xFF] 0 = some 0x200000FF ∧ (pktFields 0x200000FF).version = 2 ∧
      (pktFields 0x200000FF).packetType ≠ 0) ∧
    failed (exec (.txnDecode []) (block 0 0)) = some (.truncatedInput, 0, 0) ∧
    failed (exec (.txnDecode [0x30, 0x01, 0x0A, 0x8F]) (block 0 0)) = some (.protocolVersionMismatch, 0, 0) ∧
    failed (exec (.txnDecode [0x20, 0x01, 0x0A, 0xAF]) (block 0 0)) = some (.unsupportedTransactionType, 0, 0) ∧
    failed (exec (.txnDecode [0x20, 0x01, 0x01, 0x00, 0x00, 0x00, 0x0E, 0xFB, 0x00, 0x00, 0x00]) (block 0 0)) =
      some (.truncatedInput, 0, 0) := by decide +kernel

/-- R65, R74: a first transaction of type 0xA, whose address is missing too. -/
theorem test_decodeResponse_unsupported :
    failed (exec (.decodeResponse [0x20, 0x00, 0x00, 0xF0, 0x20, 0x01, 0x0A, 0xAF]) (block 1 2)) =
      some (.unsupportedTransactionType, 1, 2) := by decide +kernel

/-- R9, R65: the success code is 0x0; the request mark and an error code are not it (S- and P-vectors: P1 step 4, P2 step 3). -/
theorem test_successInfo : (txnFields 0x20000A00).infoCode = successInfo ∧ readAnswer.succeeded = true ∧
    longAnswer.succeeded = false ∧ requestInfo ≠ successInfo := by decide +kernel

theorem witness_ControlPacketsAreReceived : ∀ T ∈ [longAnswer, readAnswer], T.valid = true := by decide +kernel

theorem witness_RequestFramesAreReceived : (List.replicate 255 (0 : Word)).length = (0xFF : Count).toNat ∧
    ([] : List Word).length = (0 : Count).toNat := by decide +kernel

theorem witness_ResponseFramesAreReceived : (0xE : Nibble) ≠ 0xF ∧ (List.replicate 255 (0 : Word)).length = (0xFF : Count).toNat := by
  decide +kernel

theorem witness_WireChannelsAreTheDecoders :
    (waiting (.request ⟨.frame, [0x20]⟩)).input = .request ⟨.frame, [0x20]⟩ :: [] ∧
    (waiting (.request ⟨.packet, []⟩)).input = .request ⟨.packet, []⟩ :: [] := ⟨rfl, rfl⟩

theorem witness_EveryOperationEndsWithOneAnswer : (Instr.buildWrite 0 (List.replicate 255 0) 0).WellFormed ∧
    (Instr.txnEncode ⟨8, 3, 0, [1]⟩ 0).WellFormed := by decide +kernel

theorem witness_IllFormedInstructionsRefused : ¬ (Instr.pktEncode [⟨7, 0, 0, [1]⟩] 0).WellFormed ∧
    ¬ (Instr.buildNIWrite 0 (List.replicate 256 0) 1472).WellFormed ∧ ¬ (Instr.txnWriteRsp 0 0 0xF 0).WellFormed := by
  decide +kernel

theorem witness_FailureKindsByOperation : (block 0 0).config.Wf ∧
    failed (exec (.buildRead 0 0 11) (block 0 0)) = some (.bufferTooSmall, 0, 0) ∧
    failed (exec (.txnEncode (readRequest 0 0) 7) (block 0 0)) = some (.bufferTooSmall, 0, 0) ∧
    failed (exec (.pktEncode [longWrite, overflowingWrite] 0) (block 0 0)) = some (.packetTooLarge, 0, 0) ∧
    failed (exec (.txnDecode []) (block 0 0)) = some (.truncatedInput, 0, 0) ∧
    failed (exec (.pktDecode [0x20, 0x00, 0x00, 0xF1]) (block 0 0)) = some (.badPacketType, 0, 0) ∧
    failed (exec (.txnUnsupported 0 0 0 0) (block 0 0)) = some (.unsupportedTransactionType, 0, 0) ∧
    failed (exec (.decPktHdr 0x300000F0) (block 0 0)) = some (.protocolVersionMismatch, 0, 0) := by decide +kernel

theorem witness_DeliveredBytesFitCapacity :
    (capacity (.buildRead 0 0 12) = some 12 ∧
      ∃ t r, exec (.buildRead 0 0 12) (block 0 0) = .next t ∧ t.outcome = [] ++ [r]) ∧
    (capacity .pidGet = none ∧ ∃ t r, exec .pidGet (block 0 0) = .next t ∧ t.outcome = [] ++ [r]) ∧
    (8 ≤ 9 ∧ ∃ t v, exec (.txnEncode (readRequest 0 0) 8) (block 0 0) = .next t ∧ t.outcome = [] ++ [.success v]) ∧
    (4 ≤ 1472 ∧ ∃ t v, exec (.pktEncode [] 4) (block 0 0) = .next t ∧ t.outcome = [] ++ [.success v]) :=
  ⟨⟨rfl, _, _, rfl, rfl⟩, ⟨rfl, _, _, rfl, rfl⟩, ⟨by decide, _, _, rfl, rfl⟩, by decide, _, _, rfl, rfl⟩

theorem witness_StatusCodesTellKindsApart :
    statusCode (.failure .badPacketType) = statusCode (.failure .badPacketType) ∧ 1 ≤ 8 := by decide

theorem witness_DecodersTouchNoRegister : isDecoder (.txnReadRsp 0 0 0 0 []) = true ∧
    ∃ t, exec (.txnReadRsp 0 0 0 0 []) (block 0xFFFF 0xFFF) = .next t := ⟨rfl, _, rfl⟩

theorem witness_NoHiddenState :
    (block 1 2).pid = (waiting .hardwareReset |> writeTid 2 |> writePid 1).pid ∧
    (block 1 2).tid = (waiting .hardwareReset |> writeTid 2 |> writePid 1).tid ∧
    (block 1 2).config = (waiting .hardwareReset |> writeTid 2 |> writePid 1).config ∧
    ∃ t, exec (.buildRMWSum 0 1 16) (block 1 2) = .next t := ⟨rfl, rfl, rfl, _, rfl⟩

theorem witness_FailureLeavesNoTrace :
    ∃ t u, exec (.buildRead 0 0 11) (block 0xFFFF 0xFFF) = .next t ∧ t.outcome = [] ++ [.failure .bufferTooSmall] ∧
      exec (.buildRead 0 0 12) (block 0xFFFF 0xFFF) = .next u := ⟨_, _, rfl, rfl, rfl⟩

/-- The invariant right after reset, with a request of the longest answer waiting. -/
theorem witness_StepKeepsInvariant : State.reset.Inv ∧
    (waiting (.request ⟨.command, [0x40, 0, 0, 0, 0, 0, 12]⟩)).Inv ∧
    (after (step (waiting (.request ⟨.command, [0x40, 0, 0, 0, 0, 0, 12]⟩)))).isSome := by
  refine ⟨⟨by decide, fun _ h => nomatch h⟩, ⟨by decide, fun _ h => nomatch h⟩, by decide +kernel⟩

theorem witness_StepKeepsConfigurationAndTakesOneEvent : ∃ t, step (waiting .hardwareReset) = .next t := ⟨_, rfl⟩

theorem witness_ConsecutivePacketsAreAccepted :
    buildsPacket (.encPktHdr 0xF 1) = true ∧ buildsPacket (.buildRead 0 0 12) = true ∧
    (∀ m ∈ [Instr.tidReset, .pidGet], ∀ v : PacketId, pidAfter m v = v) ∧
    ∃ t t' u r r' p p', exec (.encPktHdr 0xF 1) (block 0xFFFF 0) = .next t ∧ t.outcome = [] ++ [r] ∧
      builtPacketId r = some p ∧ execAll [.tidReset, .pidGet] t = .next t' ∧ exec (.buildRead 0 0 12) t' = .next u ∧
      u.outcome = t'.outcome ++ [r'] ∧ builtPacketId r' = some p' := by
  refine ⟨rfl, rfl, ?_, _, _, _, _, _, _, _, rfl, rfl, rfl, rfl, rfl, rfl, rfl⟩
  intro m hm v
  simp only [List.mem_cons, List.not_mem_nil, or_false] at hm
  rcases hm with rfl | rfl <;> rfl

theorem witness_PacketIdsWrapThroughZero :
    buildsPacket (.encPktHdr 0xF 1) = true ∧ buildsPacket (.buildRead 0 0 12) = true ∧
    buildsPacket (.pktEncode [] 4) = true ∧
    ∃ t u v r r' r'' p p' p'', exec (.encPktHdr 0xF 1) (block 0xFFFF 0) = .next t ∧ t.outcome = [] ++ [r] ∧
      builtPacketId r = some p ∧ exec (.buildRead 0 0 12) t = .next u ∧ u.outcome = t.outcome ++ [r'] ∧
      builtPacketId r' = some p' ∧ exec (.pktEncode [] 4) u = .next v ∧ v.outcome = u.outcome ++ [r''] ∧
      builtPacketId r'' = some p'' ∧ p.toNat = 0xFFFF :=
  ⟨rfl, rfl, rfl, _, _, _, _, _, _, _, _, _, rfl, rfl, rfl, rfl, rfl, rfl, rfl, rfl, rfl, by decide⟩

theorem witness_BlocksAreIsolated :
    (∃ S', System.run [0, 1, 0] ⟨[waiting .hardwareReset, block 7 8]⟩ = .next S') ∧
    (System.blocks ⟨[waiting .hardwareReset, block 7 8]⟩)[1]? = some (block 7 8) ∧
    ∃ t, core.run ([0, 1, 0].count 1) (block 7 8) = .next t := ⟨⟨_, rfl⟩, rfl, _, rfl⟩

end Sys2Proof.Tests
end

section
/-! PROOFS. R41: the bytes of a word are its base-256 digits, and the block delivers no other bytes than the words of the
Transaction or packet it returns with them. -/

namespace Sys2Proof

/-- The bytes of a word as numbers: its base-256 digits, most significant first (R41). -/
theorem be32_toNat (w : Word) : (be32 w).map BitVec.toNat =
    [w.toNat / 2 ^ 24, w.toNat / 2 ^ 16 % 256, w.toNat / 2 ^ 8 % 256, w.toNat % 256] := by
  have hw := w.isLt
  simp only [be32, List.map_cons, List.map_nil, BitVec.extractLsb'_toNat, Nat.shiftRight_eq_div_pow, List.cons.injEq,
    and_true, true_and]
  omega

/-- A frame's bytes, its payload word by word (R41, R67). -/
theorem Transaction.wire_eq_words (T : Transaction) : T.wire =
    be32 (assembleTxnHdr T.transactionID T.wordCount T.typeID T.infoCode) ++ be32 T.baseAddress
      ++ (T.payload.map be32).flatten := by
  rw [Transaction.wire, be32s_eq_flatten]

/-- A packet's bytes, word by word (R41, R69). -/
theorem ControlPacket.wire_eq_words (P : ControlPacket) : P.wire =
    be32 (assemblePktHdr P.header.rsvd P.header.packetID P.header.byteOrder P.header.packetType)
      ++ (P.transactions.map fun T => be32 (assembleTxnHdr T.transactionID T.wordCount T.typeID T.infoCode)
        ++ be32 T.baseAddress ++ (T.payload.map be32).flatten).flatten := by
  rw [ControlPacket.wire, funext Transaction.wire_eq_words]

end Sys2Proof

namespace Sys2Proof.Machine

/-- The bytes an answer delivers, if any, are the wire form of the value returned with them. -/
def deliversWire : Response → Prop
  | .success (.encodedTxn tx T) => tx = T.wire
  | .success (.encodedPkt tx P) => tx = P.wire
  | _ => True

/-- Every answer that delivers bytes returns a Transaction or a packet with them (R49). -/
theorem deliveredBytes_ne_nil {r : Response} (h : deliveredBytes r ≠ []) :
    (∃ tx T, r = .success (.encodedTxn tx T)) ∨ ∃ tx P, r = .success (.encodedPkt tx P) := by
  unfold deliveredBytes at h
  split at h
  · exact .inl ⟨_, _, rfl⟩
  · exact .inr ⟨_, _, rfl⟩
  · exact absurd rfl h

/-- The step to `t` has added one answer, and what it delivers is the wire form of its value. -/
def AnswersOnWire (s t : State) : Prop := ∃ r, t.outcome = s.outcome ++ [r] ∧ deliversWire r

/-- TXN_ENCODE delivers its Transaction's frame or nothing (R149). -/
theorem encodeTxn_answersOnWire {q : Descriptor} {cap : Nat} {s t : State} (h : encodeTxn q cap s = .next t) :
    AnswersOnWire s t := by
  rw [encodeTxn_eq] at h
  split_ifs at h <;> cases h
  · exact ⟨_, rfl, trivial⟩
  · exact ⟨_, rfl, trivial⟩
  · exact ⟨_, rfl, rfl⟩

/-- PKT_ENCODE delivers its packet's wire form or nothing (R171). -/
theorem encodePacket_answersOnWire {qs : List Descriptor} {cap : Nat} {s t : State}
    (h : encodePacket qs cap s = .next t) : AnswersOnWire s t := by
  obtain ⟨-, ⟨-, rfl⟩ | ⟨k, -, rfl⟩⟩ := encodePacket_next h
  · exact ⟨_, rfl, rfl⟩
  · exact ⟨_, rfl, trivial⟩

/-- The operations that use both counters are PKT_ENCODE of some requests (R198). -/
theorem encodePacket_of_usesBothCounters {i : Instr} {s t : State} (hi : usesBothCounters i = true)
    (h : exec i s = .next t) : ∃ qs cap, encodePacket qs cap s = .next t := by
  cases i
  case pktEncode | buildRead | buildNIRead | buildRMWBits | buildRMWSum =>
    simp only [exec, execPktEncode, execBuildRead, execBuildNIRead, execBuildRMWBits, execBuildRMWSum] at h
    exact ⟨_, _, h⟩
  case buildWrite | buildNIWrite =>
    simp only [exec, execBuildWrite, execBuildNIWrite] at h
    split at h
    · cases h
    · exact ⟨_, _, h⟩
  all_goals cases hi

/-- A frame row that goes on is answered with its Transaction and its length (R150). -/
theorem exec_next_of_transaction {i : Instr} {T : Transaction} {s t : State} (hT : i.transaction = some T)
    (h : exec i s = .next t) : t = respond (.success (.decodedTxn T (frameBytes T.payload.length))) s := by
  have request : receiveFrame T s = .next t → t = _ := fun h => (receiveFrame_next h).2
  cases i <;> cases hT
  case txnReadReq | txnWriteReq | txnNIReadReq | txnNIWriteReq | txnRMWBitsReq | txnRMWSumReq | txnCfgReadReq
    | txnCfgWriteReq => exact request h
  all_goals exact (receiveResponse_next h).2

/-- A mapped result that succeeds is the image of a value. -/
theorem exists_of_map_ok {α β ε : Type} {f : α → β} {e : Except ε α} {v : β} (h : e.map f = .ok v) : ∃ x, v = f x := by
  cases e with
  | error k => cases h
  | ok x => exact ⟨x, (Except.ok.inj h).symm⟩

/-- What DECODE_RESPONSE returns is a Transaction with the packet ID (R197). -/
theorem decodeFirst_ok {rx : List Byte} {v : Results} (h : decodeFirst rx = .ok v) :
    ∃ T p used, v = .response T p used := by
  unfold decodeFirst at h
  split at h
  · cases h
  · obtain ⟨⟨T, used⟩, rfl⟩ := exists_of_map_ok h
    exact ⟨T, _, used, rfl⟩

/-- A decoder whose results carry no bytes delivers none (R48). -/
theorem answer_answersOnWire {r : Except FailureKind Results} {s t : State}
    (hr : ∀ v, r = .ok v → deliversWire (.success v)) (h : answer r s = .next t) : AnswersOnWire s t := by
  cases r with
  | ok v => cases h; exact ⟨_, rfl, hr v rfl⟩
  | error k => cases h; exact ⟨_, rfl, trivial⟩

/-- Every instruction that goes on adds one answer, and the bytes it delivers are the wire form of its value. -/
theorem exec_answersOnWire {i : Instr} {s t : State} (h : exec i s = .next t) : AnswersOnWire s t := by
  cases hT : i.transaction with
  | some T => rw [exec_next_of_transaction hT h]; exact ⟨_, rfl, trivial⟩
  | none =>
    cases i
    case txnEncode => exact encodeTxn_answersOnWire h
    case pktEncode | buildRead | buildWrite | buildNIRead | buildNIWrite | buildRMWBits | buildRMWSum =>
      obtain ⟨qs, cap, he⟩ := encodePacket_of_usesBothCounters rfl h
      exact encodePacket_answersOnWire he
    case txnDecode rx =>
      refine answer_answersOnWire (fun v hv => ?_) h
      obtain ⟨T, -, rfl, -⟩ := decodeTxn_ok hv
      trivial
    case pktDecode rx =>
      refine answer_answersOnWire (fun v hv => ?_) h
      obtain ⟨P, -, rfl, -⟩ := decodePkt_ok hv
      trivial
    case decodeResponse rx =>
      refine answer_answersOnWire (fun v hv => ?_) h
      obtain ⟨T, p, used, rfl⟩ := decodeFirst_ok hv
      trivial
    case pktHdrControl r p b body =>
      refine answer_answersOnWire (fun v hv => ?_) h
      obtain ⟨Ts, rfl⟩ := exists_of_map_ok hv
      trivial
    case decPktHdr | decTxnHdr =>
      simp only [exec, execDecPktHdr, execDecTxnHdr] at h
      split at h <;> cases h <;> exact ⟨_, rfl, trivial⟩
    case encPktHdr | encTxnHdr | pidGet | pidSet | pidReset | pidInc | tidGet | tidSet | tidReset | tidInc
      | pktHdrStatus | pktHdrResend | txnUnsupported => cases h; exact ⟨_, rfl, trivial⟩
    all_goals cases hT

/-- The one answer an instruction adds delivers the wire form of its value. -/
theorem deliversWire_of_exec {i : Instr} {s t : State} {r : Response} (h : exec i s = .next t)
    (ho : t.outcome = s.outcome ++ [r]) : deliversWire r := by
  obtain ⟨r', hr', hw⟩ := exec_answersOnWire h
  obtain rfl : r = r' := by simpa [ho] using hr'
  exact hw

/-- Settles O10: every instruction's answer delivers the wire form of its value, and a wire form is a sequence of words. -/
theorem wordsAreBigEndian : Obligations.WordsAreBigEndian := by
  refine ⟨be32_toNat, fun i s t tx T h ho => ?_, fun i s t tx P h ho => ?_, fun _ _ _ _ _ _ => deliveredBytes_ne_nil⟩
  · exact (show tx = T.wire from deliversWire_of_exec h ho).trans T.wire_eq_words
  · exact (show tx = P.wire from deliversWire_of_exec h ho).trans P.wire_eq_words

end Sys2Proof.Machine
end

section
/-! PROOFS. The sequence counters (R120 to R132): what each of the operations and the two header encoders does to the whole
state, and that a counter stepped by one runs through all its values. -/

namespace Sys2Proof

/-- A counter of any width stepped by one: back to 0 from its greatest value, otherwise the next number (R129). -/
theorem add_one_toNat {w : Nat} (v : BitVec w) : (v + 1).toNat = if v.toNat = 2 ^ w - 1 then 0 else v.toNat + 1 := by
  have hv := v.isLt
  simp only [BitVec.ofNat_eq_ofNat, BitVec.toNat_add, BitVec.toNat_ofNat, Nat.add_mod_mod]
  split
  · rw [show v.toNat + 1 = 2 ^ w by omega, Nat.mod_self]
  · exact Nat.mod_eq_of_lt (by omega)

/-- One step and `n` more are `n + 1` steps. -/
theorem add_one_add_ofNat {w : Nat} (p : BitVec w) (n : Nat) :
    p + 1 + BitVec.ofNat w n = p + BitVec.ofNat w (n + 1) := by
  rw [BitVec.ofNat_add, add_assoc, add_comm (BitVec.ofNat w n)]
  rfl

/-- A full period of steps changes nothing. -/
theorem add_ofNat_two_pow {w : Nat} (p : BitVec w) : p + BitVec.ofNat w (2 ^ w) = p := by
  apply BitVec.eq_of_toNat_eq
  rw [BitVec.toNat_add, BitVec.toNat_ofNat, Nat.mod_self, add_zero, Nat.mod_eq_of_lt p.isLt]

/-- Exactly one number of steps within a period takes a counter to a given value: the distance from its next value. -/
theorem existsUnique_steps {w : Nat} (p v : BitVec w) : ∃! k : Nat, k < 2 ^ w ∧ p + BitVec.ofNat w (k + 1) = v := by
  simp only [← add_one_add_ofNat, ← eq_sub_iff_add_eq']
  refine ⟨(v - (p + 1)).toNat, ⟨BitVec.isLt _, by rw [BitVec.ofNat_toNat, BitVec.setWidth_eq]⟩, fun k ⟨hk, h⟩ => ?_⟩
  rw [← h, BitVec.toNat_ofNat, Nat.mod_eq_of_lt hk]

end Sys2Proof

namespace Sys2Proof.Machine

/-! ### The steps of the two counters (R101, R102, R124, R128) -/

theorem exec_pidInc (s : State) :
    exec .pidInc s = .next (respond (.success (.packetID (s.pid + 1))) (writePid (s.pid + 1) s)) := by
  simp only [exec, execPidInc, readPid_eq, writePid_pid, inc16_eq, succeed]

theorem exec_encPktHdr (b y : Nibble) (s : State) : exec (.encPktHdr b y) s =
    .next (respond (.success (.header (assemblePktHdr 0 s.pid b y))) (writePid (s.pid + 1) s)) := by
  simp only [exec, execEncPktHdr, buildPktHdr, readPid_eq, inc16_eq, succeed]

theorem exec_tidInc (s : State) :
    exec .tidInc s = .next (respond (.success (.transactionID (s.tid + 1))) (writeTid (s.tid + 1) s)) := by
  simp only [exec, execTidInc, readTid_eq, writeTid_tid, inc12_eq, succeed]

theorem exec_encTxnHdr (y : Nibble) (c : Count) (s : State) : exec (.encTxnHdr y c) s =
    .next (respond (.success (.header (assembleTxnHdr s.tid c y requestInfo))) (writeTid (s.tid + 1) s)) := by
  simp only [exec, execEncTxnHdr, buildTxnHdr, readTid_eq, inc12_eq, succeed]

/-! ### Counting through a period (R130) -/

/-- The instruction always goes on and steps this counter by one. -/
def Increments {w : Nat} (i : Instr) (counter : State → BitVec w) : Prop :=
  ∀ s, ∃ t, exec i s = .next t ∧ counter t = counter s + 1

theorem pidInc_increments : Increments .pidInc State.pid := fun s => ⟨_, exec_pidInc s, rfl⟩

theorem tidInc_increments : Increments .tidInc State.tid := fun s => ⟨_, exec_tidInc s, rfl⟩

section Period

variable {w : Nat} {i : Instr} {counter : State → BitVec w}

/-- `n` steps of an incrementing instruction go on and add `n`. -/
theorem Increments.execAll_replicate (hi : Increments i counter) (n : Nat) (s : State) :
    ∃ t, execAll (List.replicate n i) s = .next t ∧ counter t = counter s + BitVec.ofNat w n := by
  induction n generalizing s with
  | zero => exact ⟨s, rfl, by simp⟩
  | succ n ih =>
    obtain ⟨u, hu, hcu⟩ := hi s
    obtain ⟨t, ht, hct⟩ := ih u
    refine ⟨t, by simpa only [List.replicate_succ, execAll, hu] using ht, ?_⟩
    rw [hct, hcu, add_one_add_ofNat]

/-- What the counter is after `n` steps. -/
theorem Increments.exists_execAll_iff (hi : Increments i counter) (n : Nat) (s : State) (v : BitVec w) :
    (∃ t, execAll (List.replicate n i) s = .next t ∧ counter t = v) ↔ counter s + BitVec.ofNat w n = v := by
  obtain ⟨t, ht, hct⟩ := hi.execAll_replicate n s
  constructor
  · rintro ⟨u, hu, rfl⟩
    obtain rfl : t = u := Host.Outcome.next.inj (ht.symm.trans hu)
    exact hct.symm
  · exact fun hv => ⟨t, ht, hct.trans hv⟩

/-- Exactly one of the step counts 1 to a full period ends at a given value. -/
theorem Increments.existsUnique_visit (hi : Increments i counter) (s : State) (v : BitVec w) :
    ∃! k : Nat, k < 2 ^ w ∧ ∃ t, execAll (List.replicate (k + 1) i) s = .next t ∧ counter t = v := by
  simpa only [hi.exists_execAll_iff] using existsUnique_steps (counter s) v

/-- A full period of steps ends at the start value. -/
theorem Increments.full_period (hi : Increments i counter) (s : State) :
    ∃ t, execAll (List.replicate (2 ^ w) i) s = .next t ∧ counter t = counter s :=
  (hi.exists_execAll_iff _ _ _).2 (add_ofNat_two_pow _)

end Period

/-- Settles O20: PID_INC and TID_INC each add one, so the step count to a value is its distance from the start modulo the
period. -/
theorem countersVisitEveryValueOnce : Obligations.CountersVisitEveryValueOnce := fun s =>
  ⟨pidInc_increments.existsUnique_visit s, pidInc_increments.full_period s,
    tidInc_increments.existsUnique_visit s, tidInc_increments.full_period s⟩

/-! ### The operations on one counter -/

/-- Settles O18: ENC_PKT_HDR and PID_INC write the same value `PID + 1`, and the header was composed before. -/
theorem pidOperations : Obligations.PidOperations := by
  refine fun s => ⟨rfl, fun _ => rfl, rfl, s.pid + 1, exec_pidInc s, ?_, ?_, fun b y => ⟨_, ?_, exec_encPktHdr b y s⟩⟩
  · exact fun h => (add_one_toNat s.pid).trans (if_pos h)
  · exact fun h => (add_one_toNat s.pid).trans (if_neg h)
  · rw [pktFields_assemble]

/-- Settles O19: ENC_TXN_HDR and TID_INC write the same value `TID + 1`, and the header was composed before. -/
theorem tidOperations : Obligations.TidOperations := by
  refine fun s => ⟨rfl, fun _ => rfl, rfl, s.tid + 1, exec_tidInc s, ?_, ?_, fun y c => ⟨_, ?_, exec_encTxnHdr y c s⟩⟩
  · exact fun h => (add_one_toNat s.tid).trans (if_pos h)
  · exact fun h => (add_one_toNat s.tid).trans (if_neg h)
  · rw [txnFields_assemble]

end Sys2Proof.Machine
end

section
/-! PROOFS. The transaction model (R149 to R151): what TXN_ENCODE and TXN_DECODE do to the whole state where they succeed, and
that the one inverts the other. -/

namespace Sys2Proof.Machine

/-- TXN_ENCODE of a well-formed descriptor with room for its frame (R149). -/
theorem exec_txnEncode_of_wellFormed {q : Descriptor} {cap : Nat} (hq : q.wellFormed = true) (hc : q.bytes ≤ cap)
    (s : State) : exec (.txnEncode q cap) s = .next (respond
      (.success (.encodedTxn (q.transaction s.tid).wire (q.transaction s.tid))) (writeTid (s.tid + 1) s)) := by
  simp only [exec, execTxnEncode, encodeTxn_eq, presentable_of_wellFormed hq, supported_of_wellFormed hq,
    Nat.not_lt.mpr hc, Bool.true_eq_false, if_false]

/-- TXN_DECODE of a buffer that begins with a frame (R150). -/
theorem exec_txnDecode_wire {T : Transaction} (hT : T.valid = true) (rest : List Byte) (s : State) :
    exec (.txnDecode (T.wire ++ rest)) s =
      .next (respond (.success (.decodedTxn T (frameBytes T.payload.length))) s) := by
  simp only [exec, execTxnDecode, decodeTxn_wire hT, answer_eq]

/-- Settles O27: TXN_ENCODE delivers the wire form of the descriptor's Transaction, which is a valid one, and TXN_DECODE of a
valid Transaction's wire form returns it. -/
theorem txnRoundTrip : Obligations.TxnRoundTrip := by
  intro q cap s t tx T hq hc h ho
  rw [exec_txnEncode_of_wellFormed hq hc] at h
  obtain rfl := Host.Outcome.next.inj h
  obtain ⟨rfl, rfl⟩ : (q.transaction s.tid).wire = tx ∧ q.transaction s.tid = T := by simpa using ho
  refine ⟨rfl, fun u => ?_⟩
  have decoded := exec_txnDecode_wire (transaction_valid hq s.tid) [] u
  rwa [List.append_nil, ← wire_length] at decoded

end Sys2Proof.Machine
end

section
/-! PROOFS. Packet IDs of packets built one after another (R131, R178, R254): each is the one before plus one, and the ID 0
reached by the wrap is accepted whatever came before. -/

namespace Sys2Proof.Machine

/-- The packet built right after one with ID `p` carries the ID `p + 1`. -/
theorem builtPacketId_next {i j : Instr} {s t u : State} {r r' : Response} {p p' : PacketId}
    (hi : buildsPacket i = true) (hj : buildsPacket j = true)
    (ht : exec i s = .next t) (hr : t.outcome = s.outcome ++ [r]) (hp : builtPacketId r = some p)
    (hu : exec j t = .next u) (hr' : u.outcome = t.outcome ++ [r']) (hp' : builtPacketId r' = some p') : p' = p + 1 := by
  obtain ⟨hps, hts⟩ := builtPacketId_of_exec hi ht hr hp
  obtain ⟨hpt, -⟩ := builtPacketId_of_exec hj hu hr' hp'
  rw [hpt, hts, hps]

/-- The target accepts packet ID 0 after every packet ID (R178). -/
@[simp] theorem seqAccept_zero (last : PacketId) : seqAccept last 0 = true := by
  rw [seqAccept, beq_self_eq_true, Bool.true_or]

/-- Settles O56: each of the three packets carries the ID of the one before plus one, and 0xFFFF plus one is 0. -/
theorem packetIdsWrapThroughZero : Obligations.PacketIdsWrapThroughZero := by
  intro i j k s t u v r r' r'' p p' p'' hi hj hk ht hr hp hu hr' hp' hv hr'' hp'' hmax
  have second : p' = p + 1 := builtPacketId_next hi hj ht hr hp hu hr' hp'
  have third : p'' = p' + 1 := builtPacketId_next hj hk hu hr' hp' hv hr'' hp''
  have wraps : p'.toNat = 0 := by rw [second, add_one_toNat]; exact if_pos hmax
  have zero : p' = 0 := BitVec.eq_of_toNat_eq wraps
  refine ⟨wraps, ?_, fun last => ?_⟩
  · rw [third, zero]; rfl
  · rw [zero]; exact seqAccept_zero last

end Sys2Proof.Machine
end

section
/-! PROOFS. The decoder and the encoder (R60 to R77, logs 1 and 6): every well-formed instruction is what its encoding decodes
to, and what bytes decode to encodes to those bytes. -/

namespace Sys2Proof

open Machine

/-! ### Command images -/

/-- The operands of an instruction's image are read back as the instruction, whatever follows them. -/
def ReadsOperands (op : Op) (operands : List Byte) (i : Instr) : Prop :=
  ∀ more, readOperands op (operands ++ more) = .ok (i, more)

theorem decode_commandImage {op : Op} {operands : List Byte} {i : Instr} (h : ReadsOperands op operands i) :
    decode (commandImage op operands) = .ok i := by
  have hr := h []
  rw [List.append_nil] at hr
  refine (decodeCommand_ok_iff _ _).mpr ?_
  simp only [commandImage, readCommand, ofCode_opCode, hr]

/-- What a reader of instructions has read, after the operands `before`, completes the image of the instruction it gives. -/
def CompletesImage (op : Op) (before : List Byte) (read : Reader Instr) : Prop :=
  ∀ {bs r i}, read bs = .ok (i, r) → ∃ operands, bs = operands ++ r ∧ encode i = commandImage op (before ++ operands)

theorem completesImage_give {op : Op} {before : List Byte} {i : Instr} (h : encode i = commandImage op before) :
    CompletesImage op before (Reader.give i) := fun hr => by
  obtain ⟨rfl, rfl⟩ := give_ok hr
  exact ⟨[], rfl, by rwa [List.append_nil]⟩

theorem completesImage_andThen {α : Type} {op : Op} {before : List Byte} {read : Reader α} {next : α → Reader Instr}
    (image : α → List Byte) (hread : ∀ {bs x r}, read bs = .ok (x, r) → bs = image x ++ r)
    (hnext : ∀ x, CompletesImage op (before ++ image x) (next x)) :
    CompletesImage op before (Reader.andThen read next) := fun hr => by
  obtain ⟨x, rest, hx, hi⟩ := andThen_ok hr
  obtain ⟨operands, rfl, henc⟩ := hnext x hi
  exact ⟨image x ++ operands, by rw [hread hx, List.append_assoc], by rw [henc, List.append_assoc]⟩

/-- A byte sequence has been read as its image. -/
theorem readBytes_ok {bs rx r : List Byte} (h : readSeq readByte bs = .ok (rx, r)) : bs = bytesImage rx ++ r :=
  readSeq_ok readByte_ok h

/-- Each operation's operands are read in the order in which they are written (R77). -/
theorem completesImage_operands (op : Op) : CompletesImage op [] (readOperands op) := by
  cases op
  case encPktHdr =>
    exact completesImage_andThen _ readNibble_ok fun _ => completesImage_andThen _ readNibble_ok fun _ =>
      completesImage_give rfl
  case encTxnHdr =>
    exact completesImage_andThen _ readNibble_ok fun _ => completesImage_andThen _ readByte_ok fun _ =>
      completesImage_give rfl
  case decPktHdr | decTxnHdr => exact completesImage_andThen _ readWord_ok fun _ => completesImage_give rfl
  case pidSet => exact completesImage_andThen _ readPacketId_ok fun _ => completesImage_give rfl
  case tidSet => exact completesImage_andThen _ readTxnId_ok fun _ => completesImage_give rfl
  case pidGet | pidReset | pidInc | tidGet | tidReset | tidInc => exact completesImage_give rfl
  case txnDecode | pktDecode | decodeResponse =>
    exact completesImage_andThen _ readBytes_ok fun _ => completesImage_give rfl
  case txnEncode =>
    exact completesImage_andThen _ readDescriptor_ok fun _ => completesImage_andThen _ readNat_ok fun _ =>
      completesImage_give rfl
  case pktEncode =>
    exact completesImage_andThen _ (readSeq_ok readDescriptor_ok) fun _ => completesImage_andThen _ readNat_ok fun _ =>
      completesImage_give rfl
  case buildRead | buildNIRead =>
    exact completesImage_andThen _ readWord_ok fun _ => completesImage_andThen _ readByte_ok fun _ =>
      completesImage_andThen _ readNat_ok fun _ => completesImage_give rfl
  case buildWrite | buildNIWrite =>
    exact completesImage_andThen _ readWord_ok fun _ => completesImage_andThen _ (readSeq_ok readWord_ok) fun _ =>
      completesImage_andThen _ readNat_ok fun _ => completesImage_give (by simp [encode])
  case buildRMWBits =>
    exact completesImage_andThen _ readWord_ok fun _ => completesImage_andThen _ readWord_ok fun _ =>
      completesImage_andThen _ readWord_ok fun _ => completesImage_andThen _ readNat_ok fun _ =>
        completesImage_give rfl
  case buildRMWSum =>
    exact completesImage_andThen _ readWord_ok fun _ => completesImage_andThen _ readWord_ok fun _ =>
      completesImage_andThen _ readNat_ok fun _ => completesImage_give rfl

/-- A whole command image is the encoding of the instruction it decodes to. -/
theorem encode_of_decodeCommand {bytes : List Byte} {i : Instr} (h : decodeCommand bytes = .ok i) :
    encode i = ⟨.command, bytes⟩ := by
  have hr := (decodeCommand_ok_iff _ _).mp h
  unfold readCommand at hr
  split at hr
  · cases hr
  · split at hr
    · cases hr
    · rename_i code bs _ op hop
      obtain ⟨operands, rfl, henc⟩ := completesImage_operands op hr
      rw [henc, commandImage, code_of_ofCode hop, List.nil_append, List.append_nil]

/-! ### Packets -/

/-- Which packet type each packet row has (R62). -/
theorem pktRowOf_eq_some_iff (v y : Nibble) (row : PktRow) : pktRowOf v y = some row ↔ v = protocolVersion ∧
    y = match row with | .control => controlType | .status => statusType | .resend => resendType := by
  revert v y; cases row <;> decide

/-- A packet is the encoding of the instruction it decodes to, which is well formed. -/
theorem encode_of_decodePacket {bytes : List Byte} {i : Instr} (h : decodePacket bytes = .ok i) :
    encode i = ⟨.packet, bytes⟩ ∧ i.WellFormed := by
  unfold decodePacket at h
  split at h
  · cases h
  rename_i w hw
  have hbytes : bytes = be32 w ++ bytes.drop 4 := by simpa using rxWord_eq_some hw
  have image : ∀ y, (pktFields w).version = protocolVersion ∧ (pktFields w).packetType = y →
      packetImage (pktFields w).rsvd (pktFields w).packetID (pktFields w).byteOrder y (bytes.drop 4) = bytes := by
    rintro _ ⟨hv, rfl⟩
    rw [packetImage, assemble_pktFields hv, ← hbytes]
  rw [matchRow_pktRows] at h
  dsimp only at h
  split at h <;> cases h
  all_goals
    rename_i hrow
    exact ⟨congrArg (Request.mk .packet) (image _ ((pktRowOf_eq_some_iff _ _ _).mp hrow)), rfl⟩

/-! ### Frames -/

/-- A header of an unsupported type is read by the row of those types, whatever stands behind it (R213). -/
theorem decodeFrame_unsupported (t : TxnId) (c : Count) (y : BitVec 3) (i : Nibble) (rest : List Byte) :
    decodeFrame (be32 (assembleTxnHdr t c (1#1 ++ y) i) ++ rest) = .ok (.txnUnsupported t c y i) := by
  have hk : TxnKind.ofCode (1#1 ++ y) = none := by revert y; decide
  have hy : (assembleTxnHdr t c (1#1 ++ y) i).extractLsb' 4 3 = y := by
    have hlow := typeLow_of_unsupported (assembleTxnHdr t c (1#1 ++ y) i) (by rw [txnFields_assemble]; exact hk)
    rw [txnFields_assemble] at hlow
    exact (BitVec.append_right_inj _).mp hlow
  simp only [decodeFrame, rxWord_be32, matchRow_txnRows, txnFields_assemble, txnRowOf, hk, hy, ne_eq, not_true_eq_false,
    if_false]

/-- A well-formed frame row is what its Transaction's wire form decodes to (R64 to R68). -/
theorem decodeFrame_of_transaction {i : Instr} {T : Transaction} (h : i.transaction = some T) (hw : i.WellFormed)
    (rest : List Byte) : decodeFrame (T.wire ++ rest) = .ok i := by
  have hp : ∀ make, readFrame (T.wire ++ rest) T.payload.length make = .ok (make T.baseAddress T.payload) :=
    readFrame_wire rfl rest
  cases i <;> cases h <;>
    simp only [Instr.WellFormed, Instr.wellFormed, countMatches, isResponse, Bool.and_eq_true, beq_iff_eq,
      bne_iff_ne] at hw <;>
    simp only [decodeFrame, rxWord_wire, matchRow_txnRows, txnFields_assemble, txnRowOf, ofCode_code, ne_eq,
      not_true_eq_false, if_false, if_true]
  case txnReadReq | txnNIReadReq | txnCfgReadReq | txnRMWBitsReq | txnRMWSumReq => exact hp _
  case txnWriteReq | txnNIWriteReq | txnCfgWriteReq => rw [← hw]; exact hp _
  case txnWriteRsp | txnNIWriteRsp | txnCfgWriteRsp | txnRMWBitsRsp | txnRMWSumRsp => rw [if_neg hw]; exact hp _
  case txnReadRsp | txnNIReadRsp | txnCfgReadRsp => rw [if_neg hw.1, ← hw.2]; exact hp _

/-- What the bytes of a frame decode to is well formed, and its encoding is the frame without what follows it (D10). -/
theorem encode_of_decodeFrame {bytes : List Byte} {i : Instr} (h : decodeFrame bytes = .ok i) :
    (encode i).channel = .frame ∧ (encode i).bytes <+: bytes ∧ i.WellFormed := by
  cases hp : parseTxn bytes 0 with
  | ok parsed =>
    obtain ⟨T, next⟩ := parsed
    obtain ⟨i', hi', hT, hw⟩ := decodeFrame_ok hp
    obtain rfl : i' = i := Except.ok.inj (hi'.symm.trans h)
    obtain ⟨-, -, hwire⟩ := parseTxn_ok hp
    rw [encode_of_transaction hT]
    exact ⟨rfl, ⟨_, hwire.symm⟩, hw⟩
  | error k =>
    obtain herr | ⟨-, t, c, y, info, hi', hwire⟩ := decodeFrame_error hp
    · rw [herr] at h; cases h
    · obtain rfl := Except.ok.inj (hi'.symm.trans h)
      exact ⟨rfl, ⟨_, hwire.symm⟩, rfl⟩

/-! ### The two directions -/

/-- Settles O6: a command image is read operand by operand, a packet by the row of its type, a frame by the row of its kind
and info code. -/
theorem decodeInvertsEncode : Obligations.DecodeInvertsEncode := by
  intro i hw
  cases hT : i.transaction with
  | some T =>
    rw [encode_of_transaction hT]
    simpa only [decode, List.append_nil] using decodeFrame_of_transaction hT hw []
  | none =>
    cases i
    case encPktHdr | encTxnHdr | decPktHdr | decTxnHdr | pidGet | pidSet | pidReset | pidInc | tidGet | tidSet | tidReset
      | tidInc | txnEncode | txnDecode | pktEncode | pktDecode | buildRead | buildWrite | buildNIRead | buildNIWrite
      | buildRMWBits | buildRMWSum | decodeResponse =>
      exact decode_commandImage fun more => by simp [readOperands, Reader.andThen, Reader.give]
    case pktHdrControl | pktHdrStatus | pktHdrResend =>
      simp [encode, decode, packetImage, decodePacket, matchRow_pktRows, pktRowOf]
    case txnUnsupported t c y i =>
      simpa only [decode, encode, List.append_nil] using decodeFrame_unsupported t c y i []
    all_goals cases hT

/-- Settles O7: each reader consumes exactly the image of the value it gives, and each wire row keeps every field of its
header word. -/
theorem encodeInvertsDecode : Obligations.EncodeInvertsDecode :=
  ⟨fun _ _ => encode_of_decodeCommand, fun _ _ => encode_of_decodePacket, fun _ _ => encode_of_decodeFrame⟩

end Sys2Proof
end

section
/-! PROOFS. The decoders (R150, R172, R197): where each succeeds, with what, and where it fails, in priority order. -/

namespace Sys2Proof.Machine

/-! ### What an answer says of the parser -/

/-- A decoder that has answered with results has parsed them. -/
theorem eq_ok_of_answer {e : Except FailureKind Results} {s t : State} {v : Results} (h : answer e s = .next t)
    (ho : t.outcome = s.outcome ++ [.success v]) : e = .ok v := by
  rw [answer_eq] at h
  obtain rfl := Host.Outcome.next.inj h
  cases e <;> simp_all

/-- A decoder that has answered with a failure has failed to parse. -/
theorem eq_error_of_answer {e : Except FailureKind Results} {s t : State} {k : FailureKind} (h : answer e s = .next t)
    (ho : t.outcome = s.outcome ++ [.failure k]) : e = .error k := by
  rw [answer_eq] at h
  obtain rfl := Host.Outcome.next.inj h
  cases e <;> simp_all

/-! ### One transaction (R150) -/

theorem parseTxn_short {rx : List Byte} (h : rx.length < 4) : parseTxn rx 0 = .error .truncatedInput := by
  simp only [parseTxn, (rxWord_eq_none_iff rx 0).mpr h]

section Header

variable {rx : List Byte} {w : Word} (hw : rxWord rx 0 = some w)
include hw

theorem parseTxn_version (hv : (txnFields w).version ≠ protocolVersion) :
    parseTxn rx 0 = .error .protocolVersionMismatch := by
  simp only [parseTxn, hw, if_pos hv]

theorem parseTxn_unsupported (hv : (txnFields w).version = protocolVersion) (hy : 8 ≤ (txnFields w).typeID.toNat) :
    parseTxn rx 0 = .error .unsupportedTransactionType := by
  simp only [parseTxn, hw, hv, (ofCode_eq_none_iff _).mpr hy, ne_eq, not_true_eq_false, if_false]

theorem parseTxn_truncated {k : TxnKind} (hv : (txnFields w).version = protocolVersion)
    (hk : (txnFields w).typeID = k.code)
    (hl : rx.length < frameBytes (paylen k (txnFields w).infoCode (txnFields w).wordCount)) :
    parseTxn rx 0 = .error .truncatedInput := by
  simp only [parseTxn, hw, hv, hk, ofCode_code, ne_eq, not_true_eq_false, if_false, Nat.zero_add]
  cases ha : rxWord rx 4 with
  | none => rfl
  | some a =>
    have h8 : ¬ rx.length < 8 := fun h => by rw [(rxWord_eq_none_iff rx 4).mpr h] at ha; cases ha
    simp only [frameBytes] at hl
    simp only [(rxWords_eq_none_iff rx 8 _).mpr ⟨by omega, hl⟩]

theorem parsePktHdr_version (hv : (pktFields w).version ≠ protocolVersion) :
    parsePktHdr rx = .error .protocolVersionMismatch := by
  simp only [parsePktHdr, hw, if_pos hv]

theorem parsePktHdr_type (hv : (pktFields w).version = protocolVersion) (ht : (pktFields w).packetType ≠ controlType) :
    parsePktHdr rx = .error .badPacketType := by
  simp only [parsePktHdr, hw, hv, ne_eq, not_true_eq_false, if_false, if_pos ht]

end Header

theorem parsePktHdr_short {rx : List Byte} (h : rx.length < 4) : parsePktHdr rx = .error .truncatedInput := by
  simp only [parsePktHdr, (rxWord_eq_none_iff rx 0).mpr h]

/-- TXN_DECODE fails as the parser fails (R150). -/
theorem exec_txnDecode_of_error {rx : List Byte} {k : FailureKind} (h : parseTxn rx 0 = .error k) (s : State) :
    exec (.txnDecode rx) s = .next (respond (.failure k) s) := by
  simp only [exec, execTxnDecode, decodeTxn, h, Except.map, answer_eq]

/-- Where TXN_DECODE has failed, the parser has. -/
theorem parseTxn_of_exec {rx : List Byte} {s t : State} {k : FailureKind} (h : exec (.txnDecode rx) s = .next t)
    (ho : t.outcome = s.outcome ++ [.failure k]) : parseTxn rx 0 = .error k := by
  have he : decodeTxn rx = .error k := eq_error_of_answer h ho
  unfold decodeTxn at he
  cases hp : parseTxn rx 0 with
  | ok x => rw [hp] at he; cases he
  | error k' => rw [hp] at he; cases he; rfl

/-- Settles O25: the parser answers on every valid frame, and what it answers stands in the buffer. -/
theorem txnDecodeReturnsExactlyFrames : Obligations.TxnDecodeReturnsExactlyFrames := by
  refine ⟨fun T rest s hT => exec_txnDecode_wire hT rest s, fun rx s t r h ho => ?_⟩
  obtain ⟨T, hv, rfl, hrx⟩ := decodeTxn_ok (eq_ok_of_answer h ho)
  exact ⟨T, _, hv, hrx, rfl⟩

/-- Settles O26: the parser's checks, one after another. -/
theorem txnDecodeFailsInOrder : Obligations.TxnDecodeFailsInOrder := fun _ s =>
  ⟨fun h => exec_txnDecode_of_error (parseTxn_short h) s, fun _ hw =>
    ⟨fun hv => exec_txnDecode_of_error (parseTxn_version hw hv) s,
      fun hv hy => exec_txnDecode_of_error (parseTxn_unsupported hw hv hy) s,
      fun _ hv hk hl => exec_txnDecode_of_error (parseTxn_truncated hw hv hk hl) s⟩⟩

/-! ### Control packets (R172) -/

/-- PKT_DECODE past a control header is the packet loop on the bytes behind it (R172). -/
theorem decodePkt_control (r : Nibble) (p : PacketId) (b : Nibble) (body : List Byte) :
    decodePkt (be32 (assemblePktHdr r p b controlType) ++ body) = (parseTxns body 0 body.length).map fun Ts =>
      .decodedPkt ⟨⟨protocolVersion, r, p, b, controlType⟩, Ts⟩ := by
  have hloop := parseTxns_append (be32 (assemblePktHdr r p b controlType)) body (4 + body.length) 0
  simp only [be32_length, Nat.add_zero] at hloop
  simp only [decodePkt, parsePktHdr_wire, List.length_append, be32_length, hloop]
  rw [parseTxns_passes (4 + body.length) body.length (by omega) (by omega)]

/-- Where the header checks fail, PKT_DECODE and DECODE_RESPONSE report that failure (R172, R197). -/
theorem exec_pktDecode_of_header {rx : List Byte} {k : FailureKind} (h : parsePktHdr rx = .error k) (s : State) :
    exec (.pktDecode rx) s = .next (respond (.failure k) s) := by
  simp only [exec, execPktDecode, decodePkt, h, answer_eq]

theorem exec_decodeResponse_of_header {rx : List Byte} {k : FailureKind} (h : parsePktHdr rx = .error k) (s : State) :
    exec (.decodeResponse rx) s = .next (respond (.failure k) s) := by
  simp only [exec, execDecodeResponse, decodeFirst, h, answer_eq]

/-- The transactions of a valid control packet are valid (R170). -/
theorem valid_of_mem_packet {P : ControlPacket} (h : P.valid = true) : ∀ T ∈ P.transactions, T.valid = true := by
  simp only [ControlPacket.valid, Bool.and_eq_true, List.all_eq_true] at h
  exact h.2

/-- The wire form of a valid control packet begins with a control header (R69, R170). -/
theorem wire_of_valid {P : ControlPacket} (h : P.valid = true) : P.wire =
    be32 (assemblePktHdr P.header.rsvd P.header.packetID P.header.byteOrder controlType)
      ++ (P.transactions.map Transaction.wire).flatten := by
  simp only [ControlPacket.valid, Bool.and_eq_true, beq_iff_eq] at h
  rw [ControlPacket.wire, h.1.2]

/-- The packet loop on the frames of valid Transactions and more bytes goes on with those (R172). -/
theorem parseTxns_frames {Ts : List Transaction} (h : ∀ T ∈ Ts, T.valid = true) (rest : List Byte) :
    parseTxns ((Ts.map Transaction.wire).flatten ++ rest) 0 ((Ts.map Transaction.wire).flatten ++ rest).length =
      (parseTxns rest 0 rest.length).map (Ts ++ ·) :=
  parseTxns_wire h [] rest _ (by simp)

/-- The packet loop ends on the first frame it fails on, whatever stood before it (R172, R212). -/
theorem parseTxns_first_error {rest : List Byte} {k : FailureKind} (hne : rest ≠ []) (h : parseTxn rest 0 = .error k) :
    parseTxns rest 0 rest.length = .error k := by
  rw [parseTxns_step (List.length_pos_of_ne_nil hne), h]

/-- Settles O32: the packet loop answers on every sequence of valid frames, and what it answers fills the buffer. -/
theorem pktDecodeReturnsExactlyPackets : Obligations.PktDecodeReturnsExactlyPackets := by
  refine ⟨fun P s hP => ?_, fun rx s t r h ho => ?_⟩
  · simp only [exec, execPktDecode, decodePkt_wire hP, answer_eq]; rfl
  · obtain ⟨P, hv, rfl, hrx⟩ := decodePkt_ok (eq_ok_of_answer h ho)
    exact ⟨P, hv, hrx, rfl⟩

/-- Settles O33: the header checks come first; behind a valid packet the loop reports what the parser reports there. -/
theorem pktDecodeFailsInOrder : Obligations.PktDecodeFailsInOrder := by
  refine ⟨fun rx s => ⟨fun h => exec_pktDecode_of_header (parsePktHdr_short h) s, fun w hw =>
    ⟨fun hv => exec_pktDecode_of_header (parsePktHdr_version hw hv) s,
      fun hv ht => exec_pktDecode_of_header (parsePktHdr_type hw hv ht) s⟩⟩, fun P rest s t k hP hne h ho => ?_⟩
  have hloop := parseTxns_first_error hne (parseTxn_of_exec h ho)
  have hframes := parseTxns_frames (valid_of_mem_packet hP) rest
  simp only [exec, execPktDecode, wire_of_valid hP, List.append_assoc, decodePkt_control, hframes, hloop, Except.map,
    answer_eq]
  rfl

/-! ### The first transaction of a control packet (R197) -/

/-- DECODE_RESPONSE past a control header is the parser on the bytes behind it (R197). -/
theorem decodeFirst_control (r : Nibble) (p : PacketId) (b : Nibble) (rest : List Byte) :
    decodeFirst (be32 (assemblePktHdr r p b controlType) ++ rest) =
      (parseTxn rest 0).map fun x => .response x.1 p (4 + x.2) := by
  have hparse := parseTxn_append (be32 (assemblePktHdr r p b controlType)) rest 0
  simp only [be32_length, Nat.add_zero] at hparse
  simp only [decodeFirst, parsePktHdr_wire, hparse]
  cases parseTxn rest 0 <;> rfl

/-- DECODE_RESPONSE of a control header and a frame (R197). -/
theorem exec_decodeResponse_wire (r : Nibble) (p : PacketId) (b : Nibble) {T : Transaction} (hT : T.valid = true)
    (rest : List Byte) (s : State) :
    exec (.decodeResponse (be32 (assemblePktHdr r p b controlType) ++ (T.wire ++ rest))) s =
      .next (respond (.success (.response T p (4 + frameBytes T.payload.length))) s) := by
  simp only [exec, execDecodeResponse, decodeFirst_control, parseTxn_wire hT, Except.map, answer_eq]

/-- DECODE_RESPONSE of a control header and bytes the parser fails on (R197). -/
theorem exec_decodeResponse_of_error (r : Nibble) (p : PacketId) (b : Nibble) {rest : List Byte} {k : FailureKind}
    (h : parseTxn rest 0 = .error k) (s : State) :
    exec (.decodeResponse (be32 (assemblePktHdr r p b controlType) ++ rest)) s =
      .next (respond (.failure k) s) := by
  simp only [exec, execDecodeResponse, decodeFirst_control, h, Except.map, answer_eq]

/-- What a result of DECODE_RESPONSE says of the buffer: a control header and a valid frame stand at its start (R197). -/
theorem wire_of_decodeFirst {rx : List Byte} {v : Results} (h : decodeFirst rx = .ok v) :
    ∃ (r : Nibble) (p : PacketId) (b : Nibble) (T : Transaction) (rest : List Byte), T.valid = true ∧
      rx = be32 (assemblePktHdr r p b controlType) ++ (T.wire ++ rest) ∧
      v = .response T p (4 + frameBytes T.payload.length) := by
  cases hf : parsePktHdr rx with
  | error k => simp only [decodeFirst, hf] at h; cases h
  | ok f =>
    obtain ⟨-, ht, hrx⟩ := parsePktHdr_ok hf
    rw [ht] at hrx
    rw [hrx, decodeFirst_control] at h
    cases hp : parseTxn (rx.drop 4) 0 with
    | error k => rw [hp] at h; cases h
    | ok x =>
      obtain ⟨T, next⟩ := x
      obtain ⟨hT, rfl, hwire⟩ := parseTxn_ok hp
      rw [hp] at h
      refine ⟨_, _, _, T, _, hT, hrx.trans (congrArg _ hwire), ?_⟩
      simpa [Except.map] using h.symm

/-- The bytes up to the end of the first transaction: 4 of the packet header and its frame (R197). -/
theorem used_eq (n : Nat) : 12 + 4 * n = 4 + frameBytes n := by rw [frameBytes]; omega

/-- Settles O38: a header alone leaves the parser no byte; otherwise it answers on every valid frame behind it, and what it
answers stands there. -/
theorem decodeResponseReturnsFirstTransaction : Obligations.DecodeResponseReturnsFirstTransaction := by
  refine ⟨fun r p b T rest s hT => ?_, fun rx s t v h ho => ?_, fun r p b s => ?_⟩
  · rw [List.append_assoc, used_eq]
    exact exec_decodeResponse_wire r p b hT rest s
  · obtain ⟨r, p, b, T, rest, hT, hrx, hv⟩ := wire_of_decodeFirst (eq_ok_of_answer h ho)
    exact ⟨r, p, b, T, rest, hT, by rw [hrx, List.append_assoc], by rw [hv, used_eq]⟩
  · have h := exec_decodeResponse_of_error r p b (rest := []) (parseTxn_short (by decide)) s
    rwa [List.append_nil] at h

/-- Settles O39: a packet with a transaction is a header and that transaction's frame and more; and the header checks are
the same. -/
theorem decodeResponseAgreesWithPktDecode : Obligations.DecodeResponseAgreesWithPktDecode := by
  refine ⟨fun rx f T Ts s t h ho => ?_, fun rx s hfail => ?_⟩
  · obtain ⟨P, hP, hP', rfl⟩ := decodePkt_ok (eq_ok_of_answer h ho)
    obtain rfl : (⟨f, T :: Ts⟩ : ControlPacket) = P := Results.decodedPkt.inj hP'
    have hT := valid_of_mem_packet hP T List.mem_cons_self
    rw [wire_of_valid hP]
    simp only [List.map_cons, List.flatten_cons]
    exact ⟨_, by simp, exec_decodeResponse_wire _ _ _ hT _ s⟩
  · obtain ⟨k, hk⟩ : ∃ k, parsePktHdr rx = .error k := by
      obtain h | ⟨w, hw, hbad⟩ := hfail
      · exact ⟨_, parsePktHdr_short h⟩
      · by_cases hv : (pktFields w).version = protocolVersion
        · exact ⟨_, parsePktHdr_type hw hv (hbad.resolve_left (absurd hv))⟩
        · exact ⟨_, parsePktHdr_version hw hv⟩
    rw [exec_decodeResponse_of_header hk, exec_pktDecode_of_header hk]

/-- Settles O59: the header checks come first; behind a control header DECODE_RESPONSE reports what the parser reports. -/
theorem decodeResponseFailsInOrder : Obligations.DecodeResponseFailsInOrder :=
  ⟨fun _ s => ⟨fun h => exec_decodeResponse_of_header (parsePktHdr_short h) s, fun _ hw =>
    ⟨fun hv => exec_decodeResponse_of_header (parsePktHdr_version hw hv) s,
      fun hv ht => exec_decodeResponse_of_header (parsePktHdr_type hw hv ht) s⟩⟩,
    fun r p b _ s _ _ h ho => exec_decodeResponse_of_error r p b (parseTxn_of_exec h ho) s⟩

/-! ### A control packet handed to the block (log 1) -/

/-- Settles O40: the control row is the packet loop on its body, and so is PKT_DECODE behind a control header. -/
theorem controlPacketsAreReceived : Obligations.ControlPacketsAreReceived := by
  refine ⟨fun r p b Ts s hTs => ?_, fun r p b body s => ?_⟩
  · have hframes := parseTxns_frames hTs []
    have hend : parseTxns [] 0 0 = .ok [] := by simp [parseTxns]
    simp only [List.append_nil, List.length_nil, hend, Except.map] at hframes
    simp only [exec, execPktHdrControl, hframes, Except.map, answer_eq]
    rfl
  · simp only [exec, execPktHdrControl, execPktDecode, decodePkt_control]

end Sys2Proof.Machine
end

section
/-! PROOFS. What each instruction can answer, said once: an instruction reads or writes a register, parses bytes, encodes one
transaction or encodes a packet, and the operands decide which of its answers it gives (R210, R233). -/

namespace Sys2Proof.Machine

/-! ### The four kinds of instruction -/

/-- What the counter operations and the two header encoders return, from the counters before them (R101, R102, R121 to
R128). -/
def registerResults : Instr → Option (PacketId → TxnId → Results)
  | .encPktHdr b y => some fun p _ => .header (assemblePktHdr 0 p b y)
  | .encTxnHdr y c => some fun _ t => .header (assembleTxnHdr t c y requestInfo)
  | .pidGet => some fun p _ => .packetID p
  | .pidInc => some fun p _ => .packetID (p + 1)
  | .tidGet => some fun _ t => .transactionID t
  | .tidInc => some fun _ t => .transactionID (t + 1)
  | .pidSet _ | .pidReset | .tidSet _ | .tidReset => some fun _ _ => .none
  | _ => none

/-- What the decoders and the wire rows make of their bytes (R48; log 1). -/
def parseResult : Instr → Option (Except FailureKind Results)
  | .decPktHdr w => some (if (pktFields w).version = protocolVersion then .ok (.pktFields (pktFields w))
      else .error .protocolVersionMismatch)
  | .decTxnHdr w => some (if (txnFields w).version = protocolVersion then .ok (.txnFields (txnFields w))
      else .error .protocolVersionMismatch)
  | .txnDecode rx => some (decodeTxn rx)
  | .pktDecode rx => some (decodePkt rx)
  | .decodeResponse rx => some (decodeFirst rx)
  | .pktHdrControl r p b body => some ((parseTxns body 0 body.length).map fun Ts =>
      .decodedPkt ⟨⟨protocolVersion, r, p, b, controlType⟩, Ts⟩)
  | .pktHdrStatus .. | .pktHdrResend .. => some (.error .badPacketType)
  | .txnUnsupported .. => some (.error .unsupportedTransactionType)
  | i => i.transaction.map fun T => .ok (.decodedTxn T (frameBytes T.payload.length))

/-- The requests and the capacity of the operations that encode a packet (R171, R191 to R196). -/
def packetOperands : Instr → Option (List Descriptor × Nat)
  | .pktEncode qs cap => some (qs, cap)
  | .buildRead a n cap => some ([readRequest a n], cap)
  | .buildWrite a d cap => some ([writeRequest a d], cap)
  | .buildNIRead a n cap => some ([niReadRequest a n], cap)
  | .buildNIWrite a d cap => some ([niWriteRequest a d], cap)
  | .buildRMWBits a x y cap => some ([rmwBitsRequest a x y], cap)
  | .buildRMWSum a x cap => some ([rmwSumRequest a x], cap)
  | _ => none

/-- The failures each instruction can report (R211). -/
def failureKinds : Instr → List FailureKind
  | .decPktHdr _ | .decTxnHdr _ => [.protocolVersionMismatch]
  | .txnEncode .. => [.unsupportedTransactionType, .bufferTooSmall]
  | .pktEncode .. => [.unsupportedTransactionType, .packetTooLarge, .bufferTooSmall]
  | .buildRead .. | .buildWrite .. | .buildNIRead .. | .buildNIWrite .. | .buildRMWBits .. | .buildRMWSum .. =>
    [.bufferTooSmall]
  | .txnDecode _ | .pktHdrControl .. => [.truncatedInput, .protocolVersionMismatch, .unsupportedTransactionType]
  | .pktDecode _ | .decodeResponse _ =>
    [.truncatedInput, .protocolVersionMismatch, .badPacketType, .unsupportedTransactionType]
  | .pktHdrStatus .. | .pktHdrResend .. => [.badPacketType]
  | .txnUnsupported .. => [.unsupportedTransactionType]
  | _ => []

/-- Every instruction is of one of the four kinds. -/
theorem instr_kind (i : Instr) : (∃ f, registerResults i = some f) ∨ (∃ e, parseResult i = some e) ∨
    (∃ q cap, i = .txnEncode q cap) ∨ ∃ qs cap, packetOperands i = some (qs, cap) := by
  cases i
  case txnEncode => exact .inr (.inr (.inl ⟨_, _, rfl⟩))
  case pktEncode | buildRead | buildWrite | buildNIRead | buildNIWrite | buildRMWBits | buildRMWSum =>
    exact .inr (.inr (.inr ⟨_, _, rfl⟩))
  case encPktHdr | encTxnHdr | pidGet | pidSet | pidReset | pidInc | tidGet | tidSet | tidReset | tidInc =>
    exact .inl ⟨_, rfl⟩
  all_goals exact .inr (.inl ⟨_, rfl⟩)

/-- The decoders of R48 are the instructions that parse. -/
theorem isDecoder_iff (i : Instr) : isDecoder i = true ↔ ∃ e, parseResult i = some e := by
  cases i <;> simp [isDecoder, parseResult, Instr.transaction]

/-- A register operation writes the counters as R29 lists and returns its results. -/
theorem exec_of_registerResults {i : Instr} {f : PacketId → TxnId → Results} (hf : registerResults i = some f)
    (s : State) : exec i s = .next (respond (.success (f s.pid s.tid))
      { s with pid := pidAfter i s.pid, tid := tidAfter i s.tid }) := by
  cases i <;> cases hf
  case encPktHdr b y => exact exec_encPktHdr b y s
  case encTxnHdr y c => exact exec_encTxnHdr y c s
  case pidInc => exact exec_pidInc s
  case tidInc => exact exec_tidInc s
  all_goals rfl

/-- A decoder or a wire row that is well formed answers with what it makes of its bytes, and changes nothing else (R48). -/
theorem exec_of_parseResult {i : Instr} {e : Except FailureKind Results} (he : parseResult i = some e)
    (hw : i.WellFormed) (s : State) : exec i s = answer e s := by
  cases hT : i.transaction with
  | some T =>
    obtain rfl : e = .ok (.decodedTxn T (frameBytes T.payload.length)) := by
      cases i <;> cases hT <;> cases he <;> rfl
    exact exec_of_transaction hT hw s
  | none =>
    cases i
    case decPktHdr w | decTxnHdr w =>
      cases he
      simp only [exec, execDecPktHdr, execDecTxnHdr, ne_eq, ite_not]
      split <;> rfl
    case txnDecode | pktDecode | decodeResponse | pktHdrControl | pktHdrStatus | pktHdrResend | txnUnsupported =>
      cases he; rfl
    case encPktHdr | encTxnHdr | pidGet | pidSet | pidReset | pidInc | tidGet | tidSet | tidReset | tidInc | txnEncode
      | pktEncode | buildRead | buildWrite | buildNIRead | buildNIWrite | buildRMWBits | buildRMWSum => cases he
    all_goals cases hT

/-- The operations that encode a packet are PKT_ENCODE of their requests (R198). -/
theorem exec_of_packetOperands {i : Instr} {qs : List Descriptor} {cap : Nat} (hq : packetOperands i = some (qs, cap))
    (hw : i.WellFormed) (s : State) : exec i s = encodePacket qs cap s := by
  cases i <;> cases hq
  case buildWrite | buildNIWrite =>
    simp only [exec, execBuildWrite, execBuildNIWrite, if_neg (Nat.not_lt.mpr (of_decide_eq_true hw))]
  all_goals rfl

/-- An operation that encodes a packet is PKT_ENCODE, or a BUILD operation, which has one well-formed request (R198). -/
theorem packetOperands_cases {i : Instr} {qs : List Descriptor} {cap : Nat} (hi : packetOperands i = some (qs, cap))
    (hw : i.WellFormed) : i = .pktEncode qs cap ∨
      ∃ q : Descriptor, q.wellFormed = true ∧ qs = [q] ∧ failureKinds i = [.bufferTooSmall] := by
  cases i <;> cases hi
  case pktEncode => exact .inl rfl
  case buildRead => exact .inr ⟨_, readRequest_wellFormed .., rfl, rfl⟩
  case buildNIRead => exact .inr ⟨_, niReadRequest_wellFormed .., rfl, rfl⟩
  case buildWrite => exact .inr ⟨_, writeRequest_wellFormed (of_decide_eq_true hw) _, rfl, rfl⟩
  case buildNIWrite => exact .inr ⟨_, niWriteRequest_wellFormed (of_decide_eq_true hw) _, rfl, rfl⟩
  case buildRMWBits => exact .inr ⟨_, rmwBitsRequest_wellFormed .., rfl, rfl⟩
  case buildRMWSum => exact .inr ⟨_, rmwSumRequest_wellFormed .., rfl, rfl⟩

/-- The requests of a well-formed operation meet PKT_ENCODE's precondition (R171). -/
theorem presentable_of_packetOperands {i : Instr} {qs : List Descriptor} {cap : Nat}
    (hi : packetOperands i = some (qs, cap)) (hw : i.WellFormed) : qs.all Descriptor.presentable = true := by
  obtain rfl | ⟨q, hq, rfl, -⟩ := packetOperands_cases hi hw
  · exact hw
  · simp [presentable_of_wellFormed hq]

/-! ### Ill-formed instructions are refused, the others complete -/

/-- A Transaction of a kind is one the block produces when its payload is as long as its header says (R68). -/
theorem valid_of_kind (k : TxnKind) (t : TxnId) (i : Nibble) (c : Count) (a : Word) (ps : List Word) :
    (⟨t, k.code, i, c, a, ps⟩ : Transaction).valid = (ps.length == paylen k i c) := by
  simp [Transaction.valid]

/-- A request frame whose payload is not as long as its header says (R68; log 12). -/
theorem receiveRequest_refused {k : TxnKind} {c : Count} {ps : List Word} (hp : ps.length ≠ paylen k requestInfo c)
    (t : TxnId) (a : Word) (s : State) : receiveRequest k t c a ps s = .refused .notAFrame := by
  rw [receiveRequest, receiveFrame, valid_of_kind, beq_false_of_ne hp]; rfl

/-- A response frame with the request mark, or whose payload is not as long as its header says (R65, R68; log 12). -/
theorem receiveResponse_refused {k : TxnKind} {c : Count} {i : Nibble} {ps : List Word}
    (hp : isResponse i = true → ps.length ≠ paylen k i c) (t : TxnId) (a : Word) (s : State) :
    receiveResponse k t c i a ps s = .refused .notAFrame := by
  rw [receiveResponse]
  split
  · rename_i hi
    rw [receiveFrame, valid_of_kind, beq_false_of_ne (hp hi)]; rfl
  · rfl

/-- Settles O46: the checks of an ill-formed instruction's arm are those of its well-formedness. -/
theorem illFormedInstructionsRefused : Obligations.IllFormedInstructionsRefused := by
  intro i s hw
  cases i
  case txnEncode q cap =>
    have hq : q.presentable = false := Bool.eq_false_iff.mpr hw
    exact .inl (by simp only [exec, execTxnEncode, encodeTxn_eq, if_pos hq])
  case pktEncode qs cap => exact .inl (encodePacket_refused (Bool.eq_false_iff.mpr hw))
  case buildWrite | buildNIWrite =>
    have hd := Nat.not_le.mp fun h => hw (decide_eq_true h)
    exact .inr (.inl (by simp only [exec, execBuildWrite, execBuildNIWrite, if_pos hd]))
  case txnWriteReq | txnNIWriteReq | txnCfgWriteReq =>
    exact .inr (.inr (receiveRequest_refused (fun h => hw (beq_iff_eq.mpr h)) _ _ s))
  case txnReadRsp | txnNIReadRsp | txnCfgReadRsp =>
    refine .inr (.inr (receiveResponse_refused (fun hi hp => hw ?_) _ _ s))
    rw [paylen, if_neg (bne_iff_ne.mp hi)] at hp
    exact Bool.and_eq_true_iff.mpr ⟨hi, beq_iff_eq.mpr hp⟩
  case txnWriteRsp | txnNIWriteRsp | txnCfgWriteRsp | txnRMWBitsRsp | txnRMWSumRsp =>
    exact .inr (.inr (receiveResponse_refused (fun hi => absurd hi hw) _ _ s))
  all_goals exact absurd rfl hw

/-- An instruction that goes on is well formed. -/
theorem wellFormed_of_exec {i : Instr} {s t : State} (h : exec i s = .next t) : i.WellFormed := by
  by_contra hw
  obtain hr | hr | hr := illFormedInstructionsRefused i s hw <;> · rw [h] at hr; cases hr

/-! ### What an instruction answers -/

/-- The answers an instruction can give in a state: the results of a register operation, what has been parsed, an encoded
transaction or packet, or the failure of a check (R210). -/
inductive Answers (i : Instr) (s : State) : Response → Prop where
  | registers {f} (hf : registerResults i = some f) : Answers i s (.success (f s.pid s.tid))
  | parsed {v} (he : parseResult i = some (.ok v)) : Answers i s (.success v)
  | parseFails {k} (he : parseResult i = some (.error k)) : Answers i s (.failure k)
  | frame {q cap} (hi : i = .txnEncode q cap) (hq : q.wellFormed = true) (hc : q.bytes ≤ cap) :
      Answers i s (.success (.encodedTxn (q.transaction s.tid).wire (q.transaction s.tid)))
  | frameFails {q cap k} (hi : i = .txnEncode q cap) (hk : k = .unsupportedTransactionType ∨ k = .bufferTooSmall) :
      Answers i s (.failure k)
  | packet {qs cap} (hi : packetOperands i = some (qs, cap)) (hq : ∀ q ∈ qs, q.wellFormed = true)
      (hc : packetCheck qs cap s.config.maxTxn = none) :
      Answers i s (.success (.encodedPkt (packetOf qs s).wire (packetOf qs s)))
  | packetFails {qs cap k} (hi : packetOperands i = some (qs, cap)) (hc : packetCheck qs cap s.config.maxTxn = some k) :
      Answers i s (.failure k)

/-- The requests of a packet past the checks are well formed (R171). -/
theorem wellFormed_of_packetCheck {qs : List Descriptor} {cap m : Nat} (hp : qs.all Descriptor.presentable = true)
    (hc : packetCheck qs cap m = none) : ∀ q ∈ qs, q.wellFormed = true := fun q hq =>
  wellFormed_of_presentable (List.all_eq_true.mp hp q hq) (((packetCheck_eq_none_iff _ _ _).mp hc).1 q hq)

/-- A well-formed instruction completes with one of its answers (R210). -/
theorem exec_answers {i : Instr} (hw : i.WellFormed) (s : State) :
    ∃ t r, exec i s = .next t ∧ t.outcome = s.outcome ++ [r] ∧ Answers i s r := by
  obtain ⟨f, hf⟩ | ⟨e, he⟩ | ⟨q, cap, rfl⟩ | ⟨qs, cap, hi⟩ := instr_kind i
  · exact ⟨_, _, exec_of_registerResults hf s, rfl, .registers hf⟩
  · have h := exec_of_parseResult he hw s
    cases e with
    | ok v => exact ⟨_, _, h, rfl, .parsed he⟩
    | error k => exact ⟨_, _, h, rfl, .parseFails he⟩
  · have hp : ¬ q.presentable = false := ne_false_of_eq_true hw
    have h : exec (.txnEncode q cap) s = _ := encodeTxn_eq q cap s
    rw [if_neg hp] at h
    split at h
    · exact ⟨_, _, h, rfl, .frameFails rfl (.inl rfl)⟩
    · rename_i hs
      split at h
      · exact ⟨_, _, h, rfl, .frameFails rfl (.inr rfl)⟩
      · rename_i hc
        exact ⟨_, _, h, rfl, .frame rfl (wellFormed_of_presentable hw (Bool.eq_true_of_not_eq_false hs))
          (Nat.not_lt.mp hc)⟩
  · have hp := presentable_of_packetOperands hi hw
    rw [exec_of_packetOperands hi hw]
    cases hc : packetCheck qs cap s.config.maxTxn with
    | none => exact ⟨_, _, encodePacket_success hp hc, rfl, .packet hi (wellFormed_of_packetCheck hp hc) hc⟩
    | some k => exact ⟨_, _, encodePacket_failure hp hc, rfl, .packetFails hi hc⟩

/-- An instruction that goes on has given one of its answers. -/
theorem answers_of_exec {i : Instr} {s t : State} (h : exec i s = .next t) :
    ∃ r, t.outcome = s.outcome ++ [r] ∧ Answers i s r := by
  obtain ⟨t', r, h', ho, hr⟩ := exec_answers (wellFormed_of_exec h) s
  obtain rfl : t' = t := Host.Outcome.next.inj (h'.symm.trans h)
  exact ⟨r, ho, hr⟩

/-- The answer an instruction has added is one of its answers. -/
theorem answers_of_outcome {i : Instr} {s t : State} {r : Response} (h : exec i s = .next t)
    (ho : t.outcome = s.outcome ++ [r]) : Answers i s r := by
  obtain ⟨r', ho', hr⟩ := answers_of_exec h
  obtain rfl : r = r' := by simpa [ho] using ho'
  exact hr

/-- Settles O45: each of the four kinds of instruction ends with one of its answers. -/
theorem everyOperationEndsWithOneAnswer : Obligations.EveryOperationEndsWithOneAnswer := fun _ s hw => by
  obtain ⟨t, r, h, ho, -⟩ := exec_answers hw s
  exact ⟨t, r, h, ho⟩

/-! ### What an instruction writes and leaves unchanged -/

/-- Whatever goes on has succeeded, with the counters of R29, or failed, with nothing but the failure added (R214). -/
theorem exec_next {i : Instr} {s t : State} (h : exec i s = .next t) :
    (∃ f, Succeeds i s.config f ∧ t = { s with
      pid := pidAfter i s.pid, tid := tidAfter i s.tid, outcome := s.outcome ++ [.success (f s.pid s.tid)] }) ∨
    ∃ k, Fails i s.config k ∧ t = { s with outcome := s.outcome ++ [.failure k] } := by
  obtain ⟨f, hf⟩ | ⟨k, hk⟩ | ⟨r, hr⟩ := exec_cases i s.config
  · exact .inl ⟨f, hf, Host.Outcome.next.inj (h.symm.trans (hf s rfl))⟩
  · exact .inr ⟨k, hk, Host.Outcome.next.inj (h.symm.trans (hk s rfl))⟩
  · rw [hr s rfl] at h; cases h

/-- No instruction writes `MAX_TXN` (R28). -/
theorem config_of_exec {i : Instr} {s t : State} (h : exec i s = .next t) : t.config = s.config := by
  obtain ⟨f, -, rfl⟩ | ⟨k, -, rfl⟩ := exec_next h <;> rfl

/-- No instruction takes or adds an event (R52). -/
theorem input_of_exec {i : Instr} {s t : State} (h : exec i s = .next t) : t.input = s.input := by
  obtain ⟨f, -, rfl⟩ | ⟨k, -, rfl⟩ := exec_next h <;> rfl

end Sys2Proof.Machine
end

section
/-! PROOFS. Which operation can report which failure kind (R211 to R220): the table, and that every failure is in it. -/

namespace Sys2Proof.Machine

/-- A mapped result that fails has failed before. -/
theorem error_of_map {α β ε : Type} {f : α → β} {e : Except ε α} {k : ε} (h : e.map f = .error k) : e = .error k := by
  cases e with
  | ok x => cases h
  | error k' => cases h; rfl

/-- The failures of the parsers (R150, R172, R197, R220). -/
theorem mem_failureKinds_of_parse {i : Instr} {k : FailureKind} (he : parseResult i = some (.error k)) :
    k ∈ failureKinds i := by
  have frames : k = .truncatedInput ∨ k = .protocolVersionMismatch ∨ k = .unsupportedTransactionType →
      k ∈ [.truncatedInput, .protocolVersionMismatch, .unsupportedTransactionType] := by simp
  have header : ∀ {rx}, parsePktHdr rx = .error k →
      k ∈ [.truncatedInput, .protocolVersionMismatch, .badPacketType, .unsupportedTransactionType] := fun h => by
    obtain rfl | rfl | rfl := parsePktHdr_error h <;> decide
  have behind : k ∈ [.truncatedInput, .protocolVersionMismatch, .unsupportedTransactionType] →
      k ∈ [.truncatedInput, .protocolVersionMismatch, .badPacketType, .unsupportedTransactionType] := by
    simp only [List.mem_cons, List.not_mem_nil, or_false]; tauto
  cases i
  case decPktHdr | decTxnHdr =>
    simp only [parseResult, Option.some.injEq] at he
    split at he <;> cases he
    exact List.mem_singleton.mpr rfl
  case txnDecode rx => exact frames (parseTxn_error (error_of_map (Option.some.inj he)))
  case pktHdrControl r p b body => exact frames (parseTxns_error (error_of_map (Option.some.inj he)))
  case pktDecode rx =>
    simp only [parseResult, decodePkt, Option.some.injEq] at he
    split at he
    · rename_i hf; cases he; exact header hf
    · exact behind (frames (parseTxns_error (error_of_map he)))
  case decodeResponse rx =>
    simp only [parseResult, decodeFirst, Option.some.injEq] at he
    split at he
    · rename_i hf; cases he; exact header hf
    · exact behind (frames (parseTxn_error (error_of_map he)))
  case pktHdrStatus | pktHdrResend | txnUnsupported => cases he; exact List.mem_singleton.mpr rfl
  all_goals cases he

/-- The failures of PKT_ENCODE and of the BUILD operations, for a `MAX_TXN` of at least 1 (R171, R198). -/
theorem mem_failureKinds_of_packet {i : Instr} {qs : List Descriptor} {cap m : Nat} {k : FailureKind} (hm : 1 ≤ m)
    (hw : i.WellFormed) (hi : packetOperands i = some (qs, cap)) (hc : packetCheck qs cap m = some k) :
    k ∈ failureKinds i := by
  obtain rfl | ⟨q, hq, rfl, hk⟩ := packetOperands_cases hi hw
  · obtain rfl | rfl | rfl := packetCheck_some hc <;> simp [failureKinds]
  · rw [packetCheck_single hq hm] at hc
    rw [hk]
    split at hc <;> cases hc
    exact List.mem_singleton.mpr rfl

/-- A failure an instruction answers with is one of its kinds (R211). -/
theorem mem_failureKinds_of_answers {i : Instr} {s : State} {k : FailureKind} (hm : s.config.Wf) (hw : i.WellFormed)
    (h : Answers i s (.failure k)) : k ∈ failureKinds i := by
  cases h with
  | parseFails he => exact mem_failureKinds_of_parse he
  | frameFails hi hk => subst hi; simpa [failureKinds] using hk
  | packetFails hi hc => exact mem_failureKinds_of_packet hm.1 hw hi hc

/-- No instruction reports one of the two reserved failures (R217, R218). -/
theorem not_reserved_of_mem {i : Instr} {k : FailureKind} (h : k ∈ failureKinds i) :
    k ≠ .sequenceGap ∧ k ≠ .counterExhaustion := by
  constructor <;> rintro rfl <;> cases i <;> simp [failureKinds] at h

/-- Settles O47: the failure is in the instruction's row of the table, which is read off for each kind. -/
theorem failureKindsByOperation : Obligations.FailureKindsByOperation := by
  intro i s t k hm h ho
  have hk := mem_failureKinds_of_answers hm (wellFormed_of_exec h) (answers_of_outcome h ho)
  obtain ⟨hgap, hcounter⟩ := not_reserved_of_mem hk
  refine ⟨hgap, hcounter, ?bufferTooSmall, ?packetTooLarge, ?unsupported, ?badPacketType, ?parse, ?header⟩
  case bufferTooSmall => rintro rfl; cases i <;> simp [failureKinds, usesBothCounters] at hk ⊢
  case packetTooLarge => rintro rfl; cases i <;> simp [failureKinds] at hk ⊢
  case unsupported => rintro rfl; cases i <;> simp [failureKinds, isDecoder] at hk ⊢
  case badPacketType => rintro rfl; cases i <;> simp [failureKinds] at hk ⊢
  case parse => rintro (rfl | rfl) <;> cases i <;> simp [failureKinds, isDecoder] at hk ⊢
  case header => rintro w (rfl | rfl) <;> exact List.mem_singleton.mp hk

end Sys2Proof.Machine
end

section
/-! PROOFS. Steps (R16, R17, R52, R240): what a step does with the oldest event, and that the wire channels do what the
decoders do (log 1). -/

namespace Sys2Proof.Machine

/-! ### Steps -/

/-- The oldest event taken (R52). -/
theorem takeEvent_eq {s : State} {e : Event} {rest : List Event} (h : s.input = e :: rest) :
    takeEvent s = { s with input := rest } := by
  rw [takeEvent, h]; rfl

/-- With no event the block is idle (R17). -/
theorem step_of_idle {s : State} (h : s.input = []) : step s = .next s := by
  simp only [step, h]

/-- A hardware reset is taken between operations (R240). -/
theorem step_of_reset {s : State} {rest : List Event} (h : s.input = .hardwareReset :: rest) :
    step s = .next (hardwareReset { s with input := rest }) := by
  simp only [step, takeEvent_eq h, h]

section Request

variable {s : State} {r : Request} {rest : List Event} (h : s.input = .request r :: rest)
include h

/-- A request whose bytes decode is executed (R16). -/
theorem step_of_instr {i : Instr} (hd : decode r = .ok i) : step s = exec i { s with input := rest } := by
  simp only [step, takeEvent_eq h, h, hd]

/-- A request whose bytes do not decode is answered with the parser's failure or refused (R233). -/
theorem step_of_error {e : DecodeError} (hd : decode r = .error e) :
    step s = rejectRequest e { s with input := rest } := by
  simp only [step, takeEvent_eq h, h, hd]

/-- Bytes that are no command are refused (R233). -/
theorem step_refused {e : DecodeError} (hd : decode r = .error e) (he : ∀ k, e ≠ .wire k) :
    step s = .refused (.noCommand e) := by
  rw [step_of_error h hd]
  cases e
  case wire k => exact absurd rfl (he k)
  all_goals rfl

end Request

/-- Everything a step can do when it goes on (R16, R17, R240). -/
inductive StepCases (s t : State) : Prop where
  | idle (h : s.input = []) (ht : t = s)
  | reset {rest} (h : s.input = .hardwareReset :: rest) (ht : t = hardwareReset { s with input := rest })
  | instr {r rest i} (h : s.input = .request r :: rest) (hd : decode r = .ok i)
      (ht : exec i { s with input := rest } = .next t)
  | wireFails {r rest k} (h : s.input = .request r :: rest) (hd : decode r = .error (.wire k))
      (ht : t = respond (.failure k) { s with input := rest })

/-- Each form of the input gives its case. -/
theorem step_cases {s t : State} (h : step s = .next t) : StepCases s t := by
  match hs : s.input with
  | [] => rw [step_of_idle hs] at h; exact .idle hs (Host.Outcome.next.inj h).symm
  | .hardwareReset :: rest => rw [step_of_reset hs] at h; exact .reset hs (Host.Outcome.next.inj h).symm
  | .request r :: rest =>
    cases hd : decode r with
    | ok i => rw [step_of_instr hs hd] at h; exact .instr hs hd h
    | error e =>
      cases e
      case wire k => rw [step_of_error hs hd] at h; exact .wireFails hs hd (Host.Outcome.next.inj h).symm
      all_goals rw [step_of_error hs hd] at h; cases h

/-- Settles O4: a step is the event's meaning on the state with the event taken. -/
theorem stepRunsDecodedInstruction : Obligations.StepRunsDecodedInstruction :=
  ⟨fun _ _ _ _ h hd => step_of_instr h hd, fun _ _ _ _ h hd => step_of_error h hd,
    fun _ _ _ _ h hd he => step_refused h hd he, fun _ h => step_of_idle h⟩

/-! ### The wire channels (log 1) -/

/-- What the rows make of a frame's bytes the parser makes of them too, an unsupported type included (R150, R213). -/
theorem step_frame {s : State} {bytes : List Byte} {rest : List Event} (h : s.input = .request ⟨.frame, bytes⟩ :: rest) :
    step s = exec (.txnDecode bytes) { s with input := rest } := by
  cases hp : parseTxn bytes 0 with
  | ok x =>
    obtain ⟨T, next⟩ := x
    obtain ⟨i, hi, hT, hw⟩ := decodeFrame_ok hp
    obtain ⟨hv, -, hwire⟩ := parseTxn_ok hp
    rw [step_of_instr h hi, exec_of_transaction hT hw]
    rw [List.drop_zero] at hwire
    rw [hwire, exec_txnDecode_wire hv]
  | error k =>
    rw [exec_txnDecode_of_error hp]
    obtain hd | ⟨rfl, t, c, y, i, hd, -⟩ := decodeFrame_error hp
    · rw [step_of_error h hd]; rfl
    · rw [step_of_instr h hd]; rfl

/-- Where the header checks pass, the rows read a control packet (R62, R172). -/
theorem decodePacket_ok {bytes : List Byte} {f : PktFields} (h : parsePktHdr bytes = .ok f) :
    decodePacket bytes = .ok (.pktHdrControl f.rsvd f.packetID f.byteOrder (bytes.drop 4)) := by
  obtain ⟨-, ht, hbytes⟩ := parsePktHdr_ok h
  rw [ht] at hbytes
  rw [hbytes]
  simp [decodePacket, matchRow_pktRows, pktRowOf]

/-- Where the header checks fail, the rows fail alike, but for a status or re-send packet, which has a row of its own
(R220). -/
theorem decodePacket_error {bytes : List Byte} {k : FailureKind} (h : parsePktHdr bytes = .error k) :
    decodePacket bytes = .error (.wire k) ∨ k = .badPacketType ∧ ∃ r p b body,
      decodePacket bytes = .ok (.pktHdrStatus r p b body) ∨ decodePacket bytes = .ok (.pktHdrResend r p b body) := by
  unfold parsePktHdr at h
  split at h
  · rename_i hw; cases h; left; simp only [decodePacket, hw]
  rename_i w hw
  dsimp only at h
  split at h
  · rename_i hv; cases h; left; simp only [decodePacket, hw, matchRow_pktRows, pktRowOf, if_pos hv, if_neg hv]
  rename_i hv
  split at h <;> cases h
  rename_i ht
  simp only [decodePacket, hw, matchRow_pktRows, pktRowOf, if_neg hv, if_neg ht]
  by_cases hstatus : (pktFields w).packetType = statusType
  · simp only [if_pos hstatus]; exact .inr ⟨trivial, _, _, _, _, .inl rfl⟩
  · by_cases hresend : (pktFields w).packetType = resendType
    · simp only [if_neg hstatus, if_pos hresend]; exact .inr ⟨trivial, _, _, _, _, .inr rfl⟩
    · left; simp only [if_neg hstatus, if_neg hresend, if_pos (not_not.mp hv)]

/-- What the rows make of a packet's bytes the header checks and the packet loop make of them too (R172, R220). -/
theorem step_packet {s : State} {bytes : List Byte} {rest : List Event}
    (h : s.input = .request ⟨.packet, bytes⟩ :: rest) : step s = exec (.pktDecode bytes) { s with input := rest } := by
  cases hp : parsePktHdr bytes with
  | ok f =>
    obtain ⟨-, ht, hbytes⟩ := parsePktHdr_ok hp
    rw [ht] at hbytes
    rw [step_of_instr h (decodePacket_ok hp), controlPacketsAreReceived.2, ← hbytes]
  | error k =>
    rw [exec_pktDecode_of_header hp]
    obtain hd | ⟨rfl, r, p, b, body, hd | hd⟩ := decodePacket_error hp
    · rw [step_of_error h hd]; rfl
    · rw [step_of_instr h hd]; rfl
    · rw [step_of_instr h hd]; rfl

/-- Settles O44: row by row on the frame channel, header and body on the packet channel. -/
theorem wireChannelsAreTheDecoders : Obligations.WireChannelsAreTheDecoders :=
  ⟨fun _ _ _ h => step_frame h, fun _ _ _ h => step_packet h⟩

end Sys2Proof.Machine
end

section
/-! PROOFS. The invariant of a block (R70, R131, R149, R171, R174, R210, R213): every answer is sound, and every step keeps
that. -/

namespace Sys2Proof.Machine

/-! ### Every answer is sound -/

/-- The results of a register operation are sound: a header built has version 2 (R61, R63). -/
theorem sound_of_registerResults {i : Instr} {f : PacketId → TxnId → Results} (hf : registerResults i = some f)
    (p : PacketId) (t : TxnId) (m : Nat) : Response.sound m (.success (f p t)) = true := by
  cases i <;> cases hf
  case encPktHdr | encTxnHdr => simp [Response.sound]
  all_goals rfl

/-- What the parsers return: header fields of version 2, valid Transactions with the bytes they take, a valid control packet
(R103, R104, R150, R172, R197). -/
inductive ParsedResults : Results → Prop where
  | pktFields {f} (h : f.version = protocolVersion) : ParsedResults (.pktFields f)
  | txnFields {f} (h : f.version = protocolVersion) : ParsedResults (.txnFields f)
  | transaction {T} (h : T.valid = true) : ParsedResults (.decodedTxn T (frameBytes T.payload.length))
  | packet {P} (h : P.valid = true) : ParsedResults (.decodedPkt P)
  | response {T p} (h : T.valid = true) : ParsedResults (.response T p (4 + frameBytes T.payload.length))

/-- Whatever parses returns one of these. -/
theorem parsedResults_of_parseResult {i : Instr} {v : Results} (he : parseResult i = some (.ok v)) (hw : i.WellFormed) :
    ParsedResults v := by
  cases hT : i.transaction with
  | some T =>
    obtain rfl : v = .decodedTxn T (frameBytes T.payload.length) := by
      cases i <;> cases hT <;> cases he <;> rfl
    exact .transaction (valid_of_transaction hT hw)
  | none =>
    cases i
    case decPktHdr w =>
      simp only [parseResult, Option.some.injEq] at he
      split at he <;> cases he
      exact .pktFields ‹_›
    case decTxnHdr w =>
      simp only [parseResult, Option.some.injEq] at he
      split at he <;> cases he
      exact .txnFields ‹_›
    case txnDecode rx =>
      obtain ⟨T, hv, rfl, -⟩ := decodeTxn_ok (Option.some.inj he)
      exact .transaction hv
    case pktDecode rx =>
      obtain ⟨P, hv, rfl, -⟩ := decodePkt_ok (Option.some.inj he)
      exact .packet hv
    case decodeResponse rx =>
      obtain ⟨r, p, b, T, rest, hv, -, rfl⟩ := wire_of_decodeFirst (Option.some.inj he)
      exact .response hv
    case pktHdrControl r p b body =>
      obtain ⟨P, hv, rfl, -⟩ := decodePkt_ok ((decodePkt_control r p b body).trans (Option.some.inj he))
      exact .packet hv
    case pktHdrStatus | pktHdrResend | txnUnsupported => cases he
    case encPktHdr | encTxnHdr | pidGet | pidSet | pidReset | pidInc | tidGet | tidSet | tidReset | tidInc | txnEncode
      | pktEncode | buildRead | buildWrite | buildNIRead | buildNIWrite | buildRMWBits | buildRMWSum => cases he
    all_goals cases hT

/-- What a parser returns is sound: supported frames, version 2 (R68, R172, R213). -/
theorem ParsedResults.sound {v : Results} (h : ParsedResults v) (m : Nat) : Response.sound m (.success v) = true := by
  cases h <;> simp_all [Response.sound]

/-- The Transactions of well-formed requests are requests (R65, R149). -/
theorem isRequest_of_wellFormed {q : Descriptor} (hq : q.wellFormed = true) (t : TxnId) :
    isRequest (q.transaction t) = true := by
  simp [isRequest, transaction_valid hq]

theorem isRequest_of_mem {qs : List Descriptor} (hq : ∀ q ∈ qs, q.wellFormed = true) {t : TxnId} {T : Transaction}
    (hT : T ∈ transactionsFrom t qs) : isRequest T = true := by
  obtain ⟨q, hmem, t', rfl⟩ := mem_transactionsFrom hT
  exact isRequest_of_wellFormed (hq q hmem) t'

/-- A packet past the checks is within the limits of R70 and R174, its Transactions are requests with consecutive IDs. -/
theorem sound_of_packet {qs : List Descriptor} {cap : Nat} {s : State} (hq : ∀ q ∈ qs, q.wellFormed = true)
    (hc : packetCheck qs cap s.config.maxTxn = none) :
    Response.sound s.config.maxTxn (.success (.encodedPkt (packetOf qs s).wire (packetOf qs s))) = true := by
  obtain ⟨-, hcount, hmtu, -⟩ := (packetCheck_eq_none_iff _ _ _).mp hc
  have hall : (transactionsFrom s.tid qs).all isRequest = true := List.all_eq_true.mpr fun _ => isRequest_of_mem hq
  simp only [Response.sound, packetOf_wire_length, Bool.and_eq_true, decide_eq_true_eq, beq_iff_eq]
  exact ⟨⟨⟨⟨⟨trivial, rfl⟩, hall⟩, consecutive_transactionsFrom _ _⟩, by simpa [packetOf] using hcount⟩, hmtu⟩

/-- An encoded transaction is the frame of a request and fits under the ceiling (R70, R149). -/
theorem sound_of_frame {q : Descriptor} (hq : q.wellFormed = true) (t : TxnId) (m : Nat) :
    Response.sound m (.success (.encodedTxn (q.transaction t).wire (q.transaction t))) = true := by
  have hp := payload_le_of_valid (transaction_valid hq t)
  simp only [Response.sound, beq_self_eq_true, isRequest_of_wellFormed hq, wire_length, frameBytes, Bool.and_eq_true,
    decide_eq_true_eq, true_and]
  rw [mtuBytes]; omega

/-- Every answer of a well-formed instruction is sound. -/
theorem sound_of_answers {i : Instr} {s : State} {r : Response} (hm : s.config.Wf) (hw : i.WellFormed)
    (h : Answers i s r) : r.sound s.config.maxTxn = true := by
  have failure : ∀ {k}, Answers i s (.failure k) → Response.sound s.config.maxTxn (.failure k) = true := fun h => by
    obtain ⟨hgap, hcounter⟩ := not_reserved_of_mem (mem_failureKinds_of_answers hm hw h)
    simp [Response.sound, hgap, hcounter]
  cases h with
  | registers hf => exact sound_of_registerResults hf _ _ _
  | parsed he => exact (parsedResults_of_parseResult he hw).sound _
  | frame hi hq hc => exact sound_of_frame hq _ _
  | packet hi hq hc => exact sound_of_packet hq hc
  | parseFails he => exact failure (.parseFails he)
  | frameFails hi hk => exact failure (.frameFails hi hk)
  | packetFails hi hc => exact failure (.packetFails hi hc)

/-! ### Every step keeps the invariant -/

/-- Settles O3: 183 is in the range of `MAX_TXN` (log 3), and no answer has been given. -/
theorem resetHoldsInvariant : Obligations.ResetHoldsInvariant :=
  ⟨by decide, fun _ h => absurd h List.not_mem_nil⟩

/-- The invariant says nothing of the waiting events. -/
theorem State.Inv.withInput {s : State} (hs : s.Inv) (rest : List Event) : State.Inv { s with input := rest } := hs

/-- A state with one more answer, sound, and the same `MAX_TXN` keeps the invariant. -/
theorem State.Inv.add {s t : State} {r : Response} (hs : s.Inv) (hc : t.config = s.config)
    (ho : t.outcome = s.outcome ++ [r]) (hr : r.sound s.config.maxTxn = true) : t.Inv := by
  obtain ⟨hm, hall⟩ := hs
  rw [State.Inv, hc, ho]
  refine ⟨hm, fun r' hr' => ?_⟩
  obtain h | h := List.mem_append.mp hr'
  · exact hall r' h
  · rwa [List.mem_singleton.mp h]

/-- An instruction keeps the invariant: it adds one sound answer and leaves `MAX_TXN` (R28, R210). -/
theorem inv_of_exec {i : Instr} {s t : State} (hs : s.Inv) (h : exec i s = .next t) : t.Inv := by
  obtain ⟨r, ho, hr⟩ := answers_of_exec h
  exact hs.add (config_of_exec h) ho (sound_of_answers hs.1 (wellFormed_of_exec h) hr)

/-- Settles O53: a step adds no answer, or an instruction's; a wire channel's failure is that of the decoder (log 1), and the
command port reports none. -/
theorem stepKeepsInvariant : Obligations.StepKeepsInvariant := by
  intro s t hs h
  cases step_cases h with
  | idle _ ht => rwa [ht]
  | reset _ ht => rw [ht]; exact hs
  | @instr r rest i _ _ ht => exact inv_of_exec (hs.withInput rest) ht
  | @wireFails r rest k hr hd _ =>
    obtain ⟨channel, bytes⟩ := r
    cases channel with
    | command => exact absurd hd (decodeCommand_error bytes k)
    | packet => exact inv_of_exec (hs.withInput rest) ((step_packet hr).symm.trans h)
    | frame => exact inv_of_exec (hs.withInput rest) ((step_frame hr).symm.trans h)

end Sys2Proof.Machine
end

section
/-! PROOFS. Rules about the whole machine: who changes the counters (R29), that nothing beside them and `MAX_TXN` is state
(R25, R27), what a failure, a decoder and a reset leave (R48, R222, R240, R242), and which bytes are delivered (R47, R49). -/

namespace Sys2Proof.Machine

/-! ### Who changes the counters (R29) -/

/-- An operation on one counter does not write the other (R29). -/
theorem keeps_a_counter {i : Instr} (h : usesBothCounters i = false) :
    (∀ p, pidAfter i p = p) ∨ ∀ t, tidAfter i t = t := by
  cases i
  case encTxnHdr | tidSet | tidReset | tidInc | txnEncode => exact .inl fun _ => rfl
  case pktEncode | buildRead | buildWrite | buildNIRead | buildNIWrite | buildRMWBits | buildRMWSum => cases h
  all_goals exact .inr fun _ => rfl

/-- What an instruction makes of one counter, it makes of it whatever the other is (R29). -/
theorem counters_independent {i : Instr} {s t : State} (h : exec i s = .next t) :
    (∀ v : TxnId, ∃ t', exec i { s with tid := v } = .next t' ∧ t'.pid = t.pid) ∧
    ∀ v : PacketId, ∃ t', exec i { s with pid := v } = .next t' ∧ t'.tid = t.tid := by
  obtain ⟨f, hf, rfl⟩ | ⟨k, hk, rfl⟩ := exec_next h
  · exact ⟨fun v => ⟨_, hf { s with tid := v } rfl, rfl⟩, fun v => ⟨_, hf { s with pid := v } rfl, rfl⟩⟩
  · exact ⟨fun v => ⟨_, hk { s with tid := v } rfl, rfl⟩, fun v => ⟨_, hk { s with pid := v } rfl, rfl⟩⟩

/-- Settles O21: an instruction succeeds with the counters of R29's list or fails with none changed, and a step takes one
event. -/
theorem onlyListedOperationsChangeCounters : Obligations.OnlyListedOperationsChangeCounters := by
  refine ⟨fun i s t h => ?_, fun s t h hne => ?_, fun i s t hu h => ⟨?_, counters_independent h⟩⟩
  · exact (exec_next h).imp (fun ⟨_, _, ht⟩ => ⟨_, ht⟩) (fun ⟨k, _, ht⟩ => ⟨k, ht⟩)
  · cases step_cases h with
    | idle _ ht => subst ht; simp at hne
    | wireFails _ _ ht => subst ht; simp at hne
    | reset hr ht => subst ht; exact .inl ⟨_, hr, rfl, rfl⟩
    | instr hr hd ht =>
      obtain ⟨f, -, rfl⟩ | ⟨k, -, rfl⟩ := exec_next ht
      · exact .inr ⟨_, _, _, hr, hd, rfl, rfl⟩
      · simp at hne
  · obtain ⟨f, -, rfl⟩ | ⟨k, -, rfl⟩ := exec_next h
    · exact (keeps_a_counter hu).imp (fun hp => hp _) (fun ht => ht _)
    · exact .inl rfl

/-- Settles O54: a step takes its event, and neither an instruction nor a failure writes the configuration. -/
theorem stepKeepsConfigurationAndTakesOneEvent : Obligations.StepKeepsConfigurationAndTakesOneEvent := by
  intro s t h
  cases step_cases h with
  | idle hr ht => subst ht; rw [hr]; exact ⟨rfl, rfl⟩
  | reset hr ht => subst ht; rw [hr]; exact ⟨rfl, rfl⟩
  | wireFails hr _ ht => subst ht; rw [hr]; exact ⟨rfl, rfl⟩
  | instr hr _ ht => rw [hr]; exact ⟨(config_of_exec ht :), (input_of_exec ht :)⟩

/-! ### No state beside the counters (R25, R27, R222, R242) -/

/-- Settles O51: whether an instruction succeeds, and with what, is a function of the counters and `MAX_TXN`. -/
theorem noHiddenState : Obligations.NoHiddenState := by
  intro i s s' t hp ht hc h
  obtain ⟨f, hf, rfl⟩ | ⟨k, hk, rfl⟩ := exec_next h
  · exact ⟨_, _, hf s' hc.symm, rfl, by rw [hp, ht], by rw [hp], by rw [ht]⟩
  · exact ⟨_, _, hk s' hc.symm, rfl, rfl, hp.symm, ht.symm⟩

/-- A failed instruction leaves the counters and `MAX_TXN` (R214). -/
theorem eq_of_failure {i : Instr} {s t : State} {k : FailureKind} (h : exec i s = .next t)
    (ho : t.outcome = s.outcome ++ [.failure k]) : t = { s with outcome := s.outcome ++ [.failure k] } := by
  obtain ⟨f, -, rfl⟩ | ⟨k', -, rfl⟩ := exec_next h
  · simp at ho
  · rw [← ho]

/-- Settles O52: after a failure the counters and `MAX_TXN` are what they were, and nothing else is state. -/
theorem failureLeavesNoTrace : Obligations.FailureLeavesNoTrace := by
  intro i j s t u k h ho hu
  obtain rfl := eq_of_failure h ho
  exact noHiddenState j s _ u rfl rfl rfl hu

/-- Settles O50: the parsed answer is a function of the operands alone. -/
theorem decodersTouchNoRegister : Obligations.DecodersTouchNoRegister := by
  intro i s t hi h
  obtain ⟨e, he⟩ := (isDecoder_iff i).mp hi
  have hexec := fun u => (exec_of_parseResult he (wellFormed_of_exec h) u).trans (answer_eq e u)
  exact ⟨_, Host.Outcome.next.inj (h.symm.trans (hexec s)), hexec⟩

/-- Settles O1: a hardware reset writes what the two resets write, without their answers. -/
theorem hardwareResetClearsCounters : Obligations.HardwareResetClearsCounters := by
  refine ⟨rfl, rfl, fun s rest h => ?_⟩
  rw [step_of_reset h]
  exact ⟨rfl, _, rfl, rfl⟩

/-- PID_RESET and TID_RESET one after the other (R123, R127). -/
theorem execAll_resets (s : State) : execAll [.pidReset, .tidReset] s = .next { s with
    pid := 0, tid := 0, outcome := s.outcome ++ [.success .none, .success .none] } := by
  simp [execAll, exec, execPidReset, execTidReset, succeed, respond, writePid, writeTid]

/-- Settles O2: the two resets leave the reset values of the counters, and nothing but them and `MAX_TXN` is state. -/
theorem resetOperationsReachResetState : Obligations.ResetOperationsReachResetState := by
  refine ⟨execAll_resets, fun i s t u ht hu => ?_⟩
  have ht' := Host.Outcome.next.inj ((execAll_resets s).symm.trans ht)
  exact noHiddenState i { State.reset with config := s.config } t u (congrArg State.pid ht' :)
    (congrArg State.tid ht' :) (congrArg State.config ht' :) hu

/-! ### Delivered bytes (R47, R49) -/

/-- The results of a register operation deliver no byte. -/
theorem deliveredBytes_of_registerResults {i : Instr} {f : PacketId → TxnId → Results} (hf : registerResults i = some f)
    (p : PacketId) (t : TxnId) : deliveredBytes (.success (f p t)) = [] := by
  cases i <;> cases hf <;> rfl

/-- What a parser returns delivers no byte. -/
theorem ParsedResults.deliveredBytes {v : Results} (h : ParsedResults v) : deliveredBytes (.success v) = [] := by
  cases h <;> rfl

/-- The capacity of an operation that encodes a packet (R49). -/
theorem capacity_of_packetOperands {i : Instr} {qs : List Descriptor} {cap : Nat}
    (hi : packetOperands i = some (qs, cap)) : capacity i = some cap := by
  cases i <;> cases hi <;> rfl

/-- Frames and packets are whole words (R49, R58). -/
theorem four_dvd_frameBytes (n : Nat) : 4 ∣ frameBytes n := by rw [frameBytes]; omega

theorem four_dvd_packetBytes (qs : List Descriptor) : 4 ∣ packetBytes qs :=
  (Nat.dvd_refl 4).add (List.dvd_sum fun n hn => by
    obtain ⟨q, -, rfl⟩ := List.mem_map.mp hn
    exact four_dvd_frameBytes _)

/-- An answer delivers no byte, or as many whole words as the capacity allows (R49). -/
theorem deliveredBytes_of_answers {i : Instr} {s : State} {r : Response} (hw : i.WellFormed) (h : Answers i s r) :
    deliveredBytes r = [] ∨ ∃ cap, capacity i = some cap ∧ (deliveredBytes r).length ≤ cap ∧
      4 ∣ (deliveredBytes r).length := by
  cases h with
  | registers hf => exact .inl (deliveredBytes_of_registerResults hf _ _)
  | parsed he => exact .inl (parsedResults_of_parseResult he hw).deliveredBytes
  | parseFails | frameFails | packetFails => exact .inl rfl
  | frame hi hq hc =>
    subst hi
    refine .inr ⟨_, rfl, ?_⟩
    rw [deliveredBytes, wire_length]
    exact ⟨hc, four_dvd_frameBytes _⟩
  | packet hi hq hc =>
    refine .inr ⟨_, capacity_of_packetOperands hi, ?_⟩
    rw [deliveredBytes, packetOf_wire_length]
    exact ⟨((packetCheck_eq_none_iff _ _ _).mp hc).2.2.2, four_dvd_packetBytes _⟩

/-- A packet that passes the checks passes them with more room (R47). -/
theorem packetCheck_none_mono {qs : List Descriptor} {cap cap' m : Nat} (hle : cap ≤ cap')
    (hc : packetCheck qs cap m = none) : packetCheck qs cap' m = none := by
  obtain ⟨hs, hcount, hmtu, hcap⟩ := (packetCheck_eq_none_iff _ _ _).mp hc
  exact (packetCheck_eq_none_iff _ _ _).mpr ⟨hs, hcount, hmtu, hcap.trans hle⟩

/-- Settles O48: what an answer delivers has passed the capacity check, which a larger capacity passes too. -/
theorem deliveredBytesFitCapacity : Obligations.DeliveredBytesFitCapacity := by
  refine ⟨fun i s t r cap hcap h ho => ?_, fun i s t r hcap h ho => ?_, fun q cap cap' s t v hle h ho => ?_,
    fun qs cap cap' s t v hle h ho => ?_⟩
  · obtain hr | ⟨cap', hcap', hr⟩ := deliveredBytes_of_answers (wellFormed_of_exec h) (answers_of_outcome h ho)
    · rw [hr]; exact ⟨Nat.zero_le _, Nat.dvd_zero 4⟩
    · obtain rfl : cap' = cap := Option.some.inj (hcap'.symm.trans hcap)
      exact hr
  · obtain hr | ⟨cap', hcap', -⟩ := deliveredBytes_of_answers (wellFormed_of_exec h) (answers_of_outcome h ho)
    · exact hr
    · rw [hcap] at hcap'; cases hcap'
  · cases answers_of_outcome h ho with
    | registers hf => cases hf
    | parsed he => cases he
    | packet hi => cases hi
    | frame hi hq hc =>
      cases hi
      rw [← h, exec_txnEncode_of_wellFormed hq hc, exec_txnEncode_of_wellFormed hq (hc.trans hle)]
  · cases answers_of_outcome h ho with
    | registers hf => cases hf
    | parsed he => cases he
    | frame hi => cases hi
    | packet hi hq hc =>
      cases hi
      have hp : qs.all Descriptor.presentable = true := wellFormed_of_exec h
      rw [← h]
      exact (encodePacket_success hp (packetCheck_none_mono hle hc)).trans (encodePacket_success hp hc).symm

end Sys2Proof.Machine
end

section
/-! PROOFS. Packet IDs over a sequence of operations (R131, R178). -/

namespace Sys2Proof.Machine

/-- Operations that leave `PID` alone leave it alone one after another. -/
theorem pid_of_execAll {ms : List Instr} (hms : ∀ m ∈ ms, ∀ v : PacketId, pidAfter m v = v) {s t : State}
    (h : execAll ms s = .next t) : t.pid = s.pid := by
  induction ms generalizing s with
  | nil => exact congrArg State.pid (Host.Outcome.next.inj h).symm
  | cons m ms ih =>
    unfold execAll at h
    split at h
    · rename_i u hu
      have hpid : u.pid = s.pid := by
        obtain ⟨f, -, rfl⟩ | ⟨k, -, rfl⟩ := exec_next hu
        · exact hms m List.mem_cons_self s.pid
        · rfl
      rw [ih (fun m' hm' => hms m' (List.mem_cons_of_mem m hm')) h, hpid]
    · cases h
    · cases h

/-- The target accepts the packet ID after the last one (R178). -/
theorem seqAccept_succ (last : PacketId) : seqAccept last (last + 1) = true := by
  rw [seqAccept, inc16_eq, beq_self_eq_true, Bool.or_true]

/-- Settles O55: the second header carries the `PID` that the first has left, plus nothing the operations between add. -/
theorem consecutivePacketsAreAccepted : Obligations.ConsecutivePacketsAreAccepted := by
  intro i j ms s t t' u r r' p p' hi hj hms ht hr hp hms' hu hr' hp'
  obtain ⟨hps, htp⟩ := builtPacketId_of_exec hi ht hr hp
  obtain ⟨hpt, -⟩ := builtPacketId_of_exec hj hu hr' hp'
  have next : p' = p + 1 := by rw [hpt, pid_of_execAll hms hms', htp, hps]
  refine ⟨hps, ?_, next ▸ seqAccept_succ p⟩
  rw [next, BitVec.toNat_add]; rfl

end Sys2Proof.Machine
end

section
/-! PROOFS. The blocks of a system do not see each other (R31, R132, R230; log 14). -/

namespace Sys2Proof.Machine

/-- One turn of the schedule, as the block at position `j` sees it: its own step, or nothing. -/
def turn (k j : Nat) (s : State) : Result := if k = j then step s else .next s

/-- What a turn of the system does to each of its blocks. -/
theorem System.step_next {k : Nat} {S S' : System} (h : S.step k = .next S') :
    S'.blocks.length = S.blocks.length ∧
    ∀ (j : Nat) (s : State), S.blocks[j]? = some s → ∃ t, turn k j s = .next t ∧ S'.blocks[j]? = some t := by
  unfold System.step at h
  split at h
  · rename_i hk
    obtain rfl := Host.Outcome.next.inj h
    refine ⟨rfl, fun j s hj => ⟨s, if_neg ?_, hj⟩⟩
    rintro rfl
    rw [hk] at hj; cases hj
  · rename_i s₀ hk
    split at h <;> cases h
    rename_i t₀ ht
    refine ⟨List.length_set, fun j s hj => ?_⟩
    by_cases hkj : k = j
    · subst hkj
      obtain rfl : s₀ = s := Option.some.inj (hk.symm.trans hj)
      exact ⟨t₀, by rw [turn, if_pos rfl, ht], List.getElem?_set_self (List.getElem?_eq_some_iff.mp hk).1⟩
    · exact ⟨s, if_neg hkj, by rw [List.getElem?_set_ne hkj]; exact hj⟩

/-- A turn of the system goes on where the block whose turn it is goes on. -/
theorem System.step_completes {k : Nat} {S : System}
    (h : ∀ s, S.blocks[k]? = some s → ∃ t, Machine.step s = .next t) : ∃ S', S.step k = .next S' := by
  unfold System.step
  cases hk : S.blocks[k]? with
  | none => exact ⟨S, rfl⟩
  | some s =>
    obtain ⟨t, ht⟩ := h s hk
    exact ⟨⟨S.blocks.set k t⟩, by simp only [ht]⟩

/-- A block's steps under a schedule are its turn and its steps under the rest. -/
theorem core_run_count_cons (k j : Nat) (ks : List Nat) (s : State) :
    core.run ((k :: ks).count j) s = match turn k j s with
      | .next t => core.run (ks.count j) t
      | .fault f => .fault f
      | .refused r => .refused r := by
  by_cases hkj : k = j
  · subst hkj
    rw [List.count_cons_self, core_run_succ, turn, if_pos rfl]
    rfl
  · rw [List.count_cons_of_ne hkj, turn, if_neg hkj]

/-- Under a schedule each block ends where its own steps bring it (R132). -/
theorem System.run_next {ks : List Nat} {S S' : System} (h : System.run ks S = .next S') :
    S'.blocks.length = S.blocks.length ∧ ∀ (j : Nat) (s : State), S.blocks[j]? = some s →
      ∃ t, core.run (ks.count j) s = .next t ∧ S'.blocks[j]? = some t := by
  induction ks generalizing S with
  | nil =>
    obtain rfl := Host.Outcome.next.inj h
    exact ⟨rfl, fun j s hj => ⟨s, rfl, hj⟩⟩
  | cons k ks ih =>
    unfold System.run at h
    split at h
    · rename_i S₁ h₁
      obtain ⟨hlen₁, hturn⟩ := System.step_next h₁
      obtain ⟨hlen, hrun⟩ := ih h
      refine ⟨hlen.trans hlen₁, fun j s hj => ?_⟩
      obtain ⟨u, hu, hj₁⟩ := hturn j s hj
      obtain ⟨t, ht, hj'⟩ := hrun j u hj₁
      exact ⟨t, by rw [core_run_count_cons, hu]; exact ht, hj'⟩
    · cases h
    · cases h

/-- The system goes on under a schedule as long as each block on its own does (R230). -/
theorem System.run_completes {ks : List Nat} {S : System} (h : ∀ (j : Nat) (s : State), S.blocks[j]? = some s →
    ∃ t, core.run (ks.count j) s = .next t) : ∃ S', System.run ks S = .next S' := by
  induction ks generalizing S with
  | nil => exact ⟨S, rfl⟩
  | cons k ks ih =>
    have own : ∀ (j : Nat) (s : State), S.blocks[j]? = some s →
        ∃ u, turn k j s = .next u ∧ ∃ t, core.run (ks.count j) u = .next t := fun j s hj => by
      obtain ⟨t, ht⟩ := h j s hj
      rw [core_run_count_cons] at ht
      split at ht
      · exact ⟨_, ‹_›, t, ht⟩
      · cases ht
      · cases ht
    obtain ⟨S₁, h₁⟩ := System.step_completes fun s hk => by
      obtain ⟨u, hu, -⟩ := own k s hk
      rw [turn, if_pos rfl] at hu
      exact ⟨u, hu⟩
    obtain ⟨hlen, hturn⟩ := System.step_next h₁
    obtain ⟨S', h'⟩ := ih (S := S₁) fun j s₁ hj₁ => by
      obtain ⟨hlt, -⟩ := List.getElem?_eq_some_iff.mp hj₁
      have hj := List.getElem?_eq_getElem (hlen ▸ hlt)
      obtain ⟨u, hu, t, ht⟩ := own j _ hj
      obtain ⟨u', hu', hj'⟩ := hturn j _ hj
      obtain rfl : u = u' := Host.Outcome.next.inj (hu.symm.trans hu')
      obtain rfl : u = s₁ := Option.some.inj (hj'.symm.trans hj₁)
      exact ⟨t, ht⟩
    exact ⟨S', by unfold System.run; rw [h₁]; exact h'⟩

/-- Settles O58: turn by turn, a block sees its own steps only. -/
theorem blocksAreIsolated : Obligations.BlocksAreIsolated :=
  ⟨fun _ _ _ h => System.run_next h, fun _ _ h => System.run_completes h⟩

end Sys2Proof.Machine
end

section
/-! PROOFS. Words and headers (R41 to R46, R61 to R65, R101 to R105): the places of the fields as numbers, the round trips,
and the version check on a header in the other byte order. -/

namespace Sys2Proof

/-! ### Words in a buffer (R42, R46) -/

theorem wordOfBytes_toNat (b3 b2 b1 b0 : Byte) : (wordOfBytes b3 b2 b1 b0).toNat =
    b3.toNat * 2 ^ 24 + b2.toNat * 2 ^ 16 + b1.toNat * 2 ^ 8 + b0.toNat := by
  have hdigits := be32_toNat (wordOfBytes b3 b2 b1 b0)
  simp only [be32_wordOfBytes, List.map_cons, List.map_nil, List.cons.injEq, and_true] at hdigits
  omega

/-- The four bytes a word has been read from (R42). -/
theorem bytes_of_rxWord {rx : List Byte} {off : Nat} {w : Word} (h : rxWord rx off = some w) :
    ∃ b3 b2 b1 b0 : Byte, rx[off]? = some b3 ∧ rx[off + 1]? = some b2 ∧ rx[off + 2]? = some b1 ∧
      rx[off + 3]? = some b0 ∧ w = wordOfBytes b3 b2 b1 b0 := by
  unfold rxWord at h
  split at h
  · rename_i b3 b2 b1 b0 r hd
    have hget : ∀ k, rx[off + k]? = (b3 :: b2 :: b1 :: b0 :: r)[k]? := fun k => by rw [← hd, List.getElem?_drop]
    exact ⟨b3, b2, b1, b0, hget 0, hget 1, hget 2, hget 3, (Option.some.inj h).symm⟩
  · cases h

/-- Settles O11: a word is read from its four bytes, wherever they stand. -/
theorem wordsAreReadBack : Obligations.WordsAreReadBack := by
  refine ⟨fun pre post w => ?_, rxWord_eq_none_iff, fun rx off w h => ?_⟩
  · rw [List.append_assoc]
    exact (rxWord_append pre (be32 w ++ post) 0).trans (rxWord_be32 w post)
  · obtain ⟨b3, b2, b1, b0, h3, h2, h1, h0, rfl⟩ := bytes_of_rxWord h
    exact ⟨b3, b2, b1, b0, h3, h2, h1, h0, wordOfBytes_toNat b3 b2 b1 b0⟩

/-! ### Fields as numbers (R61, R63) -/

/-- A field of a word is the number from its lowest place on, as wide as the field. -/
theorem extractLsb'_eq_ofNat {n : Nat} (w : BitVec n) (start len : Nat) :
    w.extractLsb' start len = BitVec.ofNat len (w.toNat / 2 ^ start) := by
  rw [← Nat.shiftRight_eq_div_pow]; rfl

/-- The fields of a packet header of version 2, by their places (R61). -/
theorem pktFields_eq {w : Word} (h : w.toNat / 2 ^ 28 = 2) : pktFields w =
    ⟨2, BitVec.ofNat 4 (w.toNat / 2 ^ 24), BitVec.ofNat 16 (w.toNat / 2 ^ 8), BitVec.ofNat 4 (w.toNat / 2 ^ 4),
      BitVec.ofNat 4 w.toNat⟩ := by
  simp only [pktFields, extractLsb'_eq_ofNat, h, Nat.pow_zero, Nat.div_one]
  rfl

/-- The fields of a transaction header of version 2, by their places (R63). -/
theorem txnFields_eq {w : Word} (h : w.toNat / 2 ^ 28 = 2) : txnFields w =
    ⟨2, BitVec.ofNat 12 (w.toNat / 2 ^ 16), BitVec.ofNat 8 (w.toNat / 2 ^ 8), BitVec.ofNat 4 (w.toNat / 2 ^ 4),
      BitVec.ofNat 4 w.toNat⟩ := by
  simp only [txnFields, extractLsb'_eq_ofNat, h, Nat.pow_zero, Nat.div_one]
  rfl

/-! ### A header in the other byte order (R43) -/

/-- The version field of a word is the high half of its first byte. -/
theorem version_wordOfBytes (b3 b2 b1 b0 : Byte) :
    (pktFields (wordOfBytes b3 b2 b1 b0)).version = b3.extractLsb' 4 4 := by
  have hb2 := b2.isLt
  have hb1 := b1.isLt
  have hb0 := b0.isLt
  simp only [pktFields, extractLsb'_eq_ofNat, wordOfBytes_toNat]
  congr 1
  omega

/-- The byte order of a packet header is the high half of its last byte. -/
theorem byteOrder_eq_lastByte (w : Word) : (w.extractLsb' 0 8).extractLsb' 4 4 = (pktFields w).byteOrder := by
  apply BitVec.eq_of_toNat_eq
  simp only [pktFields, BitVec.extractLsb'_toNat, Nat.shiftRight_eq_div_pow]
  omega

end Sys2Proof

namespace Sys2Proof.Machine

/-! ### The header codec (R101 to R105) -/

theorem exec_decPktHdr {w : Word} (h : (pktFields w).version = protocolVersion) (s : State) :
    exec (.decPktHdr w) s = .next (respond (.success (.pktFields (pktFields w))) s) := by
  simp only [exec, execDecPktHdr, h, ne_eq, not_true_eq_false, if_false, succeed]

theorem exec_decPktHdr_version {w : Word} (h : (pktFields w).version ≠ protocolVersion) (s : State) :
    exec (.decPktHdr w) s = .next (respond (.failure .protocolVersionMismatch) s) := by
  simp only [exec, execDecPktHdr, if_pos h, failWith]

theorem exec_decTxnHdr {w : Word} (h : (txnFields w).version = protocolVersion) (s : State) :
    exec (.decTxnHdr w) s = .next (respond (.success (.txnFields (txnFields w))) s) := by
  simp only [exec, execDecTxnHdr, h, ne_eq, not_true_eq_false, if_false, succeed]

theorem exec_decTxnHdr_version {w : Word} (h : (txnFields w).version ≠ protocolVersion) (s : State) :
    exec (.decTxnHdr w) s = .next (respond (.failure .protocolVersionMismatch) s) := by
  simp only [exec, execDecTxnHdr, if_pos h, failWith]

/-- Settles O12: the header carries `PID`, and `PID + 1` is the successor modulo 65536. -/
theorem encPktHdrComposesThenAdvances : Obligations.EncPktHdrComposesThenAdvances := by
  intro b y s
  refine ⟨assemblePktHdr 0 s.pid b y, ?_, assemblePktHdr_toNat 0 s.pid b y⟩
  rw [exec_encPktHdr, ← packetId_add]
  rfl

/-- Settles O13: the header carries `TID`, and `TID + 1` is the successor modulo 4096. -/
theorem encTxnHdrComposesThenAdvances : Obligations.EncTxnHdrComposesThenAdvances := by
  intro y c s
  refine ⟨assembleTxnHdr s.tid c y requestInfo, ?_, assembleTxnHdr_toNat s.tid c y requestInfo⟩
  rw [exec_encTxnHdr, ← txnId_add]
  rfl

/-- Settles O14: the version is the number above 2^28, and the fields are the numbers at their places. -/
theorem decPktHdrSlicesFields : Obligations.DecPktHdrSlicesFields := by
  refine fun w s => ⟨fun h => ?_, fun h => exec_decPktHdr_version (mt (version_eq_iff w).mp h) s⟩
  rw [exec_decPktHdr ((version_eq_iff w).mpr h), pktFields_eq h]
  rfl

/-- Settles O15: the version is the number above 2^28, and the fields are the numbers at their places. -/
theorem decTxnHdrSlicesFields : Obligations.DecTxnHdrSlicesFields := by
  refine fun w s => ⟨fun h => ?_, fun h => exec_decTxnHdr_version (mt (version_eq_iff w).mp h) s⟩
  rw [exec_decTxnHdr ((version_eq_iff w).mpr h), txnFields_eq h]
  rfl

/-- What DEC_PKT_HDR has returned are the fields of its word, of version 2 (R103). -/
theorem eq_pktFields_of_exec {w : Word} {f : PktFields} {s t : State} (h : exec (.decPktHdr w) s = .next t)
    (ho : t.outcome = s.outcome ++ [.success (.pktFields f)]) :
    (pktFields w).version = protocolVersion ∧ pktFields w = f := by
  rw [exec_of_parseResult rfl rfl] at h
  have he := eq_ok_of_answer h ho
  split at he <;> cases he
  exact ⟨‹_›, rfl⟩

/-- What DEC_TXN_HDR has returned are the fields of its word, of version 2 (R104). -/
theorem eq_txnFields_of_exec {w : Word} {f : TxnFields} {s t : State} (h : exec (.decTxnHdr w) s = .next t)
    (ho : t.outcome = s.outcome ++ [.success (.txnFields f)]) :
    (txnFields w).version = protocolVersion ∧ txnFields w = f := by
  rw [exec_of_parseResult rfl rfl] at h
  have he := eq_ok_of_answer h ho
  split at he <;> cases he
  exact ⟨‹_›, rfl⟩

/-- Settles O16: the fields of an assembled header are its operands, and a header of version 2 is assembled from its
fields. -/
theorem headerRoundTrip : Obligations.HeaderRoundTrip := by
  refine ⟨fun y c s => ?_, fun b y s => ?_, fun w f s u h ho => ?_, fun w f s u h ho => ?_⟩
  · refine ⟨_, _, _, exec_encTxnHdr y c s, rfl, exec_decTxnHdr (by rw [txnFields_assemble]) _, ?_⟩
    rw [txnFields_assemble]; rfl
  · refine ⟨_, _, _, exec_encPktHdr b y s, rfl, exec_decPktHdr (by rw [pktFields_assemble]) _, ?_⟩
    rw [pktFields_assemble]; rfl
  · obtain ⟨hv, rfl⟩ := eq_txnFields_of_exec h ho
    exact assemble_txnFields hv
  · obtain ⟨hv, rfl⟩ := eq_pktFields_of_exec h ho
    exact assemble_pktFields hv

/-- Settles O17: the version read in the other byte order is the marker 0xF. -/
theorem byteSwappedHeaderRejected : Obligations.ByteSwappedHeaderRejected := by
  intro p y s _
  let hdr := assemblePktHdr 0 p 0xF y
  refine ⟨wordOfBytes (hdr.extractLsb' 0 8) (hdr.extractLsb' 8 8) (hdr.extractLsb' 16 8) (hdr.extractLsb' 24 8),
    be32_wordOfBytes .., ?_⟩
  have hv : (pktFields (wordOfBytes (hdr.extractLsb' 0 8) (hdr.extractLsb' 8 8) (hdr.extractLsb' 16 8)
      (hdr.extractLsb' 24 8))).version ≠ protocolVersion := by
    rw [version_wordOfBytes, byteOrder_eq_lastByte, pktFields_assemble]
    exact show bigEndianMarker ≠ protocolVersion by decide
  refine ⟨exec_decPktHdr_version hv s, exec_pktDecode_of_header (parsePktHdr_version ?_ hv) s⟩
  simpa using rxWord_be32 _ []

/-- Settles O57: the headers R101 and R102 compose from counters that are 0. -/
theorem firstHeadersAfterReset : Obligations.FirstHeadersAfterReset := by
  refine ⟨⟨_, exec_encPktHdr 0xF 0x0 State.reset, ?_⟩, fun n => ⟨_, _, exec_encTxnHdr 0x0 n State.reset, rfl, ?_⟩⟩
  · rfl
  · rw [assembleTxnHdr_toNat]
    simp only [reset_tid, requestInfo, BitVec.ofNat_eq_ofNat, BitVec.toNat_ofNat]
    omega

end Sys2Proof.Machine
end

section
/-! PROOFS. The tables: which transaction rows a header word matches (R63 to R65), and which images on the command port are
commands (R76, R233, U12; log 6). -/

namespace Sys2Proof

/-! ### The transaction rows (R64, R65) -/

/-- Two words put together from parts of the same widths are equal only where the parts are. -/
theorem append_eq_append_iff {m n : Nat} {x x' : BitVec m} {y y' : BitVec n} :
    x ++ y = x' ++ y' ↔ x = x' ∧ y = y' := by
  refine ⟨fun h => ⟨?_, ?_⟩, fun ⟨hx, hy⟩ => by rw [hx, hy]⟩
  · simpa only [BitVec.extractLsb'_append_eq_left] using congrArg (·.extractLsb' n m) h
  · simpa only [BitVec.extractLsb'_append_eq_right] using congrArg (·.extractLsb' 0 n) h

/-- A header word under a mask: the version, twenty places the mask leaves out, and the two selected fields. -/
theorem maskedHeader_eq_iff {a b : Nat} {v v' : Nibble} {y y' : BitVec a} {i i' : BitVec b} :
    v ++ (0 : BitVec 20) ++ y ++ i = v' ++ (0 : BitVec 20) ++ y' ++ i' ↔ v = v' ∧ y = y' ∧ i = i' := by
  simp only [append_eq_append_iff, and_true, and_assoc]

/-- What a transaction row asks of the type and the info code of a header (R64, R65). -/
def TxnRow.fits (typeID infoCode : Nibble) : TxnRow → Prop
  | .request k => TxnKind.ofCode typeID = some k ∧ infoCode = requestInfo
  | .response k => TxnKind.ofCode typeID = some k
  | .unsupported => TxnKind.ofCode typeID = none

/-- The mask and the pattern of each transaction row, by the fields they select. -/
def TxnRow.wireRow : TxnRow → WireRow TxnRow
  | .request k => ⟨0xF00000FF, protocolVersion ++ (0 : BitVec 20) ++ k.code ++ requestInfo, .request k⟩
  | .response k => ⟨0xF00000F0, protocolVersion ++ (0 : BitVec 20) ++ k.code ++ (0 : BitVec 4), .response k⟩
  | .unsupported => ⟨0xF0000080, protocolVersion ++ (0 : BitVec 20) ++ 1#1 ++ (0 : BitVec 7), .unsupported⟩

theorem eq_wireRow : ∀ r ∈ txnRows, r = r.row.wireRow := by decide

theorem wireRow_mem (row : TxnRow) : row.wireRow ∈ txnRows := by
  cases row with
  | request k => cases k <;> decide
  | response k => cases k <;> decide
  | unsupported => decide

/-- The types 8 to 15 are those with the top bit set (R64). -/
theorem topBit_iff (y : Nibble) : y.extractLsb' 3 1 = 1#1 ↔ TxnKind.ofCode y = none := by
  revert y; decide

/-- A header word matches a row exactly when its version is 2 and its type and info code are the row's. -/
theorem wireRow_matches_iff (row : TxnRow) (w : Word) : w &&& row.wireRow.mask = row.wireRow.pattern ↔
    (txnFields w).version = protocolVersion ∧ row.fits (txnFields w).typeID (txnFields w).infoCode := by
  cases row with
  | request k =>
    simp only [TxnRow.wireRow, TxnRow.fits, ofCode_eq_some_iff, and_requestMask]
    exact maskedHeader_eq_iff
  | response k =>
    simp only [TxnRow.wireRow, TxnRow.fits, ofCode_eq_some_iff, and_responseMask]
    exact maskedHeader_eq_iff.trans (by simp only [and_true])
  | unsupported =>
    simp only [TxnRow.wireRow, TxnRow.fits, ← topBit_iff, and_unsupportedMask]
    exact maskedHeader_eq_iff.trans (by simp only [and_true])

theorem matches_iff {r : WireRow TxnRow} (hr : r ∈ txnRows) (w : Word) : w &&& r.mask = r.pattern ↔
    (txnFields w).version = protocolVersion ∧ r.row.fits (txnFields w).typeID (txnFields w).infoCode := by
  rw [← wireRow_matches_iff, ← eq_wireRow r hr]

/-- The rows that fit one header are one row, or the request and the response row of one kind (R65). -/
theorem fits_overlap {y i : Nibble} {row row' : TxnRow} (h : row.fits y i) (h' : row'.fits y i) :
    row = row' ∨ ∃ k, i = requestInfo ∧
      ((row = .request k ∧ row' = .response k) ∨ (row = .response k ∧ row' = .request k)) := by
  cases hk : TxnKind.ofCode y <;> cases row <;> cases row' <;> simp_all [TxnRow.fits]

theorem typeID_toNat (w : Word) : (txnFields w).typeID.toNat = w.toNat / 16 % 16 := by
  simp [txnFields, BitVec.extractLsb'_toNat, Nat.shiftRight_eq_div_pow]

theorem infoCode_toNat (w : Word) : (txnFields w).infoCode.toNat = w.toNat % 16 := by
  simp [txnFields, BitVec.extractLsb'_toNat]

/-- The info code of a request is the number 15 in the lowest four places (R63, R65). -/
theorem infoCode_eq_requestInfo_iff (w : Word) : (txnFields w).infoCode = requestInfo ↔ w.toNat % 16 = 15 := by
  rw [← BitVec.toNat_inj, infoCode_toNat]; rfl

/-- Settles O8: the masks select version, type and info code, and the first row that fits is the request row. -/
theorem transactionRowsOverlapOnlyAtRequests : Obligations.TransactionRowsOverlapOnlyAtRequests := by
  have version : ∀ w : Word, (txnFields w).version = protocolVersion ↔ w.toNat / 2 ^ 28 = 2 := version_eq_iff
  refine ⟨fun w => ?_, fun w r hr r' hr' h h' => ?_, fun w => ⟨fun hv => ?_, fun hv => ⟨fun k hk => ?_, fun hk => ?_⟩⟩⟩
  · rw [← version]
    refine ⟨fun ⟨r, hr, h⟩ => ((matches_iff hr w).mp h).1, fun hv => ?_⟩
    cases hk : TxnKind.ofCode (txnFields w).typeID with
    | none => exact ⟨_, wireRow_mem .unsupported, (wireRow_matches_iff _ w).mpr ⟨hv, hk⟩⟩
    | some k => exact ⟨_, wireRow_mem (.response k), (wireRow_matches_iff _ w).mpr ⟨hv, hk⟩⟩
  · obtain hrow | ⟨k, hi, hrows⟩ := fits_overlap ((matches_iff hr w).mp h).2 ((matches_iff hr' w).mp h').2
    · exact .inl (by rw [eq_wireRow r hr, eq_wireRow r' hr', hrow])
    · exact .inr ⟨k, (infoCode_eq_requestInfo_iff w).mp hi, hrows⟩
  · rw [matchRow_txnRows, txnRowOf, if_pos (mt (version w).mp hv)]
  · have hcode := (ofCode_eq_some_iff _ _).mpr (BitVec.eq_of_toNat_eq ((typeID_toNat w).trans hk))
    rw [matchRow_txnRows, txnRowOf, if_neg (not_not.mpr ((version w).mpr hv)), hcode]
    exact ⟨fun hi => if_pos ((infoCode_eq_requestInfo_iff w).mpr hi),
      fun hi => if_neg (mt (infoCode_eq_requestInfo_iff w).mp hi)⟩
  · have hcode := (ofCode_eq_none_iff _).mpr ((typeID_toNat w).symm ▸ hk)
    rw [matchRow_txnRows, txnRowOf, if_neg (not_not.mpr ((version w).mpr hv)), hcode]

end Sys2Proof

namespace Sys2Proof.Machine

/-! ### Images that are no command (R76, R233; log 6) -/

/-- Bytes on the command port that decode to no instruction are refused (R233). -/
theorem step_command_refused {s : State} {bytes : List Byte} {rest : List Event} {e : DecodeError}
    (h : s.input = .request ⟨.command, bytes⟩ :: rest) (hd : decodeCommand bytes = .error e) :
    step s = .refused (.noCommand e) :=
  step_refused h hd fun k hk => decodeCommand_error bytes k (hk ▸ hd)

/-- The code of an operation and operands its reader fails on (R77). -/
theorem decodeCommand_of_operands {code : Byte} {op : Op} {operands : List Byte} {e : DecodeError}
    (hc : Op.ofCode code = some op) (he : readOperands op operands = .error e) :
    decodeCommand (code :: operands) = .error e := by
  simp only [decodeCommand, readCommand, hc, he]

/-- A reader that fails first makes a sequence of readers fail. -/
theorem andThen_error {α β : Type} {read : Reader α} {bs : List Byte} {e : DecodeError} (h : read bs = .error e)
    (next : α → Reader β) : Reader.andThen read next bs = .error e := by
  simp only [Reader.andThen, h]

/-- A code outside the table selects no operation (R76). -/
theorem ofCode_eq_none {code : Byte} (h : ∀ row ∈ commandTable, row.1 ≠ code) : Op.ofCode code = none := by
  rw [Op.ofCode, List.find?_eq_none.mpr fun row hrow => by simpa using h row hrow]
  rfl

/-- A sequence of descriptors with a wide type ID among them is no sequence (R233, U12). -/
theorem readSeq_descriptors_wide {n : Nat} {qs : List Descriptor} {y : Byte} (hn : qs.length < n) (hy : 16 ≤ y.toNat)
    (operands : List Byte) :
    readSeq readDescriptor (natImage n ++ (qs.map descriptorImage).flatten ++ y :: operands) =
      .error .operandOutsideType := by
  rw [List.append_assoc, readSeq, readNat_image]
  exact readMany_error readDescriptor_image (readDescriptor_wide hy operands) qs hn

/-- Settles O9: the readers' failures are the reasons of the refusals, and none is a failure of the wire parser. -/
theorem unknownCommandsAndWideOperandsRefused : Obligations.UnknownCommandsAndWideOperandsRefused := by
  refine ⟨fun s bytes rest hno h => ?_, fun s code operands rest hcode h => ?_, fun s hi lo rest hw h => ?_,
    fun s y c rest hw h => ?_, fun s b y rest hw h => ?_, fun s y operands rest hw h => ?_,
    fun s n qs y operands rest hn hw h => ?_, fun s bytes extra i rest hd he h => ?_,
    fun s bytes extra i rest hd he h => ?_⟩
  · cases hd : decodeCommand bytes with
    | ok i => exact absurd hd (hno i)
    | error e => exact ⟨e, step_command_refused h hd⟩
  · exact step_command_refused h (by simp only [decodeCommand, readCommand, ofCode_eq_none hcode])
  · refine step_command_refused h (decodeCommand_of_operands (op := .tidSet) rfl (andThen_error ?_ _))
    simp only [readTxnId, if_neg (Nat.not_lt.mpr hw)]
  · exact step_command_refused h
      (decodeCommand_of_operands (op := .encTxnHdr) rfl (andThen_error (readNibble_wide hw _) _))
  · refine step_command_refused h (decodeCommand_of_operands (op := .encPktHdr) rfl ?_)
    by_cases hb : 16 ≤ b.toNat
    · exact andThen_error (readNibble_wide hb _) _
    · have hy := hw.resolve_left hb
      simp only [readOperands, Reader.andThen, readNibble, if_pos (Nat.not_le.mp hb), if_neg (Nat.not_lt.mpr hy)]
  · exact step_command_refused h
      (decodeCommand_of_operands (op := .txnEncode) rfl (andThen_error (readDescriptor_wide hw _) _))
  · exact step_command_refused h (decodeCommand_of_operands (op := .pktEncode) rfl
      (andThen_error (readSeq_descriptors_wide hn hw operands) _))
  · exact step_command_refused h (decodeCommand_incomplete hd he)
  · exact step_command_refused h (decodeCommand_overlong hd he)

/-- Settles O5: six fixed words, decoded by the model itself. -/
theorem wordsDecodeAsTheTablesSay : Obligations.WordsDecodeAsTheTablesSay := by
  unfold Obligations.WordsDecodeAsTheTablesSay
  decide +kernel

end Sys2Proof.Machine
end

section
/-! PROOFS. Descriptors and TXN_ENCODE (R141 to R152): which descriptors the constructors return, what TXN_ENCODE emits, how
long it is, and where it fails, in priority order. -/

namespace Sys2Proof.Machine

/-! ### Constructor calls and descriptors (R141 to R148) -/

/-- The constructor call a descriptor comes from, by its type (R141); a descriptor of an unsupported type comes from none. -/
def callOf (q : Descriptor) : Option RequestCall :=
  (TxnKind.ofCode q.typeID).map fun
    | .read => .read q.baseAddress q.wordCount
    | .write => .write q.baseAddress q.payload
    | .niRead => .niRead q.baseAddress q.wordCount
    | .niWrite => .niWrite q.baseAddress q.payload
    | .rmwBits => .rmwBits q.baseAddress (payloadWord q.payload 0) (payloadWord q.payload 1)
    | .rmwSum => .rmwSum q.baseAddress (payloadWord q.payload 0)
    | .cfgRead => .cfgRead q.baseAddress q.wordCount
    | .cfgWrite => .cfgWrite q.baseAddress q.payload

theorem callOf_descriptor (c : RequestCall) : callOf c.descriptor = some c := by
  cases c <;> rfl

theorem descriptor_wellFormed {c : RequestCall} (hc : c.legal = true) : c.descriptor.wellFormed = true := by
  cases c
  case read => exact readRequest_wellFormed ..
  case niRead => exact niReadRequest_wellFormed ..
  case cfgRead => exact cfgReadRequest_wellFormed ..
  case rmwBits => exact rmwBitsRequest_wellFormed ..
  case rmwSum => exact rmwSumRequest_wellFormed ..
  case write => exact writeRequest_wellFormed (of_decide_eq_true hc) _
  case niWrite => exact niWriteRequest_wellFormed (of_decide_eq_true hc) _
  case cfgWrite => exact cfgWriteRequest_wellFormed (of_decide_eq_true hc) _

/-- A payload as long as an 8-bit count says is legal data, and the count is its length (R143). -/
theorem legal_of_count {ps : List Word} {c : Count} (h : ps.length = c.toNat) :
    decide (ps.length ≤ maxPayloadWords) = true ∧ BitVec.ofNat 8 ps.length = c := by
  have hc := c.isLt
  rw [h, BitVec.ofNat_toNat, BitVec.setWidth_eq]
  exact ⟨decide_eq_true (by rw [maxPayloadWords]; omega), rfl⟩

/-- Every well-formed descriptor comes from a legal call. -/
theorem exists_call {q : Descriptor} (hq : q.wellFormed = true) : ∃ c : RequestCall, c.legal = true ∧ c.descriptor = q := by
  obtain ⟨y, n, a, ps⟩ := q
  obtain ⟨k, rfl, hp, hrmw⟩ := (wellFormed_iff _).mp hq
  cases k <;> simp only [paylen, if_true, TxnKind.cls, forall_const, reduceCtorEq, false_implies] at hp hrmw
  case read => exact ⟨.read a n, rfl, by rw [List.eq_nil_of_length_eq_zero hp]; rfl⟩
  case niRead => exact ⟨.niRead a n, rfl, by rw [List.eq_nil_of_length_eq_zero hp]; rfl⟩
  case cfgRead => exact ⟨.cfgRead a n, rfl, by rw [List.eq_nil_of_length_eq_zero hp]; rfl⟩
  case write => obtain ⟨hl, rfl⟩ := legal_of_count hp; exact ⟨.write a ps, hl, rfl⟩
  case niWrite => obtain ⟨hl, rfl⟩ := legal_of_count hp; exact ⟨.niWrite a ps, hl, rfl⟩
  case cfgWrite => obtain ⟨hl, rfl⟩ := legal_of_count hp; exact ⟨.cfgWrite a ps, hl, rfl⟩
  case rmwBits => exact ⟨.rmwBits a (payloadWord ps 0) (payloadWord ps 1), rfl, by rw [hrmw, payload_two hp]; rfl⟩
  case rmwSum => exact ⟨.rmwSum a (payloadWord ps 0), rfl, by rw [hrmw, payload_one hp]; rfl⟩

/-- Settles O22: the call can be read off the descriptor. -/
theorem constructorsReturnWellFormedDescriptors : Obligations.ConstructorsReturnWellFormedDescriptors := by
  refine ⟨fun _ => descriptor_wellFormed, fun q hq => ?_⟩
  obtain ⟨c, hc, rfl⟩ := exists_call hq
  refine ⟨c, ⟨hc, rfl⟩, fun c' ⟨_, h⟩ => ?_⟩
  have := callOf_descriptor c'
  rw [h, callOf_descriptor] at this
  exact (Option.some.inj this).symm

/-! ### TXN_ENCODE (R149, R152) -/

/-- A type of 8 to 15 is unsupported (R64, R213). -/
theorem supported_eq_false_iff (q : Descriptor) : q.supported = false ↔ 8 ≤ q.typeID.toNat := by
  rw [Descriptor.supported, decide_eq_false_iff_not, Nat.not_lt]

/-- A descriptor of a supported type that is not well formed breaks the precondition (R149, U2). -/
theorem presentable_eq_false_iff (q : Descriptor) :
    q.presentable = false ↔ q.typeID.toNat < 8 ∧ q.wellFormed = false := by
  simp [Descriptor.presentable, Descriptor.supported]

/-- A descriptor of an unsupported type meets the precondition (R149). -/
theorem presentable_of_unsupported {q : Descriptor} (h : q.supported = false) : q.presentable = true := by
  rw [Descriptor.presentable, h]; rfl

/-- Settles O23: the frame is the wire form of the descriptor's Transaction. -/
theorem txnEncodeEmitsFrame : Obligations.TxnEncodeEmitsFrame := by
  intro q cap s hq hc
  refine ⟨(q.transaction s.tid).wire, q.transaction s.tid, ?_, Transaction.wire_eq_words _, wire_length _, rfl⟩
  rw [exec_txnEncode_of_wellFormed hq hc, ← txnId_add]
  rfl

/-- Settles O24: the precondition, then the type, then the capacity. -/
theorem txnEncodeFailsInOrder : Obligations.TxnEncodeFailsInOrder := by
  refine fun q cap s => ⟨fun hy => ?_, fun hq hc => ?_, fun hy hq => ?_⟩
  · have hs := (supported_eq_false_iff q).mpr hy
    have hp : ¬ q.presentable = false := ne_false_of_eq_true (presentable_of_unsupported hs)
    exact (encodeTxn_eq q cap s).trans (by rw [if_neg hp, if_pos hs]; rfl)
  · have hp : ¬ q.presentable = false := ne_false_of_eq_true (presentable_of_wellFormed hq)
    have hs : ¬ q.supported = false := ne_false_of_eq_true (supported_of_wellFormed hq)
    exact (encodeTxn_eq q cap s).trans (by rw [if_neg hp, if_neg hs, if_pos (show cap < q.bytes from hc)]; rfl)
  · exact (encodeTxn_eq q cap s).trans (if_pos ((presentable_eq_false_iff q).mpr ⟨hy, hq⟩))

/-- Every request takes at least 8 bytes of a packet (R67). -/
theorem packetBytes_ge (qs : List Descriptor) : 4 + 8 * qs.length ≤ packetBytes qs := by
  have hsum : (qs.map Descriptor.bytes).length • 8 ≤ (qs.map Descriptor.bytes).sum :=
    List.card_nsmul_le_sum _ _ fun n hn => by
      obtain ⟨q, -, rfl⟩ := List.mem_map.mp hn
      exact Nat.le_add_right 8 _
  rw [List.length_map, smul_eq_mul] at hsum
  rw [packetBytes]
  omega

/-- Two kinds with one code are one kind (R64). -/
theorem code_injective {k k' : TxnKind} (h : k.code = k'.code) : k = k' := by
  have hk := ofCode_code k
  rw [h, ofCode_code] at hk
  exact (Option.some.inj hk).symm

/-- Settles O28: the frame's length is the payload's, which the kind fixes. -/
theorem encodedLengthsAndCeiling : Obligations.EncodedLengthsAndCeiling := by
  refine ⟨fun q k hq hk => ?_, fun qs hqs => ?_⟩
  · obtain ⟨k', hk', hp, -⟩ := (wellFormed_iff q).mp hq
    obtain rfl : k' = k := code_injective (hk'.symm.trans hk)
    have hle := paylen_le k' requestInfo q.wordCount
    have hbytes : q.bytes = 8 + 4 * q.payload.length := rfl
    have hpacket : packetBytes [q] = 4 + q.bytes := by simp [packetBytes]
    refine ⟨?_, ?_, ?_, ?_, by omega⟩ <;> rw [hbytes, hp] <;> cases k' <;> simp [TxnKind.cls, paylen]
  · have := packetBytes_ge qs
    omega

end Sys2Proof.Machine
end

section
/-! PROOFS. PKT_ENCODE (R171 to R177): what it emits, its expansion, its round trip, and where it fails, in priority
order. -/

namespace Sys2Proof.Machine

/-- An unsupported type fails first (R171, R221). -/
theorem packetCheck_unsupported {qs : List Descriptor} (h : ∃ q ∈ qs, q.supported = false) (cap m : Nat) :
    packetCheck qs cap m = some .unsupportedTransactionType := by
  have hany : (qs.any fun q => !q.supported) = true := by simpa using h
  rw [packetCheck, if_pos hany]

/-- The checks that follow when every type is supported (R171, R221). -/
theorem packetCheck_supported {qs : List Descriptor} (h : ∀ q ∈ qs, q.supported = true) (cap m : Nat) :
    packetCheck qs cap m = if m < qs.length then some .packetTooLarge
      else if mtuBytes < packetBytes qs then some .packetTooLarge
      else if cap < packetBytes qs then some .bufferTooSmall else none := by
  have hany : ¬ (qs.any fun q => !q.supported) = true := by simpa using h
  rw [packetCheck, if_neg hany]

section WellFormed

variable {qs : List Descriptor} (hq : ∀ q ∈ qs, q.wellFormed = true)
include hq

theorem all_presentable : qs.all Descriptor.presentable = true :=
  List.all_eq_true.mpr fun q h => presentable_of_wellFormed (hq q h)

theorem all_supported : ∀ q ∈ qs, q.supported = true := fun q h => supported_of_wellFormed (hq q h)

/-- PKT_ENCODE of well-formed requests within the limits (R171). -/
theorem exec_pktEncode_of_wellFormed {cap : Nat} {s : State} (hcount : qs.length ≤ s.config.maxTxn)
    (hmtu : packetBytes qs ≤ mtuBytes) (hcap : packetBytes qs ≤ cap) : exec (.pktEncode qs cap) s =
      .next (respond (.success (.encodedPkt (packetOf qs s).wire (packetOf qs s))) (afterPacket qs.length s)) :=
  encodePacket_success (all_presentable hq)
    ((packetCheck_eq_none_iff _ _ _).mpr ⟨all_supported hq, hcount, hmtu, hcap⟩)

end WellFormed

/-- The state after a packet of `n` transactions, the counters as numbers (R29). -/
theorem afterPacket_eq (n : Nat) (s : State) : afterPacket n s = { s with
    pid := BitVec.ofNat 16 ((s.pid.toNat + 1) % 65536), tid := BitVec.ofNat 12 ((s.tid.toNat + n) % 4096) } := by
  rw [← packetId_add, ← txnId_add]; rfl

/-- Settles O29: the packet is the wire form of the header and of the requests' Transactions, numbered from `TID`. -/
theorem pktEncodeEmitsPacket : Obligations.PktEncodeEmitsPacket := by
  intro qs cap s hq hcount hmtu hcap
  refine ⟨(packetOf qs s).wire, packetOf qs s, ?_, rfl, packetOf_wire_length qs s, rfl,
    transactionsFrom_length _ _, fun k hk => ?_⟩
  · rw [exec_pktEncode_of_wellFormed hq hcount hmtu hcap, afterPacket_eq]; rfl
  · rw [packetOf, transactionsFrom_get _ _ _ hk, txnId_add]; rfl

/-- Settles O30: the precondition, then the types, the count, the ceiling and the capacity. -/
theorem pktEncodeFailsInOrder : Obligations.PktEncodeFailsInOrder := by
  refine fun qs cap s => ⟨fun hp hy => ?_, fun hq hlarge => ?_, fun hq hcount hmtu hcap => ?_, fun hbad => ?_⟩
  · obtain ⟨q, hmem, hy⟩ := hy
    exact encodePacket_failure (List.all_eq_true.mpr hp)
      (packetCheck_unsupported ⟨q, hmem, (supported_eq_false_iff q).mpr hy⟩ _ _)
  · refine encodePacket_failure (all_presentable hq) ((packetCheck_supported (all_supported hq) _ _).trans ?_)
    by_cases hcount : s.config.maxTxn < qs.length
    · rw [if_pos hcount]
    · rw [if_neg hcount, if_pos (hlarge.resolve_left hcount)]
  · refine encodePacket_failure (all_presentable hq) ((packetCheck_supported (all_supported hq) _ _).trans ?_)
    rw [if_neg (Nat.not_lt.mpr hcount), if_neg (Nat.not_lt.mpr hmtu), if_pos hcap]
  · obtain ⟨q, hmem, hbad⟩ := hbad
    exact encodePacket_refused (List.all_eq_false.mpr
      ⟨q, hmem, Bool.eq_false_iff.mp ((presentable_eq_false_iff q).mpr hbad)⟩)

/-- One TXN_ENCODE after another emits the requests' Transactions, numbered from `TID` (R176). -/
theorem execAll_txnEncodes {qs : List Descriptor} {cap : Nat} (hq : ∀ q ∈ qs, q.wellFormed = true)
    (hcap : ∀ q ∈ qs, q.bytes ≤ cap) (s : State) : execAll (qs.map fun q => .txnEncode q cap) s = .next { s with
      tid := s.tid + BitVec.ofNat 12 qs.length
      outcome := s.outcome ++ (transactionsFrom s.tid qs).map fun T => .success (.encodedTxn T.wire T) } := by
  induction qs generalizing s with
  | nil => simp [execAll, transactionsFrom]
  | cons q qs ih =>
    have first := exec_txnEncode_of_wellFormed (hq q List.mem_cons_self) (hcap q List.mem_cons_self) s
    simp only [List.map_cons, execAll, first]
    rw [ih (fun q' h => hq q' (List.mem_cons_of_mem q h)) (fun q' h => hcap q' (List.mem_cons_of_mem q h))]
    simp only [respond_tid, writeTid_tid, add_one_add_ofNat, transactionsFrom, List.map_cons, List.length_cons]
    simp [respond, writeTid]

/-- Each frame of a packet fits where the packet fits (R171). -/
theorem bytes_le_of_mem {qs : List Descriptor} {q : Descriptor} (h : q ∈ qs) : q.bytes ≤ packetBytes qs :=
  (List.single_le_sum (fun _ _ => Nat.zero_le _) _ (List.mem_map_of_mem h)).trans (Nat.le_add_left _ _)

/-- Settles O31: both sides emit the header and the wire forms of the same Transactions. -/
theorem pktEncodeIsItsExpansion : Obligations.PktEncodeIsItsExpansion := by
  intro qs cap s hq hcount hmtu hcap
  refine ⟨assemblePktHdr 0 s.pid 0xF 0, (transactionsFrom s.tid qs).map fun T => (T.wire, T), s.pid + 1,
    s.tid + BitVec.ofNat 12 qs.length, ?_, ?_⟩
  · simp only [execAll, exec_encPktHdr]
    rw [execAll_txnEncodes hq fun q h => (bytes_le_of_mem h).trans hcap]
    simp [respond, writePid]
  · rw [exec_pktEncode_of_wellFormed hq hcount hmtu hcap]
    simp [packetOf, ControlPacket.wire, afterPacket, respond, writePid, writeTid, Function.comp_def]

/-- The packet of well-formed requests is one PKT_DECODE returns (R170, R177). -/
theorem packetOf_valid {qs : List Descriptor} (hq : ∀ q ∈ qs, q.wellFormed = true) (s : State) :
    (packetOf qs s).valid = true := by
  have hall : (packetOf qs s).transactions.all Transaction.valid = true := List.all_eq_true.mpr fun T hT => by
    obtain ⟨q, hmem, t, rfl⟩ := mem_transactionsFrom hT
    exact transaction_valid (hq q hmem) t
  rw [ControlPacket.valid, hall]
  rfl

/-- Settles O34: PKT_ENCODE delivers the wire form of a valid packet, and PKT_DECODE of that returns the packet. -/
theorem pktRoundTrip : Obligations.PktRoundTrip := by
  intro qs cap s t tx P hq h ho u
  obtain ⟨-, ⟨-, rfl⟩ | ⟨k, -, rfl⟩⟩ := encodePacket_next h
  · obtain ⟨rfl, rfl⟩ : (packetOf qs s).wire = tx ∧ packetOf qs s = P := by simpa [afterPacket] using ho
    exact pktDecodeReturnsExactlyPackets.1 _ u (packetOf_valid hq s)
  · simp at ho

end Sys2Proof.Machine
end

section
/-! PROOFS. The BUILD operations (R191 to R198): each is PKT_ENCODE of one well-formed request. -/

namespace Sys2Proof.Machine

section Build

variable {i : Instr} {y : Nibble} {n : Count} {a : Word} {ps : List Word} {cap : Nat} {s : State}
  (hi : packetOperands i = some ([⟨y, n, a, ps⟩], cap)) (hw : i.WellFormed)
  (hq : Descriptor.wellFormed ⟨y, n, a, ps⟩ = true) (hm : s.config.Wf)
include hi hw hq hm

/-- A BUILD operation with room for its packet: a header and one frame, both counters advanced once (R198). -/
theorem exec_build (hc : 12 + 4 * ps.length ≤ cap) : exec i s = .next { s with
    pid := BitVec.ofNat 16 ((s.pid.toNat + 1) % 65536)
    tid := BitVec.ofNat 12 ((s.tid.toNat + 1) % 4096)
    outcome := s.outcome ++ [.success (.encodedPkt
      (be32 (assemblePktHdr 0 s.pid 0xF 0) ++ be32 (assembleTxnHdr s.tid n y 0xF) ++ be32 a ++ (ps.map be32).flatten)
      ⟨⟨2, 0, s.pid, 0xF, 0⟩, [⟨s.tid, y, 0xF, n, a, ps⟩]⟩)] } := by
  have hwire : (packetOf [⟨y, n, a, ps⟩] s).wire = be32 (assemblePktHdr 0 s.pid 0xF 0)
      ++ be32 (assembleTxnHdr s.tid n y 0xF) ++ be32 a ++ (ps.map be32).flatten := by
    simp [packetOf, transactionsFrom, ControlPacket.wire, Transaction.wire_eq_words, Descriptor.transaction]
  have hroom : ¬ cap < 4 + Descriptor.bytes ⟨y, n, a, ps⟩ := Nat.not_lt.mpr (used_eq _ ▸ hc)
  rw [exec_of_packetOperands hi hw, encodePacket_single hq cap hm.1, if_neg hroom, afterPacket_eq, hwire]
  rfl

/-- A BUILD operation without room for its packet (R198, R214). -/
theorem exec_build_tooSmall (hc : cap < 12 + 4 * ps.length) :
    exec i s = .next { s with outcome := s.outcome ++ [.failure .bufferTooSmall] } := by
  rw [used_eq] at hc
  rw [exec_of_packetOperands hi hw, encodePacket_single hq cap hm.1]
  exact if_pos hc

end Build

/-- Settles O35: one read request without payload. -/
theorem buildReadsEmitOneRequest : Obligations.BuildReadsEmitOneRequest := by
  refine fun a n cap s hm => ⟨fun hc i y hi => ?_, fun hc i hi => ?_, rfl, rfl⟩
  · obtain ⟨rfl, rfl⟩ | ⟨rfl, rfl⟩ := hi
    · simpa only [List.map_nil, List.flatten_nil, List.append_nil] using
        exec_build (i := .buildRead a n cap) (y := 0) rfl rfl (readRequest_wellFormed a n) hm hc
    · simpa only [List.map_nil, List.flatten_nil, List.append_nil] using
        exec_build (i := .buildNIRead a n cap) (y := 2) rfl rfl (niReadRequest_wellFormed a n) hm hc
  · obtain rfl | rfl := hi
    · exact exec_build_tooSmall rfl rfl (readRequest_wellFormed a n) hm hc
    · exact exec_build_tooSmall rfl rfl (niReadRequest_wellFormed a n) hm hc

/-- Settles O36: one write request of at most 255 words. -/
theorem buildWritesEmitOneRequest : Obligations.BuildWritesEmitOneRequest := by
  refine fun a d cap s hm => ⟨fun hd hc i y hi => ?_, fun hd hc i hi => ?_, fun hd => ?_, fun hd i hi => ?_⟩
  · have hw := decide_eq_true hd
    obtain ⟨rfl, rfl⟩ | ⟨rfl, rfl⟩ := hi
    · exact exec_build rfl hw (writeRequest_wellFormed hd a) hm hc
    · exact exec_build rfl hw (niWriteRequest_wellFormed hd a) hm hc
  · have hw := decide_eq_true hd
    obtain rfl | rfl := hi
    · exact exec_build_tooSmall rfl hw (writeRequest_wellFormed hd a) hm hc
    · exact exec_build_tooSmall rfl hw (niWriteRequest_wellFormed hd a) hm hc
  · have hw := decide_eq_true hd
    exact ⟨exec_of_packetOperands (i := .buildWrite a d cap) rfl hw s,
      exec_of_packetOperands (i := .buildNIWrite a d cap) rfl hw s⟩
  · obtain rfl | rfl := hi <;> exact if_pos hd

/-- Settles O37: one read-modify-write request, of two operand words or one. -/
theorem buildReadModifyWritesEmitOneRequest : Obligations.BuildReadModifyWritesEmitOneRequest := by
  refine fun a x y cap s hm => ⟨fun hc => ?_, fun hc => ?_, fun hc => ?_, fun hc => ?_, rfl, rfl⟩
  · simpa only [List.map_cons, List.map_nil, List.flatten_cons, List.flatten_nil, List.append_nil, List.append_assoc] using
      exec_build (i := .buildRMWBits a x y cap) (y := 4) rfl rfl (rmwBitsRequest_wellFormed a x y) hm hc
  · exact exec_build_tooSmall (i := .buildRMWBits a x y cap) rfl rfl (rmwBitsRequest_wellFormed a x y) hm hc
  · simpa only [List.map_cons, List.map_nil, List.flatten_cons, List.flatten_nil, List.append_nil, List.append_assoc] using
      exec_build (i := .buildRMWSum a x cap) (y := 5) rfl rfl (rmwSumRequest_wellFormed a x) hm hc
  · exact exec_build_tooSmall (i := .buildRMWSum a x cap) rfl rfl (rmwSumRequest_wellFormed a x) hm hc

end Sys2Proof.Machine
end

section
/-! PROOFS. The wire rows (R62 to R72, R213, R220; log 1) and the status codes (R211). -/

namespace Sys2Proof.Machine

/-- The unsupported types are 8 and the row's three open bits (R64, R213). -/
theorem ofNat_eight_add (y : BitVec 3) : BitVec.ofNat 4 (8 + y.toNat) = 1#1 ++ y := by
  revert y; decide

/-- A packet of another type than control fails the header checks (R220). -/
theorem parsePktHdr_assemble (r : Nibble) (p : PacketId) (b : Nibble) {y : Nibble} (hy : y ≠ controlType)
    (body : List Byte) : parsePktHdr (be32 (assemblePktHdr r p b y) ++ body) = .error .badPacketType :=
  parsePktHdr_type (rxWord_be32 _ _) (by rw [pktFields_assemble]) (by rwa [pktFields_assemble])

/-- Settles O41: the three rows answer at once; the parsers reach the same failure at the packet type or the type ID. -/
theorem otherPacketsAndTypesFail : Obligations.OtherPacketsAndTypesFail := by
  refine ⟨fun r p b body s => ⟨rfl, rfl, ?_, ?_⟩, fun t c y i rest s => ⟨rfl, ?_⟩⟩
  · exact exec_pktDecode_of_header (parsePktHdr_assemble r p b (y := statusType) (by decide) body) s
  · exact exec_decodeResponse_of_header (parsePktHdr_assemble r p b (y := resendType) (by decide) body) s
  · rw [ofNat_eight_add]
    refine exec_txnDecode_of_error (parseTxn_unsupported (rxWord_be32 _ rest) ?_ ?_) s <;> rw [txnFields_assemble]
    show 8 ≤ (1#1 ++ y).toNat
    revert y; decide

/-- A frame row whose payload is as long as its word count is answered with that length (R68). -/
theorem exec_counted {i : Instr} {T : Transaction} {c : Count} (hT : i.transaction = some T) (hw : i.WellFormed)
    (hp : T.payload.length = c.toNat) (s : State) :
    exec i s = .next (respond (.success (.decodedTxn T (8 + 4 * c.toNat))) s) := by
  rw [exec_of_transaction hT hw, hp, frameBytes]

/-- Settles O42: the frames without a payload of `wordCount` words are well formed as they are, the others by their length. -/
theorem requestFramesAreReceived : Obligations.RequestFramesAreReceived := by
  refine fun t c a x y ps s => ⟨exec_of_transaction (i := .txnReadReq t c a) rfl rfl s,
    exec_of_transaction (i := .txnNIReadReq t c a) rfl rfl s, exec_of_transaction (i := .txnCfgReadReq t c a) rfl rfl s,
    exec_of_transaction (i := .txnRMWBitsReq t c a x y) rfl rfl s,
    exec_of_transaction (i := .txnRMWSumReq t c a x) rfl rfl s, fun hp => ?_⟩
  have hw : countMatches c ps = true := beq_iff_eq.mpr hp
  exact ⟨exec_counted (i := .txnWriteReq t c a ps) rfl hw hp s, exec_counted (i := .txnNIWriteReq t c a ps) rfl hw hp s,
    exec_counted (i := .txnCfgWriteReq t c a ps) rfl hw hp s⟩

/-- Settles O43: the info code marks a response, and the frames of the read types are well formed by their length. -/
theorem responseFramesAreReceived : Obligations.ResponseFramesAreReceived := by
  intro t c i a x ps s hi
  have hr : isResponse i = true := bne_iff_ne.mpr hi
  refine ⟨exec_of_transaction (i := .txnWriteRsp t c i a) rfl hr s,
    exec_of_transaction (i := .txnNIWriteRsp t c i a) rfl hr s,
    exec_of_transaction (i := .txnCfgWriteRsp t c i a) rfl hr s,
    exec_of_transaction (i := .txnRMWBitsRsp t c i a x) rfl hr s,
    exec_of_transaction (i := .txnRMWSumRsp t c i a x) rfl hr s, fun hp => ?_⟩
  have hw : (isResponse i && countMatches c ps) = true := Bool.and_eq_true_iff.mpr ⟨hr, beq_iff_eq.mpr hp⟩
  exact ⟨exec_counted (i := .txnReadRsp t c i a ps) rfl hw hp s, exec_counted (i := .txnNIReadRsp t c i a ps) rfl hw hp s,
    exec_counted (i := .txnCfgReadRsp t c i a ps) rfl hw hp s⟩

/-! ### Status codes (R211) -/

/-- The failure kind of a number of R211's table. -/
def kindOfCode : Nat → Option FailureKind
  | 1 => some .protocolVersionMismatch
  | 2 => some .unsupportedTransactionType
  | 3 => some .bufferTooSmall
  | 4 => some .packetTooLarge
  | 5 => some .sequenceGap
  | 6 => some .truncatedInput
  | 7 => some .counterExhaustion
  | 8 => some .badPacketType
  | _ => none

theorem kindOfCode_failureCode (k : FailureKind) : kindOfCode (failureCode k) = some k := by cases k <;> rfl

theorem failureCode_bounds (k : FailureKind) : 1 ≤ failureCode k ∧ failureCode k ≤ 8 := by cases k <;> decide

theorem exists_failureCode {n : Nat} (h1 : 1 ≤ n) (h8 : n ≤ 8) : ∃ k, failureCode k = n := by
  obtain ⟨k, -, hk⟩ : ∃ k, kindOfCode n = some k ∧ failureCode k = n := by interval_cases n <;> exact ⟨_, rfl, rfl⟩
  exact ⟨k, hk⟩

/-- Settles O49: the kind can be read off its number, and the numbers are 1 to 8. -/
theorem statusCodesTellKindsApart : Obligations.StatusCodesTellKindsApart := by
  refine ⟨fun r => ?_, fun k k' h => ?_, fun n => ?_, rfl, rfl, rfl, rfl, rfl, rfl, rfl, rfl⟩
  · cases r with
    | success v => exact ⟨fun _ => ⟨v, rfl⟩, fun _ => rfl⟩
    | failure k =>
      have hk : statusCode (.failure k) ≠ 0 := Nat.ne_of_gt (failureCode_bounds k).1
      exact ⟨fun h => absurd h hk, fun ⟨v, hv⟩ => by cases hv⟩
  · have hk := congrArg kindOfCode h
    simpa only [statusCode, kindOfCode_failureCode, Option.some.injEq] using hk
  · exact ⟨fun ⟨k, hk⟩ => hk ▸ failureCode_bounds k, fun ⟨h1, h8⟩ => exists_failureCode h1 h8⟩

end Sys2Proof.Machine
end
